-- ==== Sys2Proof/Word.lean ====
section
/-! DEFINITION. The word type: the two word widths the spec admits (00_scope.md R6), what follows from the
width alone (R7, R12), and the bytes, words and W + 1 bit addresses the block's registers hold. -/

namespace Sys2Proof

/-- One byte (R13: bits 7 to 0). -/
abbrev Byte := BitVec 8

/-- The parameter `W` (R6): the spec admits exactly 32 and 64. -/
inductive Width where
  | w32
  | w64
deriving DecidableEq, Repr

/-- `W`, the word width in bits (R6). -/
@[reducible] def Width.bits : Width → Nat
  | .w32 => 32
  | .w64 => 64

/-- `WORD_BYTES` (R7). -/
def Width.bytes : Width → Nat
  | .w32 => 4
  | .w64 => 8

/-- `MAX_CONT` (R12): the most continuation bytes one encoding holds. -/
def Width.maxCont : Width → Nat
  | .w32 => 4
  | .w64 => 9

/-- `MAX_LEN` (R12): the longest encoding in bytes. -/
def Width.maxLen (w : Width) : Nat := w.maxCont + 1

/-- A register of W bits: a word, an address or a length (R6, R8). -/
abbrev Word (w : Width) := BitVec w.bits

/-- A register of W + 1 bits: `CUR`, `NEXT_FREE` and the response fields that may hold 2^W (R27, R30, R33). -/
abbrev Addr (w : Width) := BitVec (w.bits + 1)

end Sys2Proof
end

