-- ==== Sys2Proof/Config.lean ====
section
/-! DEFINITION. What an implementation or a launch fixes: the parameters of 00_scope.md section 3 (`MEMORY_SIZE`,
`MAX_AREAS`, `ENDIAN`, the initial memory contents) and the form in which memory contents are held. -/

namespace Sys2Proof

/-- `ENDIAN` (R11): the byte order a consumer of the block uses for words. No rule of the block depends on it. -/
inductive Endian where
  | little
  | big
deriving DecidableEq, Repr

/-- Memory contents as (address, byte) pairs. Canonical form: see `Memory.wf`. -/
abbrev Memory := List Host.Cell

/-- What an unlisted address reads as. DESIGN CHOICE, unsafe (assumption 2): R25 states no reset contents. -/
def Memory.blank : Byte := 0

/-- The canonical form: addresses strictly rising, and no entry equal to what an unlisted address reads as. -/
abbrev Memory.wf (m : Memory) : Prop :=
  m.Pairwise (fun x y => x.1 < y.1) ∧ ∀ c ∈ m, c.2 ≠ Memory.blank

/-- The inputs of construction (R165) with the implementation parameters that stay fixed for the instance. -/
structure Launch (w : Width) where
  /-- `MEMORY_SIZE`, the construction argument (R9, R24). -/
  memorySize : Word w
  /-- `MAX_AREAS` (R10). -/
  maxAreas : Nat
  /-- `ENDIAN` (R11). -/
  endian : Endian
  /-- `PMEM_INIT`, the contents of primary memory (R25, 92_eei_decisions.md D23). -/
  pmemInit : Memory
deriving DecidableEq, Repr

/-- The launch that `State.reset` stands for. DESIGN CHOICE, unsafe (assumptions 1 to 3): the spec gives these
values as arguments and names none; 4096 and 3 are those of the spec's own examples (95_test_vectors.md V6, P2). -/
def Launch.default : Launch .w32 where
  memorySize := 4096
  maxAreas := 3
  endian := .little
  pmemInit := []

end Sys2Proof
end

