-- ==== Sys2Proof/Syntax.lean ====
section
/-! DEFINITION. The syntax: the two things a byte can be to the block (a command word on the command port, a wire
byte of an encoded instruction), one constructor per row of spec/opcode_table.json, and the command port's operands. -/

namespace Sys2Proof

/-- The kind of an instruction (R73): bit 6 of the final byte, and `CMD[4]` for ENC (R85). -/
inductive Kind where
  | number
  | action
deriving DecidableEq, Repr

/-- Where a byte reaches the block: the command port (30_encoding.md part B) or a codec transport (part A). -/
inductive Channel where
  | command
  | wire
deriving DecidableEq, Repr

/-- The granularity of an access (R52). -/
inductive Granularity where
  | byte
  | word
deriving DecidableEq, Repr

/-- One constructor per row of spec/opcode_table.json. The wire rows carry their payload (R71, R72); the command rows
take their operands from the command port (R87), so the byte names the command alone. -/
inductive Instr where
  /-- Row CONT (R71): a continuation byte with chunk `c`. -/
  | cont (c : BitVec 7)
  /-- Row FINAL.NUM (R72, R75): a final byte of kind NUMBER with payload `p`. -/
  | finalNum (p : BitVec 6)
  /-- Row FINAL.ACT (R72, R76): a final byte of kind ACTION with payload `p`. -/
  | finalAct (p : BitVec 6)
  /-- Row ENC.S_num (R105). -/
  | encSNum
  /-- Row ENC.S_act (R105). -/
  | encSAct
  /-- Row ENC.M_num (R108). -/
  | encMNum
  /-- Row ENC.M_act (R108). -/
  | encMAct
  /-- Row DEC.S (R111). -/
  | decS
  /-- Row DEC.M (R114). -/
  | decM
  /-- Row RESOLVE.B (R127). -/
  | resolveB
  /-- Row RESOLVE.W (R127). -/
  | resolveW
  /-- Row ALLOC (R134). -/
  | alloc
  /-- Row ALIGN (R137). -/
  | align
  /-- Row (reserved) (R88): every other command word. -/
  | reserved (cmd : BitVec 8)
deriving DecidableEq, Repr

/-- Which channel an instruction's byte arrives on. -/
def Instr.channel : Instr → Channel
  | .cont _ => .wire
  | .finalNum _ => .wire
  | .finalAct _ => .wire
  | .encSNum => .command
  | .encSAct => .command
  | .encMNum => .command
  | .encMAct => .command
  | .decS => .command
  | .decM => .command
  | .resolveB => .command
  | .resolveW => .command
  | .alloc => .command
  | .align => .command
  | .reserved _ => .command

/-- A buffer the host owns (R34 DATA, R37): where it lies in the host's own memory and how many bytes it has. -/
structure Buffer where
  /-- The host address of its first byte. -/
  start : Nat
  /-- Its length in bytes. -/
  length : Nat
deriving DecidableEq, Repr

/-- What the host presents on the command port (R34). -/
structure Request (w : Width) where
  /-- CMD, the command word (R85). -/
  cmd : Byte
  /-- OPA, operand A. -/
  opa : Word w
  /-- OPB, operand B. -/
  opb : Word w
  /-- DATA, for ALLOC: a reference to the host's buffer. -/
  data : Buffer
deriving DecidableEq, Repr

end Sys2Proof
end

