-- ==== Sys2Proof/Decode.lean ====
section
/-! DEFINITION. The decoder of both channels (wire bytes by R71, R72 and R84; command words by R85, R86 and R88),
total on any bytes, and the encoder written from the same tables. -/

namespace Sys2Proof

/-- Why no instruction was read. -/
inductive DecodeError where
  /-- There is no byte to read. Safe: the block reads nothing either. -/
  | noByte
deriving DecidableEq, Repr

/-- `K` as a bit (R73, R85): 0 = NUMBER, 1 = ACTION. -/
def Kind.bit : Kind → BitVec 1
  | .number => 0#1
  | .action => 1#1

/-- A continuation byte: bit 7 is 1, bits 6..0 the chunk (R71). -/
def contByte (c : BitVec 7) : Byte := 1#1 ++ c

/-- A final byte: bit 7 is 0, bit 6 the kind, bits 5..0 the payload (R72). -/
def finalByte (k : Kind) (p : BitVec 6) : Byte := 0#1 ++ k.bit ++ p

/-- The byte classes of R84: the whole byte space, with no byte left over. -/
def decodeWire (x : Byte) : Instr :=
  if x.getLsbD 7 then .cont (x.extractLsb' 0 7)
  else if x.getLsbD 6 then .finalAct (x.extractLsb' 0 6)
  else .finalNum (x.extractLsb' 0 6)

/-- A command word built from its fields (R85): bits 7..6 are 0, then `G`, `K` and `OP`. -/
def commandWord (g k : BitVec 1) (op : BitVec 4) : Byte := 0#2 ++ g ++ k ++ op

/-- The command map (R85, R86); every other command word is reserved (R88). -/
def decodeCommand (cmd : Byte) : Instr :=
  if cmd.extractLsb' 6 2 ≠ 0#2 then .reserved cmd
  else
    match (cmd.extractLsb' 0 4).toNat, cmd.getLsbD 4, cmd.getLsbD 5 with
    | 1, false, false => .encSNum
    | 1, true, false => .encSAct
    | 2, false, false => .encMNum
    | 2, true, false => .encMAct
    | 3, false, false => .decS
    | 4, false, false => .decM
    | 5, false, false => .resolveB
    | 5, false, true => .resolveW
    | 6, false, false => .alloc
    | 7, false, false => .align
    | _, _, _ => .reserved cmd

/-- Read one instruction from the bytes that reach the block on a channel, and give back the bytes left. -/
def decode (ch : Channel) : List Byte → Except DecodeError (Instr × List Byte)
  | [] => .error .noByte
  | x :: rest =>
    match ch with
    | .wire => .ok (decodeWire x, rest)
    | .command => .ok (decodeCommand x, rest)

/-- The byte of an instruction, from the same tables (R71, R72, R86). -/
def encode : Instr → List Byte
  | .cont c => [contByte c]
  | .finalNum p => [finalByte .number p]
  | .finalAct p => [finalByte .action p]
  | .encSNum => [commandWord 0#1 0#1 1#4]
  | .encSAct => [commandWord 0#1 1#1 1#4]
  | .encMNum => [commandWord 0#1 0#1 2#4]
  | .encMAct => [commandWord 0#1 1#1 2#4]
  | .decS => [commandWord 0#1 0#1 3#4]
  | .decM => [commandWord 0#1 0#1 4#4]
  | .resolveB => [commandWord 0#1 0#1 5#4]
  | .resolveW => [commandWord 1#1 0#1 5#4]
  | .alloc => [commandWord 0#1 0#1 6#4]
  | .align => [commandWord 0#1 0#1 7#4]
  | .reserved cmd => [cmd]

/-- Whether a command word is reserved (R88): it decodes to no command of R86. -/
def isReserved (cmd : Byte) : Bool := decodeCommand cmd == .reserved cmd

/-- The first `nbits` bits of `w` laid out as the one byte an instruction of this block has. -/
def tableByte (nbits w : Nat) : Byte := BitVec.ofNat 8 (w % 2 ^ nbits)

/-- The channel of a word of the opcode table. The table mixes wire bytes and command words over one byte space. A byte
that is one of the ten commands of R86 is read on the command port, and every other byte as a wire byte; a row to
which the table gives no bits (the row of the reserved words) is read on the command port. DESIGN CHOICE, safe
(assumption 9): nothing but `decodeTableWord` and `State.withFetchWord` uses it. -/
def tableChannel (nbits w : Nat) : Channel :=
  if nbits = 0 then .command
  else if isReserved (tableByte nbits w) then .wire
  else .command

/-- The instruction the decoder reads from a word numbered as spec/opcode_table.json numbers its bits. -/
def decodeTableWord (nbits w : Nat) : Option Instr :=
  match decode (tableChannel nbits w) [tableByte nbits w] with
  | .ok (i, _) => some i
  | .error _ => none

end Sys2Proof
end

