-- ==== Sys2Proof/WellFormed.lean ====
section
/-! DEFINITION. What makes a term well-formed: an instruction (a reserved word is none of R86's commands), a request
(the host's duty of R178 towards ALLOC) and a launch (the legal arguments of R9 and R10). -/

namespace Sys2Proof

/-- An instruction is well-formed when its byte means it: a `reserved` term holds a reserved word (R88). Every other
constructor's operands are bit fields of exactly the encoding's width. -/
def Instr.wf : Instr → Bool
  | .cont _ => true
  | .finalNum _ => true
  | .finalAct _ => true
  | .encSNum => true
  | .encSAct => true
  | .encMNum => true
  | .encMAct => true
  | .decS => true
  | .decM => true
  | .resolveB => true
  | .resolveW => true
  | .alloc => true
  | .align => true
  | .reserved cmd => isReserved cmd

/-- The host gives ALLOC a buffer of at least L bytes (R178); no other command has such a duty. -/
def Request.wf {w : Width} (r : Request w) : Bool :=
  decodeCommand r.cmd != .alloc || decide (r.opb.toNat ≤ r.data.length)

/-- `MEMORY_SIZE` is a multiple of WORD_BYTES from 0 to 2^W − WORD_BYTES (R9, R24). -/
def legalMemorySize {w : Width} (n : Word w) : Bool :=
  decide (n.toNat % w.bytes = 0) && decide (n.toNat + w.bytes ≤ 2 ^ w.bits)

/-- The primary contents are in canonical form and list only addresses of the primary region (R25). -/
def legalContents {w : Width} (size : Word w) (m : Memory) : Bool :=
  decide m.wf && m.all (fun c => decide (c.1 < size.toNat))

/-- A launch the model does not refuse (R9, R10, R25, R170). -/
def Launch.wf {w : Width} (l : Launch w) : Bool :=
  legalMemorySize l.memorySize && decide (1 ≤ l.maxAreas) && legalContents l.memorySize l.pmemInit

end Sys2Proof
end

