-- ==== Sys2Proof/Machine/State.lean ====
section
/-! DEFINITION. The state of the block, as 10_state.md lists it, with the agents around it that R20 names (the host and
its queued actions, the byte stream, the host's own memory), the reasons a step can stop, and the state after reset. -/

namespace Sys2Proof.Machine

open Sys2Proof

/-! ### Status codes, faults and refusals -/

/-- The status codes of R146; `Status.code` gives each its number. -/
inductive Status where
  | ok
  | ioError
  | tooWide
  | invalidAddress
  | unalignedAddress
  | areaTableFull
  | addressSpaceExhausted
  | badCommand
deriving DecidableEq, Repr

/-- The response fields the host can read (R33). -/
inductive ResponseField where
  | status
  | kind
  | value
  | count
  | cur
  | faultAddr
  | region
  | offset
  | base
deriving DecidableEq, Repr

/-- Why the machine stops with a fault. -/
inductive Fault where
  /-- The host reads a response field whose VALID bit is clear (R33, 93_implementation_defined.md I13: fault). Safe. -/
  | invalidResponse (f : ResponseField)
deriving DecidableEq, Repr

/-- Why the model gives no move. -/
inductive Refusal where
  /-- An instruction without a meaning in this model; no arm of `exec` answers it. Safe. -/
  | notModelled (mnemonic : String)
  /-- A command reaches the block while PHASE = BUSY (R34, R178, I14: refuse). Safe. -/
  | commandWhileBusy
  /-- A command, or an access by the environment, reaches a released machine (R168, I18: refuse). Safe. -/
  | released
  /-- ALLOC was given a buffer shorter than its length (R178, I16: refuse). Safe. -/
  | shortBuffer
  /-- A wire byte is executed while no decode waits for one: the spec gives it no effect there. Safe. -/
  | noDecodeRunning
  /-- The environment touches an address that no byte of PMEM or of an area backs (R36, R49). Safe. -/
  | unmappedEnvironmentAccess
  /-- Construction is asked for while the machine has not been released (R166, I17: refuse). Safe. -/
  | resetWithoutRelease
  /-- Construction with an illegal `MEMORY_SIZE` or illegal contents (R170, I19: refuse at launch). Safe. -/
  | illegalLaunch
deriving DecidableEq, Repr

/-! ### Storage -/

/-- One entry of the extra-area table (R26). `DATA_i` is the host's buffer itself (R37): `data` is the host address of
its first byte, so `DATA_i[j]` is the host's byte at `data + j`. -/
structure Area (w : Width) where
  /-- `BASE_i`. -/
  base : Word w
  /-- `SIZE_i`. -/
  size : Word w
  /-- Where the host's buffer starts in the host's own memory. -/
  data : Nat
deriving DecidableEq, Repr

/-- The storage behind a virtual address: the "native byte" of R122. -/
inductive Slot where
  /-- `PMEM[index]` (R47). -/
  | primary (index : Nat)
  /-- The host's byte at `address` (R48 through R37). -/
  | host (address : Nat)
deriving DecidableEq, Repr

/-! ### The byte stream (R35) -/

/-- An answer to StreamRead. -/
inductive ReadAnswer where
  | byte (x : Byte)
  | eof
  | err
deriving DecidableEq, Repr

/-- An answer to StreamWrite. -/
inductive WriteAnswer where
  | ok
  | err
deriving DecidableEq, Repr

/-- The byte stream agent: the answers it will give (its own choice, R35) and the bytes it has accepted. -/
structure ByteStream where
  /-- Whether a stream is attached at all (R173). -/
  attached : Bool
  /-- The answers to the coming reads, oldest first. None left: the stream has not answered (R180). -/
  reads : List ReadAnswer
  /-- The answers to the coming writes, oldest first. -/
  writes : List WriteAnswer
  /-- Every byte written to the stream so far, oldest first. -/
  written : List Byte
deriving DecidableEq, Repr

/-! ### Control -/

/-- The codec command that runs (R95). -/
inductive CodecOp where
  | encS
  | encM
  | decS
  | decM
deriving DecidableEq, Repr

/-- How a codec command's byte steps ended, for the response step to report (R176). -/
inductive CodecResult (w : Width) where
  /-- EncodeCore returned (R98). -/
  | encoded
  /-- DecodeCore returned this value (R101). -/
  | decoded (value : Word w)
  /-- The command raises this status (R97, R102). -/
  | failed (status : Status)
deriving DecidableEq, Repr

/-- Where a running codec command stands (R176): byte steps remain, or the response step is next. -/
inductive Stage (w : Width) where
  | transfer
  | respond (result : CodecResult w)
deriving DecidableEq, Repr

/-- `PHASE` (R31). At BUSY the block also holds which command it runs and where that command stands. -/
inductive Phase (w : Width) where
  | idle
  | busy (op : CodecOp) (stage : Stage w)
deriving DecidableEq, Repr

/-- The response registers (R33). `none` is a clear VALID bit: such a field holds no value. -/
structure Response (w : Width) where
  /-- RSP_STATUS. -/
  status : Option Status := none
  /-- RSP_KIND. -/
  kind : Option Kind := none
  /-- RSP_VALUE, a word. -/
  value : Option (Word w) := none
  /-- RSP_COUNT, 4 bits. -/
  count : Option (BitVec 4) := none
  /-- RSP_CUR, W + 1 bits. -/
  cur : Option (Addr w) := none
  /-- RSP_FAULT_ADDR, W + 1 bits. -/
  faultAddr : Option (Addr w) := none
  /-- RSP_REGION, an integer: 0 is the primary region, i + 1 is extra area i. -/
  region : Option Nat := none
  /-- RSP_OFFSET, W bits. -/
  offset : Option (Word w) := none
  /-- RSP_BASE, W bits. -/
  base : Option (Word w) := none
deriving DecidableEq, Repr

/-- What the host and the environment do, one action at a time and only at PHASE = IDLE (R20, R34, R36, R178). -/
inductive HostAction (w : Width) where
  /-- The host issues a command on the command port (R34). -/
  | command (r : Request w)
  /-- The host reads a response register (R33). -/
  | readResponse (f : ResponseField)
  /-- The environment stores a byte at a virtual address of PMEM or of an area (R36). -/
  | store (address : Word w) (x : Byte)
  /-- The environment reads a byte at a virtual address of PMEM or of an area (R36). -/
  | load (address : Word w)
  /-- The host changes a byte of its own memory, a shared buffer among it (R37). -/
  | hostStore (address : Nat) (x : Byte)
  /-- The owner of the stream attaches, detaches or renews it (R173, 95_test_vectors.md P5). -/
  | setStream (t : ByteStream)
  /-- The machine is released (R168). -/
  | release
  /-- A new machine is constructed after a release (R169) from `MEMORY_SIZE` and the initial contents (R165). -/
  | construct (memorySize : Word w) (pmemInit : Memory)
deriving DecidableEq, Repr

/-! ### The state -/

/-- The block of word width `w` with the agents around it. -/
structure Block (w : Width) where
  /-- `MEMORY_SIZE` (R24). -/
  memorySize : Word w
  /-- `MAX_AREAS`, a parameter of the implementation (R10). -/
  maxAreas : Nat
  /-- `ENDIAN`, a parameter that no rule of the block reads (R11). -/
  endian : Endian
  /-- `PMEM` (R25): byte i at key i. -/
  pmem : Memory
  /-- The extra-area table in allocation order (R26); `AREA_COUNT` is its length. -/
  areas : List (Area w)
  /-- `NEXT_FREE` (R27). -/
  nextFree : Addr w
  /-- `ACC` (R29). -/
  acc : Word w
  /-- `OFF` (R29). -/
  off : Nat
  /-- `CNT` (R29). -/
  cnt : Nat
  /-- `KIND` (R29). -/
  kind : Kind
  /-- `R`, the encoder's remaining value (R29). -/
  rem : Word w
  /-- `BITS` (R29). -/
  bits : Nat
  /-- `CUR`, the byte cursor of the memory binding (R30). -/
  cur : Addr w
  /-- `PHASE` (R31). -/
  phase : Phase w
  /-- `LAST_STATUS` (R32). -/
  lastStatus : Status
  /-- The response registers (R33). -/
  rsp : Response w
  /-- What stands on the command port (R34): CMD, OPA, OPB and DATA of the last command taken. -/
  port : Request w
  /-- Whether the machine has been constructed and not released (R168). -/
  live : Bool
  /-- The byte stream agent (R35). -/
  stream : ByteStream
  /-- The host's own memory, which holds the buffers given to ALLOC (R37). -/
  hostMem : Memory
  /-- The MODEL's own field: what the host and the environment will do, oldest first (R20, R34, R36). -/
  host : List (HostAction w)
deriving DecidableEq, Repr

/-- The machine's state: the word width, which an implementation fixes (R6), and the block of that width. -/
structure State where
  width : Width
  block : Block width
deriving DecidableEq, Repr

/-- A stream that is not there (R173). -/
def ByteStream.detached : ByteStream where
  attached := false
  reads := []
  writes := []
  written := []

/-- The block right after construction (R40, R165). -/
def Block.construct {w : Width} (l : Launch w) : Block w where
  memorySize := l.memorySize
  maxAreas := l.maxAreas
  endian := l.endian
  pmem := l.pmemInit
  areas := []
  nextFree := l.memorySize.setWidth (w.bits + 1)
  acc := 0
  off := 0
  cnt := 0
  kind := .number
  rem := 0
  bits := 0
  cur := 0
  phase := .idle
  lastStatus := .ok
  rsp := {}
  port := { cmd := 0, opa := 0, opb := 0, data := { start := 0, length := 0 } }
  live := true
  stream := ByteStream.detached
  hostMem := []
  host := []

/-- Construction from given arguments; an illegal launch is refused (R170, I19). -/
def State.launch (w : Width) (l : Launch w) : Host.Outcome State Fault Refusal :=
  if l.wf then .next ⟨w, Block.construct l⟩ else .refused .illegalLaunch

/-- The machine right after reset, for the launch `Launch.default` (assumptions 1 to 5). -/
def State.reset : State := ⟨.w32, Block.construct Launch.default⟩

end Sys2Proof.Machine
end

