-- ==== Sys2Proof/Machine/Flags.lean ====
section
/-! DEFINITION. The block has no flags (R23). What stands in their place: the numeric status codes (R146), the value a
read of a response register gives (R33), and the significant widths the encoder tests (R96). -/

namespace Sys2Proof.Machine

open Sys2Proof

/-- The 8-bit code of a status (R146). -/
def Status.code : Status → BitVec 8
  | .ok => 0
  | .ioError => 1
  | .tooWide => 2
  | .invalidAddress => 3
  | .unalignedAddress => 4
  | .areaTableFull => 5
  | .addressSpaceExhausted => 6
  | .badCommand => 7

/-- What the host reads in a response register, as an unsigned number; nothing where the VALID bit is clear (R33). -/
def Response.read {w : Width} (r : Response w) : ResponseField → Option Nat
  | .status => r.status.map (fun s => s.code.toNat)
  | .kind => r.kind.map (fun k => k.bit.toNat)
  | .value => r.value.map BitVec.toNat
  | .count => r.count.map BitVec.toNat
  | .cur => r.cur.map BitVec.toNat
  | .faultAddr => r.faultAddr.map BitVec.toNat
  | .region => r.region
  | .offset => r.offset.map BitVec.toNat
  | .base => r.base.map BitVec.toNat

/-- The number of binary digits of `n`: the least k with n ≤ 2^k − 1. -/
def digits (n : Nat) : Nat := if n = 0 then 0 else n.log2 + 1

/-- `sw(v)` (R96): the least k ≥ 1 with −2^(k−1) ≤ v ≤ 2^(k−1) − 1. -/
def signedWidth (v : Int) : Nat := digits (if v < 0 then (-v - 1).toNat else v.toNat) + 1

/-- `uw(v)` (R96), of the unsigned reading of the word. -/
def unsignedWidth (u : Nat) : Nat := digits u

/-- The width EncodeCore starts from (R98): sw for a NUMBER, uw for an ACTION. -/
def significantWidth {w : Width} (k : Kind) (v : Word w) : Nat :=
  match k with
  | .number => signedWidth v.toInt
  | .action => unsignedWidth v.toNat

end Sys2Proof.Machine
end

