-- ==== Sys2Proof/Machine/Operands.lean ====
section
/-! DEFINITION. The operand forms of the commands (R87): OPA as a start address, OPB as a signed word (ENC) or as an
unsigned length (RESOLVE, ALLOC), DATA as the host's buffer. -/

namespace Sys2Proof.Machine

open Sys2Proof

/-- OPA as the byte cursor's start value, in W + 1 bits (R30, R108, R114). -/
def Block.startAddress {w : Width} (b : Block w) : Addr w := b.port.opa.setWidth (w.bits + 1)

/-- OPA as an unsigned address (R8, R127). -/
def Block.addressOperand {w : Width} (b : Block w) : Nat := b.port.opa.toNat

/-- OPB as an unsigned length (R8, R127, R134). -/
def Block.lengthOperand {w : Width} (b : Block w) : Nat := b.port.opb.toNat

/-- OPB as the word an ENC command encodes (R87). -/
def Block.valueOperand {w : Width} (b : Block w) : Word w := b.port.opb

/-- DATA, the host's buffer (R87). -/
def Block.bufferOperand {w : Width} (b : Block w) : Buffer := b.port.data

end Sys2Proof.Machine
end

