-- ==== Sys2Proof/Machine/Ops.lean ====
section
/-! DEFINITION. The operations every meaning is built from: memory by the byte, the validator (R53), the byte primitives
(R56, R57), the two codec transports (R97), and the end of a command (R151), which stands where other machines take an
exception (R145, R155) and return from it (R156). -/

namespace Sys2Proof

/-! ### Memory contents -/

/-- Read one byte of memory contents. -/
def Memory.read : Memory → Nat → Byte
  | [], _ => Memory.blank
  | (k, x) :: m, a => if k = a then x else Memory.read m a

/-- Write one byte, keeping the canonical form of `Memory.wf`. -/
def Memory.write : Memory → Nat → Byte → Memory
  | [], a, v => if v = Memory.blank then [] else [(a, v)]
  | (k, x) :: m, a, v =>
    if a < k then (if v = Memory.blank then (k, x) :: m else (a, v) :: (k, x) :: m)
    else if a = k then (if v = Memory.blank then m else (a, v) :: m)
    else (k, x) :: Memory.write m a v

namespace Machine

/-! ### Running an operation of the block on the state -/

/-- Run an operation of the block, at whatever width the state has. -/
def State.onBlock (s : State) (f : Block s.width → Host.Outcome (Block s.width) Fault Refusal) :
    Host.Outcome State Fault Refusal :=
  match f s.block with
  | .next b => .next ⟨s.width, b⟩
  | .fault r => .fault r
  | .refused r => .refused r

/-- A command is taken only by a machine that has not been released (R168) and only at PHASE = IDLE (R34, R178). -/
def Block.command {w : Width} (b : Block w) (f : Block w → Host.Outcome (Block w) Fault Refusal) :
    Host.Outcome (Block w) Fault Refusal :=
  if b.live = false then .refused .released
  else if b.phase = .idle then f b
  else .refused .commandWhileBusy

/-! ### Storage -/

/-- Read the byte of a storage slot (R56). -/
def Block.readSlot {w : Width} (b : Block w) : Slot → Byte
  | .primary i => b.pmem.read i
  | .host a => b.hostMem.read a

/-- Write the byte of a storage slot (R57). -/
def Block.writeSlot {w : Width} (b : Block w) (p : Slot) (x : Byte) : Block w :=
  match p with
  | .primary i => { b with pmem := b.pmem.write i x }
  | .host a => { b with hostMem := b.hostMem.write a x }

/-! ### The validator (R53) -/

/-- What Resolve answers: a region and an offset in it, with the storage behind that offset, or one of its two faults. -/
inductive Resolved where
  | found (region offset : Nat) (slot : Slot)
  | invalid
  | unaligned
deriving DecidableEq, Repr

/-- Whether the byte range [a, a + l) lies in an area, or a in its closure when l = 0 (R53, R55). -/
def Area.holds {w : Width} (r : Area w) (a l : Nat) : Bool :=
  decide (r.base.toNat ≤ a) && decide (a + l ≤ r.base.toNat + r.size.toNat)

/-- The area of least index that holds the range (R53), counting from index `i`. -/
def findArea {w : Width} (a l : Nat) : Nat → List (Area w) → Option (Nat × Area w)
  | _, [] => none
  | i, r :: rs => if r.holds a l then some (i, r) else findArea a l (i + 1) rs

/-- The bounds half of R53: the region that holds the range, the primary region first. -/
def Block.locate {w : Width} (b : Block w) (a l : Nat) : Option (Nat × Nat × Slot) :=
  if a + l ≤ b.memorySize.toNat then some (0, a, .primary a)
  else
    match findArea a l 0 b.areas with
    | some (i, r) => some (i + 1, a - r.base.toNat, .host (r.data + (a - r.base.toNat)))
    | none => none

/-- `Resolve(a, l, g)` (R53), over unbounded integers: bounds first, then alignment of a WORD access. -/
def Block.resolve {w : Width} (b : Block w) (a l : Nat) (g : Granularity) : Resolved :=
  match b.locate a l with
  | none => .invalid
  | some (region, offset, slot) =>
    if g = .word ∧ a % w.bytes ≠ 0 then .unaligned else .found region offset slot

/-- The byte at a virtual address, for whoever looks at PHASE = IDLE (R36, R49): none where no byte backs it, and none at
all after release (R168). -/
def Block.byteAt {w : Width} (b : Block w) (a : Nat) : Option Byte :=
  if b.live then
    match b.resolve a 1 .byte with
    | .found _ _ slot => some (b.readSlot slot)
    | _ => none
  else none

/-- Store a byte at a virtual address: the storage behind it, where there is one. -/
def Block.storeByte {w : Width} (b : Block w) (a : Nat) (x : Byte) : Option (Block w) :=
  match b.resolve a 1 .byte with
  | .found _ _ slot => some (b.writeSlot slot x)
  | _ => none

/-! ### The end of a command (R151) -/

/-- `respond` and `raise` (R151): write RSP_STATUS and the listed fields, clear every other VALID bit, write LAST_STATUS,
return to IDLE. It is all the block has of exception entry (R155); nothing needs clearing afterwards (R156). -/
def Block.endCommand {w : Width} (b : Block w) (st : Status) (fields : Response w) : Block w :=
  { b with rsp := { fields with status := some st }, lastStatus := st, phase := .idle }

/-! ### The transports (R97) -/

/-- The stream agent as it stands after an answer (R35). -/
def Block.withStream {w : Width} (b : Block w) (t : ByteStream) : Block w := { b with stream := t }

/-- `CUR <- CUR + 1` (R108, R114): W + 1 bits, so that it holds 2^W after a transfer at 2^W − 1 (R51). -/
def Block.advance {w : Width} (b : Block w) : Block w := { b with cur := b.cur + 1 }

/-- What a `Put` answers. -/
inductive PutResult (w : Width) where
  | done (b : Block w)
  | failed (st : Status) (b : Block w)
  | waiting
deriving DecidableEq, Repr

/-- What a `Get` answers. -/
inductive GetResult (w : Width) where
  | got (x : Byte) (b : Block w)
  | failed (st : Status) (b : Block w)
  | waiting
deriving DecidableEq, Repr

/-- `StreamWrite(b)` (R35, R105): OK takes the byte, ERR is an IO_ERROR, no stream answers ERR (R173), and a stream that
has not answered holds the block (R180). -/
def Block.streamPut {w : Width} (b : Block w) (x : Byte) : PutResult w :=
  if b.stream.attached then
    match b.stream.writes with
    | [] => .waiting
    | .ok :: rest =>
      .done (b.withStream { b.stream with writes := rest, written := b.stream.written ++ [x] })
    | .err :: rest => .failed .ioError (b.withStream { b.stream with writes := rest })
  else .failed .ioError b

/-- `StreamRead()` (R35, R111): a byte is consumed, EOF and ERR are both an IO_ERROR (R147). -/
def Block.streamGet {w : Width} (b : Block w) : GetResult w :=
  if b.stream.attached then
    match b.stream.reads with
    | [] => .waiting
    | .byte x :: rest => .got x (b.withStream { b.stream with reads := rest })
    | .eof :: rest => .failed .ioError (b.withStream { b.stream with reads := rest })
    | .err :: rest => .failed .ioError (b.withStream { b.stream with reads := rest })
  else .failed .ioError b

/-- `Put` of the memory binding (R108): validate the byte at `CUR`, write it, advance `CUR`. -/
def Block.memPut {w : Width} (b : Block w) (x : Byte) : PutResult w :=
  match b.resolve b.cur.toNat 1 .byte with
  | .found _ _ slot => .done (b.writeSlot slot x).advance
  | .invalid => .failed .invalidAddress b
  | .unaligned => .failed .unalignedAddress b

/-- `Get` of the memory binding (R114): validate the byte at `CUR`, read it, advance `CUR`. -/
def Block.memGet {w : Width} (b : Block w) : GetResult w :=
  match b.resolve b.cur.toNat 1 .byte with
  | .found _ _ slot => .got (b.readSlot slot) b.advance
  | .invalid => .failed .invalidAddress b
  | .unaligned => .failed .unalignedAddress b

/-- Whether a codec command decodes. -/
def CodecOp.decodes : CodecOp → Bool
  | .encS => false
  | .encM => false
  | .decS => true
  | .decM => true

/-- Whether a codec command's transport is memory (R95). -/
def CodecOp.inMemory : CodecOp → Bool
  | .encS => false
  | .encM => true
  | .decS => false
  | .decM => true

/-- `Put` of a codec command's transport (R95, R97). -/
def Block.put {w : Width} (b : Block w) (op : CodecOp) (x : Byte) : PutResult w :=
  if op.inMemory then b.memPut x else b.streamPut x

/-- `Get` of a codec command's transport (R95, R97). -/
def Block.get {w : Width} (b : Block w) (op : CodecOp) : GetResult w :=
  if op.inMemory then b.memGet else b.streamGet

end Machine

end Sys2Proof
end

