-- ==== Sys2Proof/Machine/Addressing.lean ====
section
/-! DEFINITION. The meanings of RESOLVE, ALLOC and ALIGN (41_addressing.md) and of a reserved command word (R88): each is
one step (R176). -/

namespace Sys2Proof.Machine

open Sys2Proof

/-- RESOLVE at a granularity (R127). -/
def Block.runResolve {w : Width} (b : Block w) (g : Granularity) : Block w :=
  match b.resolve b.addressOperand b.lengthOperand g with
  | .found region offset _ =>
    b.endCommand .ok { region := some region, offset := some (BitVec.ofNat w.bits offset) }
  | .invalid => b.endCommand .invalidAddress { faultAddr := some b.startAddress }
  | .unaligned => b.endCommand .unalignedAddress { faultAddr := some b.startAddress }

/-- RESOLVE.B (R127 with G = 0). -/
def execResolveB (s : State) : Host.Outcome State Fault Refusal :=
  s.onBlock fun b => b.command fun b => .next (b.runResolve .byte)

/-- RESOLVE.W (R127 with G = 1). -/
def execResolveW (s : State) : Host.Outcome State Fault Refusal :=
  s.onBlock fun b => b.command fun b => .next (b.runResolve .word)

/-- The two conditions of R132 under which no area fits. -/
def Block.exhausted {w : Width} (b : Block w) (l : Nat) : Bool :=
  decide (b.nextFree.toNat = 2 ^ w.bits) || decide (2 ^ w.bits < b.nextFree.toNat + l)

/-- The table entry and the new NEXT_FREE of an ALLOC of `l` bytes (R134). -/
def Block.appendArea {w : Width} (b : Block w) (l : Nat) (data : Buffer) : Block w :=
  { b with
    areas := b.areas ++
      [{ base := b.nextFree.setWidth w.bits, size := BitVec.ofNat w.bits l, data := data.start }]
    nextFree := b.nextFree + BitVec.ofNat (w.bits + 1) l }

/-- ALLOC (R134). A buffer shorter than L is a broken duty of the host, for which the model gives no move whatever the
command would answer (R178, 92_eei_decisions.md D28, I16). Then AREA_TABLE_FULL, ADDRESS_SPACE_EXHAUSTED, and the new area,
whose bytes are the host's buffer itself. -/
def Block.runAlloc {w : Width} (b : Block w) : Host.Outcome (Block w) Fault Refusal :=
  if b.bufferOperand.length < b.lengthOperand then .refused .shortBuffer
  else if b.areas.length = b.maxAreas then .next (b.endCommand .areaTableFull {})
  else if b.exhausted b.lengthOperand then .next (b.endCommand .addressSpaceExhausted {})
  else
    .next ((b.appendArea b.lengthOperand b.bufferOperand).endCommand .ok
      { base := some (b.nextFree.setWidth w.bits), region := some (b.areas.length + 1) })

/-- ALLOC (R134). -/
def execAlloc (s : State) : Host.Outcome State Fault Refusal :=
  s.onBlock fun b => b.command fun b => b.runAlloc

/-- `roundup(x, m)` (R14): the least multiple of `m` that is at least `x`. -/
def roundup (x m : Nat) : Nat := (x + (m - 1)) / m * m

/-- ALIGN (R137): NEXT_FREE rounds up to WORD_BYTES. -/
def Block.runAlign {w : Width} (b : Block w) : Block w :=
  { b with nextFree := BitVec.ofNat (w.bits + 1) (roundup b.nextFree.toNat w.bytes) }

/-- ALIGN (R137). -/
def execAlign (s : State) : Host.Outcome State Fault Refusal :=
  s.onBlock fun b => b.command fun b => .next (b.runAlign.endCommand .ok {})

/-- A reserved command word (R88, R150): BAD_COMMAND, with no operand read and no byte transferred. -/
def execReserved (_cmd : BitVec 8) (s : State) : Host.Outcome State Fault Refusal :=
  s.onBlock fun b => b.command fun b => .next (b.endCommand .badCommand {})

end Sys2Proof.Machine
end

