-- ==== Sys2Proof/Machine/Codec.lean ====
section
/-! DEFINITION. The encoder core (R98) and the decoder core (R101): their data path, their byte steps and their response
step (R176), shared by the four codec commands and the three wire bytes. -/

namespace Sys2Proof.Machine

open Sys2Proof

/-! ### Data path -/

/-- The chunk `R[6:0]` (R98). -/
def chunkOf {w : Width} (r : Word w) : BitVec 7 := r.extractLsb' 0 7

/-- The final payload `R[5:0]` (R98). -/
def payloadOf {w : Width} (r : Word w) : BitVec 6 := r.extractLsb' 0 6

/-- `uwrap_W(ACC | (payload << OFF))` (R101). -/
def accumulate {w : Width} {n : Nat} (acc : Word w) (off : Nat) (payload : BitVec n) : Word w :=
  acc ||| (payload.setWidth w.bits <<< off)

/-- The value at the final byte (R101, R75, R76): a NUMBER whose width `OFF + 6` is below W is sign-extended, any other
value is the word in the accumulator. -/
def finalValue {w : Width} (k : Kind) (off : Nat) (acc : Word w) : Word w :=
  if k = .number ∧ off + 6 < w.bits then (acc.setWidth (off + 6)).signExtend w.bits else acc

/-- The byte EncodeCore puts next (R98): continuation while more than 6 bits remain. -/
def nextByte {w : Width} (k : Kind) (r : Word w) (bits : Nat) : Byte :=
  if 6 < bits then contByte (chunkOf r) else finalByte k (payloadOf r)

/-! ### Start of a codec command -/

/-- PHASE moves to BUSY with a codec command's byte steps ahead (R31). -/
def Block.accept {w : Width} (b : Block w) (op : CodecOp) : Block w := { b with phase := .busy op .transfer }

/-- EncodeCore's first line (R98). -/
def Block.loadEncoder {w : Width} (b : Block w) (k : Kind) (v : Word w) : Block w :=
  { b with kind := k, rem := v, bits := significantWidth k v, cnt := 0 }

/-- DecodeCore's first line (R101). -/
def Block.clearDecoder {w : Width} (b : Block w) : Block w := { b with acc := 0, off := 0, cnt := 0 }

/-- `CUR <- A` (R108, R114). -/
def Block.loadCursor {w : Width} (b : Block w) : Block w := { b with cur := b.startAddress }

/-! ### Byte steps -/

/-- The byte steps are over: the response step is next (R176). -/
def Block.finish {w : Width} (b : Block w) (op : CodecOp) (res : CodecResult w) : Block w :=
  { b with phase := .busy op (.respond res) }

/-- After a continuation byte was put (R98). -/
def Block.afterContPut {w : Width} (b : Block w) : Block w :=
  { b with cnt := b.cnt + 1, rem := b.rem.sshiftRight 7, bits := b.bits - 7 }

/-- `CNT <- CNT + 1` (R98, R101). -/
def Block.countByte {w : Width} (b : Block w) : Block w := { b with cnt := b.cnt + 1 }

/-- A chunk joins the accumulator (R101): `ACC <- uwrap_W(ACC | (b[6:0] << OFF))`, `OFF <- OFF + 7`. -/
def Block.joinChunk {w : Width} (b : Block w) (c : BitVec 7) : Block w :=
  { b with acc := accumulate b.acc b.off c, off := b.off + 7 }

/-- The final payload joins the accumulator and the kind is known (R101). -/
def Block.joinFinal {w : Width} (b : Block w) (k : Kind) (p : BitVec 6) : Block w :=
  { b with kind := k, acc := accumulate b.acc b.off p }

/-- One byte step of the encoder (R98, R176): one Put, with its Resolve for the memory binding. -/
def Block.encodeStep {w : Width} (b : Block w) (op : CodecOp) : Block w :=
  match b.put op (nextByte b.kind b.rem b.bits) with
  | .done c => if 6 < b.bits then c.afterContPut else c.countByte.finish op .encoded
  | .failed st c => c.finish op (.failed st)
  | .waiting => b

/-- A continuation byte in the decoder (R101, R102). -/
def Block.takeChunk {w : Width} (b : Block w) (op : CodecOp) (c : BitVec 7) : Block w :=
  if w.bits - 7 ≤ b.off then b.countByte.finish op (.failed .tooWide)
  else b.countByte.joinChunk c

/-- A final byte in the decoder (R101). -/
def Block.takeFinal {w : Width} (b : Block w) (op : CodecOp) (k : Kind) (p : BitVec 6) : Block w :=
  (b.countByte.joinFinal k p).finish op (.decoded (finalValue k b.off (accumulate b.acc b.off p)))

/-- A wire byte means something only to a decode that waits for one (R101). -/
def Block.decoding {w : Width} (b : Block w) (f : CodecOp → Block w) : Host.Outcome (Block w) Fault Refusal :=
  match b.phase with
  | .busy op .transfer => if op.decodes then .next (f op) else .refused .noDecodeRunning
  | _ => .refused .noDecodeRunning

/-! ### Response step -/

/-- `RSP_COUNT = CNT` (R105, R108, R111, R114), with `RSP_CUR = CUR` for the memory binding. -/
def Block.transferFields {w : Width} (b : Block w) (op : CodecOp) : Response w :=
  { count := some (BitVec.ofNat 4 b.cnt), cur := if op.inMemory then some b.cur else none }

/-- The address a failed codec command reports (R108, R114): the address that did not resolve, which is `CUR`, or the
address of the byte that was too wide, which `CUR` has just passed. -/
def Block.failureAddress {w : Width} (b : Block w) (st : Status) : Addr w :=
  if st = .tooWide then b.cur - 1 else b.cur

/-- The response step of a codec command (R105, R108, R111, R114, R176). -/
def Block.respondCodec {w : Width} (b : Block w) (op : CodecOp) (res : CodecResult w) : Block w :=
  match res with
  | .encoded => b.endCommand .ok (b.transferFields op)
  | .decoded v => b.endCommand .ok { b.transferFields op with kind := some b.kind, value := some v }
  | .failed st =>
    b.endCommand st
      { b.transferFields op with faultAddr := if op.inMemory then some (b.failureAddress st) else none }

/-! ### The cores as functions on byte strings (R70, R98, R101), for statements about whole encodings -/

/-- EncodeCore's loop with at most `n` continuation bytes still to come (R98). -/
def encodeLoop {w : Width} (k : Kind) : Nat → Word w → Nat → List Byte
  | 0, r, _ => [finalByte k (payloadOf r)]
  | n + 1, r, bits =>
    if 6 < bits then contByte (chunkOf r) :: encodeLoop k n (r.sshiftRight 7) (bits - 7)
    else [finalByte k (payloadOf r)]

/-- The bytes EncodeCore(K, v) puts (R98). -/
def encodeCore {w : Width} (k : Kind) (v : Word w) : List Byte :=
  encodeLoop k w.maxCont v (significantWidth k v)

/-- What DecodeCore does with a byte string. -/
inductive Decoded (w : Width) where
  /-- It returned kind, value and count; the bytes left are not read. -/
  | value (k : Kind) (v : Word w) (cnt : Nat) (left : List Byte)
  /-- It failed with TOO_WIDE after this many bytes. -/
  | tooWide (cnt : Nat) (left : List Byte)
  /-- The string ended before a final byte (R82). -/
  | unterminated (cnt : Nat)
deriving DecidableEq, Repr

/-- The kind a final byte carries in bit 6 (R72, R73). -/
def kindOfFinal (x : Byte) : Kind := if x.getLsbD 6 then .action else .number

/-- DecodeCore's loop (R101). -/
def decodeLoop {w : Width} (acc : Word w) (off cnt : Nat) : List Byte → Decoded w
  | [] => .unterminated cnt
  | x :: rest =>
    if x.getLsbD 7 then
      if w.bits - 7 ≤ off then .tooWide (cnt + 1) rest
      else decodeLoop (accumulate acc off (x.extractLsb' 0 7)) (off + 7) (cnt + 1) rest
    else
      .value (kindOfFinal x) (finalValue (kindOfFinal x) off (accumulate acc off (x.extractLsb' 0 6))) (cnt + 1) rest

/-- DecodeCore over a byte string (R101). -/
def decodeCore {w : Width} (bytes : List Byte) : Decoded w := decodeLoop 0 0 0 bytes

end Sys2Proof.Machine
end

