-- ==== Sys2Proof/Machine/CodecCommands.lean ====
section
/-! DEFINITION. The meanings of the codec commands ENC.S, ENC.M, DEC.S and DEC.M (40_codec.md): taking the command loads
the codec's registers and moves to BUSY (R31); the byte steps and the response step follow (R176). -/

namespace Sys2Proof.Machine

open Sys2Proof

/-- ENC.S num (R105): EncodeCore(NUMBER, OPB) to the stream. -/
def execEncSNum (s : State) : Host.Outcome State Fault Refusal :=
  s.onBlock fun b => b.command fun b => .next ((b.loadEncoder .number b.valueOperand).accept .encS)

/-- ENC.S act (R105): EncodeCore(ACTION, OPB) to the stream. -/
def execEncSAct (s : State) : Host.Outcome State Fault Refusal :=
  s.onBlock fun b => b.command fun b => .next ((b.loadEncoder .action b.valueOperand).accept .encS)

/-- ENC.M num (R108): EncodeCore(NUMBER, OPB) into memory from OPA on. -/
def execEncMNum (s : State) : Host.Outcome State Fault Refusal :=
  s.onBlock fun b => b.command fun b =>
    .next ((b.loadCursor.loadEncoder .number b.valueOperand).accept .encM)

/-- ENC.M act (R108): EncodeCore(ACTION, OPB) into memory from OPA on. -/
def execEncMAct (s : State) : Host.Outcome State Fault Refusal :=
  s.onBlock fun b => b.command fun b =>
    .next ((b.loadCursor.loadEncoder .action b.valueOperand).accept .encM)

/-- DEC.S (R111): DecodeCore from the stream. -/
def execDecS (s : State) : Host.Outcome State Fault Refusal :=
  s.onBlock fun b => b.command fun b => .next (b.clearDecoder.accept .decS)

/-- DEC.M (R114): DecodeCore from memory at OPA. -/
def execDecM (s : State) : Host.Outcome State Fault Refusal :=
  s.onBlock fun b => b.command fun b => .next (b.loadCursor.clearDecoder.accept .decM)

end Sys2Proof.Machine
end

