-- ==== Sys2Proof/Machine/Wire.lean ====
section
/-! DEFINITION. The meanings of the wire bytes CONT, FINAL.NUM and FINAL.ACT: what one byte read by a decode does
(30_encoding.md R71 to R77, 40_codec.md R101 and R102). -/

namespace Sys2Proof.Machine

open Sys2Proof

/-- CONT (R71, R77, R101, R102): the chunk joins ACC at OFF, or the decode fails with TOO_WIDE. -/
def execCont (c : BitVec 7) (s : State) : Host.Outcome State Fault Refusal :=
  s.onBlock fun b => b.decoding fun op => b.takeChunk op c

/-- FINAL.NUM (R72, R75, R101, R103): a NUMBER, sign-extended while fewer than W bits were read. -/
def execFinalNum (p : BitVec 6) (s : State) : Host.Outcome State Fault Refusal :=
  s.onBlock fun b => b.decoding fun op => b.takeFinal op .number p

/-- FINAL.ACT (R72, R76, R101, R103): an ACTION, never sign-extended. -/
def execFinalAct (p : BitVec 6) (s : State) : Host.Outcome State Fault Refusal :=
  s.onBlock fun b => b.decoding fun op => b.takeFinal op .action p

end Sys2Proof.Machine
end

