-- ==== Sys2Proof/Machine/Dispatch.lean ====
section
/-! DEFINITION. One arm per row of spec/opcode_table.json. -/

namespace Sys2Proof.Machine

open Sys2Proof

def exec (i : Instr) (s : State) : Host.Outcome State Fault Refusal :=
  match i with
  -- wire bytes (30_encoding.md part A)
  | .cont c => Sys2Proof.Machine.execCont c s
  | .finalNum p => Sys2Proof.Machine.execFinalNum p s
  | .finalAct p => Sys2Proof.Machine.execFinalAct p s
  -- codec commands (40_codec.md)
  | .encSNum => Sys2Proof.Machine.execEncSNum s
  | .encSAct => Sys2Proof.Machine.execEncSAct s
  | .encMNum => Sys2Proof.Machine.execEncMNum s
  | .encMAct => Sys2Proof.Machine.execEncMAct s
  | .decS => Sys2Proof.Machine.execDecS s
  | .decM => Sys2Proof.Machine.execDecM s
  -- addressing commands (41_addressing.md)
  | .resolveB => Sys2Proof.Machine.execResolveB s
  | .resolveW => Sys2Proof.Machine.execResolveW s
  | .alloc => Sys2Proof.Machine.execAlloc s
  | .align => Sys2Proof.Machine.execAlign s
  -- reserved command words (R88)
  | .reserved cmd => Sys2Proof.Machine.execReserved cmd s

end Sys2Proof.Machine
end

