-- ==== Sys2Proof/Machine/Environment.lean ====
section
/-! DEFINITION. What the host and the environment do between commands, all of it at PHASE = IDLE (R20, R33, R36, R37,
R166, R168, R169, R173, R178). -/

namespace Sys2Proof.Machine

open Sys2Proof

/-- An access of the environment to a machine that still exists (R36, R168). -/
def Block.whileLive {w : Width} (b : Block w) (o : Host.Outcome (Block w) Fault Refusal) :
    Host.Outcome (Block w) Fault Refusal :=
  if b.live then o else .refused .released

/-- The host reads a response register: a fault where its VALID bit is clear (R33, I13). Reading changes nothing. -/
def Block.hostReads {w : Width} (b : Block w) (f : ResponseField) : Host.Outcome (Block w) Fault Refusal :=
  match b.rsp.read f with
  | some _ => .next b
  | none => .fault (.invalidResponse f)

/-- The environment stores a byte of PMEM or of an area (R36). -/
def Block.environmentStores {w : Width} (b : Block w) (a : Nat) (x : Byte) :
    Host.Outcome (Block w) Fault Refusal :=
  match b.storeByte a x with
  | some c => .next c
  | none => .refused .unmappedEnvironmentAccess

/-- The environment reads a byte of PMEM or of an area (R36): no side effect (R56). -/
def Block.environmentLoads {w : Width} (b : Block w) (a : Nat) : Host.Outcome (Block w) Fault Refusal :=
  match b.byteAt a with
  | some _ => .next b
  | none => .refused .unmappedEnvironmentAccess

/-- The arguments of a new machine of the same implementation (R10, R11, R165). -/
def Block.relaunch {w : Width} (b : Block w) (size : Word w) (contents : Memory) : Launch w where
  memorySize := size
  maxAreas := b.maxAreas
  endian := b.endian
  pmemInit := contents

/-- The agents around the block (R20) as they are around `old`: the stream, the host's memory and what the host will do. -/
def Block.withAgents {w : Width} (b old : Block w) : Block w :=
  { b with stream := old.stream, hostMem := old.hostMem, host := old.host }

/-- A new machine after a release starts from R165 with no areas (R169); the agents around it are as they were.
Construction of a machine that is still there is refused (R166, I17), and so is an illegal launch (R170, I19). -/
def Block.constructAgain {w : Width} (b : Block w) (size : Word w) (contents : Memory) :
    Host.Outcome (Block w) Fault Refusal :=
  if b.live then .refused .resetWithoutRelease
  else if (b.relaunch size contents).wf then
    .next ((Block.construct (b.relaunch size contents)).withAgents b)
  else .refused .illegalLaunch

/-- A request on the command port (R34). -/
def Block.present {w : Width} (b : Block w) (r : Request w) : Block w := { b with port := r }

/-- The host changes a byte of its own memory (R37). -/
def Block.hostWrites {w : Width} (b : Block w) (a : Nat) (x : Byte) : Block w :=
  { b with hostMem := b.hostMem.write a x }

/-- Release ends the machine: no command, no access (R168). -/
def Block.releaseAll {w : Width} (b : Block w) : Block w := { b with live := false }

/-- What one action of the host or the environment does at PHASE = IDLE. A `command` only puts its request on the port:
the step then runs what the command word decodes to (R34). -/
def Block.act {w : Width} (b : Block w) : HostAction w → Host.Outcome (Block w) Fault Refusal
  | .command r => .next (b.present r)
  | .readResponse f => b.whileLive (b.hostReads f)
  | .store a x => b.whileLive (b.environmentStores a.toNat x)
  | .load a => b.whileLive (b.environmentLoads a.toNat)
  | .hostStore a x => .next (b.hostWrites a x)
  | .setStream t => .next (b.withStream t)
  | .release => b.whileLive (.next b.releaseAll)
  | .construct size contents => b.constructAgain size contents

end Sys2Proof.Machine
end

