-- ==== Sys2Proof/Machine/Fetch.lean ====
section
/-! DEFINITION. What the block does next (R31, R167, R176): at IDLE the host's next action, at BUSY the next byte step or
the response step; and how a word of the opcode table is put where the next step reads it. -/

namespace Sys2Proof.Machine

open Sys2Proof

/-- What a step finds to do. -/
inductive Fetched where
  /-- An instruction to execute: the command just taken, or the wire byte just read. -/
  | run (i : Instr) (s : State)
  /-- Anything else a step does. -/
  | other (o : Host.Outcome State Fault Refusal)

/-- The host's next action has been taken from what it will do. -/
def Block.withHost {w : Width} (b : Block w) (rest : List (HostAction w)) : Block w := { b with host := rest }

/-- At IDLE: nothing without the host (R167), else its next action; a command is decoded from its command word. -/
def Block.fetchIdle {w : Width} (b : Block w) : Fetched :=
  match b.host with
  | [] => .other (.next ⟨w, b⟩)
  | .command r :: rest => .run (decodeCommand r.cmd) ⟨w, (b.withHost rest).present r⟩
  | a :: rest => .other (State.onBlock ⟨w, b.withHost rest⟩ fun c => c.act a)

/-- At BUSY with byte steps ahead: an encoder puts a byte; a decoder gets one and runs what it decodes to. A request the
stream has not answered holds the block as it is (R176, R180). -/
def Block.fetchTransfer {w : Width} (b : Block w) (op : CodecOp) : Fetched :=
  if op.decodes then
    match b.get op with
    | .got x c => .run (decodeWire x) ⟨w, c⟩
    | .failed st c => .other (.next ⟨w, c.finish op (.failed st)⟩)
    | .waiting => .other (.next ⟨w, b⟩)
  else .other (.next ⟨w, b.encodeStep op⟩)

/-- What the block does next. -/
def State.fetch (s : State) : Fetched :=
  match s.block.phase with
  | .idle => s.block.fetchIdle
  | .busy op .transfer => s.block.fetchTransfer op
  | .busy op (.respond res) => .other (.next ⟨s.width, s.block.respondCodec op res⟩)

/-- A command word on its way to the command port, before everything else the host will do. -/
def Block.withCommand {w : Width} (b : Block w) (cmd : Byte) : Block w :=
  { b with
    live := true
    phase := .idle
    host := .command { cmd := cmd, opa := 0, opb := 0, data := { start := 0, length := 0 } } :: b.host }

/-- A wire byte as the stream's next answer to a DEC.S that waits for it. -/
def Block.withWireByte {w : Width} (b : Block w) (x : Byte) : Block w :=
  { b with
    live := true
    phase := .busy .decS .transfer
    stream := { b.stream with attached := true, reads := .byte x :: b.stream.reads } }

/-- The block that reads the byte `x` next on the channel `ch`. -/
def Block.withByte {w : Width} (b : Block w) (ch : Channel) (x : Byte) : Block w :=
  match ch with
  | .command => b.withCommand x
  | .wire => b.withWireByte x

end Sys2Proof.Machine
end

