-- ==== Sys2Proof/Machine/Step.lean ====
section
/-! DEFINITION. One step of the machine (R176), and the state in which the next step reads a given word. -/

namespace Sys2Proof.Machine

open Sys2Proof

/-- One step: what `State.fetch` finds, executed. -/
def step (s : State) : Host.Outcome State Fault Refusal :=
  match s.fetch with
  | .run i t => exec i t
  | .other o => o

/-- `s` with the word `w` of the opcode table where the next step reads it: a command word at the head of what the host
does, with zero operands; a wire byte as the stream's next answer to a DEC.S in progress (assumption 10). -/
def State.withFetchWord (s : State) (nbits w : Nat) : State :=
  ⟨s.width, s.block.withByte (tableChannel nbits w) (tableByte nbits w)⟩

end Sys2Proof.Machine
end

