-- ==== Sys2Proof/Safety.lean ====
section
/-! DEFINITION. What counts as a good state and a good run: runs of several steps, the invariants of the region map (R28),
of storage, of the codec registers (R29, R30, R102, R146) and of the response (R32, R33), and the byte strings in storage
that statements about whole commands speak of. -/

namespace Sys2Proof.Machine

open Sys2Proof

/-! ### Runs -/

/-- `n` steps one after another. -/
def run : Nat → State → Host.Outcome State Fault Refusal
  | 0, s => .next s
  | n + 1, s =>
    match step s with
    | .next t => run n t
    | .fault r => .fault r
    | .refused r => .refused r

/-- The machine exists and takes a command: constructed, not released, PHASE = IDLE (R31, R168). -/
def Block.ready {w : Width} (b : Block w) : Prop := b.live = true ∧ b.phase = .idle

/-- The codec command `op` is at a request to an attached stream that has not answered (R176, R180). -/
def Block.awaits {w : Width} (b : Block w) (op : CodecOp) : Prop :=
  b.phase = .busy op .transfer ∧ b.stream.attached = true ∧
    ((op = .encS ∧ b.stream.writes = []) ∨ (op = .decS ∧ b.stream.reads = []))

/-! ### Byte strings in storage -/

/-- The bytes `xs` stand at the virtual addresses from `a` on. -/
def Block.holdsBytes {w : Width} (b : Block w) (a : Nat) (xs : List Byte) : Prop :=
  ∀ j (h : j < xs.length), b.byteAt (a + j) = some xs[j]

/-- Every one of the `n` virtual addresses from `a` on is backed by a byte. -/
def Block.mapped {w : Width} (b : Block w) (a n : Nat) : Prop :=
  ∀ j, j < n → ∃ region offset slot, b.resolve (a + j) 1 .byte = .found region offset slot

/-- No address of the block is backed at `a` (R49). -/
def Block.unmappedAt {w : Width} (b : Block w) (a : Nat) : Prop := b.resolve a 1 .byte = .invalid

/-- Store bytes at rising virtual addresses from `a` on, one after another. -/
def Block.storeBytes {w : Width} (b : Block w) (a : Nat) : List Byte → Option (Block w)
  | [] => some b
  | x :: xs =>
    match b.storeByte a x with
    | some c => Block.storeBytes c (a + 1) xs
    | none => none

/-- The `n` addresses from `a` on lie on different bytes of storage (two areas may share a host buffer, R37). -/
def Block.unshared {w : Width} (b : Block w) (a n : Nat) : Prop :=
  ∀ i j ri oi si rj oj sj, i < n → j < n → i ≠ j →
    b.resolve (a + i) 1 .byte = .found ri oi si → b.resolve (a + j) 1 .byte = .found rj oj sj → si ≠ sj

/-! ### Payloads of an encoding (R75) -/

/-- `X = P : C_(n−1) : ... : C_0` (R75), the chunks given first to last. -/
def concatenation (p : BitVec 6) : List (BitVec 7) → Nat
  | [] => p.toNat
  | c :: cs => c.toNat + 128 * concatenation p cs

/-! ### The region map (R28) -/

/-- The areas follow one another from `lo` on and end at or below `hi`. -/
def areasInOrder {w : Width} : Nat → List (Area w) → Nat → Prop
  | lo, [], hi => lo ≤ hi
  | lo, r :: rs, hi => lo ≤ r.base.toNat ∧ areasInOrder (r.base.toNat + r.size.toNat) rs hi

/-- What the allocator keeps (R24, R28, R131). -/
def Block.regionsWf {w : Width} (b : Block w) : Prop :=
  legalMemorySize b.memorySize = true ∧ areasInOrder b.memorySize.toNat b.areas b.nextFree.toNat ∧
    b.nextFree.toNat ≤ 2 ^ w.bits ∧ b.areas.length ≤ b.maxAreas

/-- The addresses of region `k`: 0 is the primary region, i + 1 is area i (R47, R48). -/
def Block.inRegion {w : Width} (b : Block w) (k a : Nat) : Prop :=
  match k with
  | 0 => a < b.memorySize.toNat
  | i + 1 => ∃ r, b.areas[i]? = some r ∧ r.base.toNat ≤ a ∧ a < r.base.toNat + r.size.toNat

/-! ### Storage -/

/-- Storage is in canonical form and PMEM lists only its own bytes (R25). -/
def Block.storageWf {w : Width} (b : Block w) : Prop :=
  b.pmem.wf ∧ (∀ c ∈ b.pmem, c.1 < b.memorySize.toNat) ∧ b.hostMem.wf

/-! ### The codec registers -/

/-- Which results a codec command can have (R146: who raises what). -/
def CodecResult.allowed {w : Width} (op : CodecOp) : CodecResult w → Prop
  | .encoded => op.decodes = false
  | .decoded _ => op.decodes = true
  | .failed .ioError => op.inMemory = false
  | .failed .tooWide => op.decodes = true
  | .failed .invalidAddress => op.inMemory = true
  | .failed _ => False

/-- What holds at BUSY: the decoder's offset counts its bytes and ACC lies below it (R101); the encoder's remaining width
and its count stay within W (R98); a result is one the command can have, and TOO_WIDE comes at MAX_LEN bytes (R102). -/
def Block.phaseWf {w : Width} (b : Block w) : Prop :=
  match b.phase with
  | .idle => True
  | .busy op .transfer =>
    if op.decodes then b.off = 7 * b.cnt ∧ b.acc.toNat < 2 ^ b.off else b.bits + 7 * b.cnt ≤ w.bits
  | .busy op (.respond res) => res.allowed op ∧ (res = .failed .tooWide → b.cnt = w.maxLen)

/-- The ranges of R29 and R30, and what holds at BUSY. -/
def Block.codecWf {w : Width} (b : Block w) : Prop :=
  b.off ≤ 7 * w.maxCont ∧ b.cnt ≤ w.maxLen ∧ b.bits ≤ w.bits ∧ b.cur.toNat ≤ 2 ^ w.bits ∧ b.phaseWf

/-! ### The response -/

/-- RSP_STATUS and LAST_STATUS agree, and before the first command no field is valid (R32, R33, R40). -/
def Block.responseWf {w : Width} (b : Block w) : Prop :=
  (∀ st, b.rsp.status = some st → b.lastStatus = st) ∧ (b.rsp.status = none → b.rsp = {} ∧ b.lastStatus = .ok)

/-- The invariant of the machine. -/
def State.Inv (s : State) : Prop :=
  s.block.regionsWf ∧ s.block.storageWf ∧ s.block.codecWf ∧ s.block.responseWf

end Sys2Proof.Machine
end

