-- ==== Sys2Proof/Certificates/Slice0/Obligations.lean ====
section
/-! DEFINITION. The statements for the provers, one `def Obligations.<Name> : Prop` each, taken from the numbered rules of
spec/. A machine is written `⟨w, b⟩`: word width `w` and block `b`. -/

open Sys2Proof Sys2Proof.Machine

/-! ### The encodings (30_encoding.md) -/

/-- Decoding the byte of a well-formed instruction, on the channel it arrives on, gives the instruction back and leaves
the bytes after it (R71, R72, R86, R88). -/
def Obligations.DecodeInvertsEncode : Prop :=
  ∀ (i : Instr) (rest : List Byte), i.wf = true → decode i.channel (encode i ++ rest) = .ok (i, rest)

/-- Every byte on either channel is the encoding of the one well-formed instruction it decodes to: no byte is left over
(R82, R84, R88). -/
def Obligations.EveryByteIsAnInstruction : Prop :=
  ∀ (ch : Channel) (x : Byte),
    ∃ i, decode ch [x] = .ok (i, []) ∧ i.channel = ch ∧ i.wf = true ∧ encode i = [x] ∧
      ∀ j, j.channel = ch → encode j = [x] → j.wf = true → j = i

/-- R84: the three classes of wire bytes. -/
def Obligations.WireByteClasses : Prop :=
  ∀ x : Byte,
    (x.toNat < 0x40 → ∃ p, decodeWire x = .finalNum p ∧ p.toNat = x.toNat) ∧
    (0x40 ≤ x.toNat → x.toNat < 0x80 → ∃ p, decodeWire x = .finalAct p ∧ p.toNat = x.toNat - 0x40) ∧
    (0x80 ≤ x.toNat → ∃ c, decodeWire x = .cont c ∧ c.toNat = x.toNat - 0x80)

/-- R86: the ten command words. -/
def Obligations.CommandMap : Prop :=
  decodeCommand 0x01 = .encSNum ∧ decodeCommand 0x11 = .encSAct ∧ decodeCommand 0x02 = .encMNum ∧
    decodeCommand 0x12 = .encMAct ∧ decodeCommand 0x03 = .decS ∧ decodeCommand 0x04 = .decM ∧
    decodeCommand 0x05 = .resolveB ∧ decodeCommand 0x25 = .resolveW ∧ decodeCommand 0x06 = .alloc ∧
    decodeCommand 0x07 = .align

/-- R88: which command words are reserved, and that one ends at once with BAD_COMMAND and changes nothing but LAST_STATUS
and the response registers. -/
def Obligations.ReservedCommandWords : Prop :=
  (∀ cmd : Byte, decodeCommand cmd = .reserved cmd ↔
    cmd.toNat % 16 = 0 ∨ 8 ≤ cmd.toNat % 16 ∨ cmd.getLsbD 7 = true ∨ cmd.getLsbD 6 = true ∨
      (cmd.getLsbD 4 = true ∧ cmd.toNat % 16 ≠ 1 ∧ cmd.toNat % 16 ≠ 2) ∨
      (cmd.getLsbD 5 = true ∧ cmd.toNat % 16 ≠ 5)) ∧
  ∀ (w : Width) (b : Block w) (cmd : Byte), b.ready →
    exec (.reserved cmd) ⟨w, b⟩ =
      .next ⟨w, { b with rsp := { status := some .badCommand }, lastStatus := .badCommand }⟩

/-- A few bytes written out from the spec's encodings (R86, R90, R116) decode to what they stand for. -/
def Obligations.WordsWrittenOut : Prop :=
  decode .command [0b00010010, 0x00] = .ok (.encMAct, [0x00]) ∧
    decode .command [0b00100101] = .ok (.resolveW, []) ∧
    decode .command [0b00000111] = .ok (.align, []) ∧
    decode .wire [0b11011111, 0x3F] = .ok (.cont 0b1011111, [0x3F]) ∧
    decode .wire [0b00111111] = .ok (.finalNum 0b111111, []) ∧
    decode .wire [0b01101000] = .ok (.finalAct 0b101000, [])

/-! ### The cores (30_encoding.md R70 to R83, 40_codec.md R96 to R104) -/

/-- R96: `sw` and `uw` are the least widths that hold the value, with the values the rule lists. -/
def Obligations.SignificantWidths : Prop :=
  (∀ v : Int, 1 ≤ signedWidth v ∧
    (-(2 ^ (signedWidth v - 1) : Int) ≤ v ∧ v ≤ 2 ^ (signedWidth v - 1) - 1) ∧
    ∀ k : Nat, 1 ≤ k → -(2 ^ (k - 1) : Int) ≤ v → v ≤ 2 ^ (k - 1) - 1 → signedWidth v ≤ k) ∧
  (∀ u : Nat, u ≤ 2 ^ unsignedWidth u - 1 ∧ ∀ k : Nat, u ≤ 2 ^ k - 1 → unsignedWidth u ≤ k) ∧
  (∀ (w : Width) (v : Word w), significantWidth .number v = signedWidth v.toInt ∧ signedWidth v.toInt ≤ w.bits ∧
    significantWidth .action v = unsignedWidth v.toNat ∧ (v.toInt < 0 → unsignedWidth v.toNat = w.bits)) ∧
  signedWidth 0 = 1 ∧ signedWidth (-1) = 1 ∧ signedWidth 31 = 6 ∧ signedWidth (-32) = 6 ∧ signedWidth 32 = 7 ∧
  signedWidth (-33) = 7 ∧ unsignedWidth 0 = 0 ∧ unsignedWidth 63 = 6 ∧ unsignedWidth 64 = 7

/-- R70: an encoding is n continuation bytes and one final byte, n at most MAX_CONT. -/
def Obligations.ShapeOfAnEncoding : Prop :=
  ∀ (w : Width) (k : Kind) (v : Word w),
    ∃ (cs : List (BitVec 7)) (p : BitVec 6), encodeCore k v = cs.map contByte ++ [finalByte k p] ∧
      cs.length ≤ w.maxCont ∧ 1 ≤ (encodeCore k v).length ∧ (encodeCore k v).length ≤ w.maxLen

/-- R75, R76: the value of n continuation bytes and a final byte, for every chunk and payload. With X the concatenation of
the payloads, a NUMBER of 7n + 6 < W bits is X sign-extended from that width, and every other value is X wrapped to W. -/
def Obligations.ValueOfAnEncoding : Prop :=
  ∀ (w : Width) (cs : List (BitVec 7)) (p : BitVec 6) (k : Kind) (rest : List Byte), cs.length ≤ w.maxCont →
    ∃ v : Word w, decodeCore (cs.map contByte ++ finalByte k p :: rest) = .value k v (cs.length + 1) rest ∧
      (k = .number → 7 * cs.length + 6 < w.bits →
        v.toInt = Int.bmod (concatenation p cs) (2 ^ (7 * cs.length + 6))) ∧
      (k = .number → w.bits ≤ 7 * cs.length + 6 → v.toInt = Int.bmod (concatenation p cs) (2 ^ w.bits)) ∧
      (k = .action → v.toInt = Int.bmod (concatenation p cs) (2 ^ w.bits))

/-- R104: decoding what EncodeCore puts gives the kind, the word and the length back, whatever bytes follow; and decode is
not injective. -/
def Obligations.EncodeThenDecodeRoundTrip : Prop :=
  (∀ (w : Width) (k : Kind) (v : Word w) (rest : List Byte),
    decodeCore (encodeCore k v ++ rest) = .value k v (encodeCore k v).length rest) ∧
  ∀ (w : Width) (k : Kind), ∃ (v : Word w) (xs : List Byte), xs ≠ encodeCore k v ∧
    decodeCore xs = .value k v xs.length []

/-- R78: the encoding EncodeCore emits is the shortest of its kind and value, and its length is the one of the ranges. -/
def Obligations.EncodingIsShortest : Prop :=
  ∀ (w : Width) (k : Kind) (v : Word w) (n : Nat), (encodeCore k v).length = n + 1 →
    (∀ (xs : List Byte) (cnt : Nat), decodeCore xs = .value k v cnt [] → n + 1 ≤ xs.length) ∧
    n ≤ w.maxCont ∧
    (k = .number → (n < w.maxCont → -(2 ^ (7 * n + 5) : Int) ≤ v.toInt ∧ v.toInt ≤ 2 ^ (7 * n + 5) - 1) ∧
      ∀ m < n, ¬ (-(2 ^ (7 * m + 5) : Int) ≤ v.toInt ∧ v.toInt ≤ 2 ^ (7 * m + 5) - 1)) ∧
    (k = .action → (n < w.maxCont → v.toNat ≤ 2 ^ (7 * n + 6) - 1) ∧ ∀ m < n, ¬ v.toNat ≤ 2 ^ (7 * m + 6) - 1)

/-- R82: up to MAX_CONT continuation bytes and a final byte are a legal instruction whatever their payloads; the one
illegal string has a continuation byte at offset 7 × MAX_CONT; a string that ends earlier is unterminated. -/
def Obligations.OnlyTooWideIsIllegal : Prop :=
  ∀ (w : Width) (conts rest : List Byte), (∀ x ∈ conts, x.getLsbD 7 = true) →
    (∀ x : Byte, conts.length ≤ w.maxCont → x.getLsbD 7 = false →
      ∃ (k : Kind) (v : Word w), decodeCore (conts ++ x :: rest) = .value k v (conts.length + 1) rest) ∧
    (conts.length = w.maxLen → decodeCore (w := w) (conts ++ rest) = .tooWide w.maxLen rest) ∧
    (conts.length ≤ w.maxCont → decodeCore (w := w) conts = .unterminated conts.length)

/-- R83: the kind is bit 6 of the last byte, for the encoder and for the decoder. -/
def Obligations.KindIsBitSixOfTheFinalByte : Prop :=
  (∀ (w : Width) (k : Kind) (v : Word w), ∃ x, (encodeCore k v).getLast? = some x ∧ x.getLsbD 7 = false ∧
    (x.getLsbD 6 = true ↔ k = .action)) ∧
  (∀ (w : Width) (xs rest : List Byte) (k : Kind) (v : Word w) (n : Nat), decodeCore xs = .value k v n rest →
    ∃ x, xs[n - 1]? = some x ∧ x.getLsbD 7 = false ∧ (x.getLsbD 6 = true ↔ k = .action)) ∧
  ∀ (w : Width) (u v : Word w), encodeCore .number u ≠ encodeCore .action v

/-- R103: every bit of a short NUMBER from bit 7k − 2 up is a copy of it, every bit of a short ACTION from bit 7k − 1 up
is 0. -/
def Obligations.SignExtensionOfShortEncodings : Prop :=
  ∀ (w : Width) (xs rest : List Byte) (kind : Kind) (v : Word w) (k : Nat),
    decodeCore xs = .value kind v k rest → k < w.maxLen →
    ∀ i, i < w.bits →
      (kind = .number → 7 * k - 2 ≤ i → v.getLsbD i = v.getLsbD (7 * k - 2)) ∧
      (kind = .action → 7 * k - 1 ≤ i → v.getLsbD i = false)

/-! ### Wire bytes in the machine (R101, R102) -/

/-- CONT in a running decode (R77, R101, R102): below the chunk limit the chunk joins ACC at OFF; at the limit the decode
ends with TOO_WIDE. Nothing else changes. -/
def Obligations.ContinuationByte : Prop :=
  ∀ (w : Width) (b : Block w) (op : CodecOp) (c : BitVec 7), b.phase = .busy op .transfer → op.decodes = true →
    b.acc.toNat < 2 ^ b.off →
    (w.bits - 7 ≤ b.off → exec (.cont c) ⟨w, b⟩ =
      .next ⟨w, { b with cnt := b.cnt + 1, phase := .busy op (.respond (.failed .tooWide)) }⟩) ∧
    (b.off < w.bits - 7 → ∃ acc : Word w, acc.toNat = b.acc.toNat + c.toNat * 2 ^ b.off ∧
      exec (.cont c) ⟨w, b⟩ = .next ⟨w, { b with cnt := b.cnt + 1, acc := acc, off := b.off + 7 }⟩)

/-- FINAL.NUM and FINAL.ACT in a running decode (R75, R76, R101): the payload joins ACC at OFF, the kind is recorded, and
the value is sign-extended for a NUMBER of fewer than W bits only. Nothing else changes. -/
def Obligations.FinalBytes : Prop :=
  ∀ (w : Width) (b : Block w) (op : CodecOp) (p : BitVec 6), b.phase = .busy op .transfer → op.decodes = true →
    b.acc.toNat < 2 ^ b.off →
    ∃ acc number action : Word w,
      acc.toNat = (b.acc.toNat + p.toNat * 2 ^ b.off) % 2 ^ w.bits ∧
      (b.off + 6 < w.bits → number.toInt = Int.bmod (b.acc.toNat + p.toNat * 2 ^ b.off) (2 ^ (b.off + 6))) ∧
      (w.bits ≤ b.off + 6 → number.toInt = Int.bmod (b.acc.toNat + p.toNat * 2 ^ b.off) (2 ^ w.bits)) ∧
      action.toInt = Int.bmod (b.acc.toNat + p.toNat * 2 ^ b.off) (2 ^ w.bits) ∧
      exec (.finalNum p) ⟨w, b⟩ = .next ⟨w, { b with
        cnt := b.cnt + 1, kind := .number, acc := acc, phase := .busy op (.respond (.decoded number)) }⟩ ∧
      exec (.finalAct p) ⟨w, b⟩ = .next ⟨w, { b with
        cnt := b.cnt + 1, kind := .action, acc := acc, phase := .busy op (.respond (.decoded action)) }⟩

/-- A wire byte means nothing where no decode waits for one: the spec gives it no effect there (R84, R101), and the stop is
the model's choice (assumption 20). -/
def Obligations.WireByteNeedsADecode : Prop :=
  ∀ (w : Width) (b : Block w) (i : Instr), i.channel = .wire →
    (∀ op, b.phase = .busy op .transfer → op.decodes = false) → exec i ⟨w, b⟩ = .refused .noDecodeRunning

/-! ### Taking the codec commands (R31, R98, R101, R108, R114) -/

/-- ENC.S and ENC.M are taken: EncodeCore's registers are loaded, for ENC.M the cursor too, and PHASE is BUSY. That this is
a step of its own is the model's reading of R31 and R176 (assumption 6). -/
def Obligations.EncodersAreTaken : Prop :=
  ∀ (w : Width) (b : Block w), b.ready →
    exec .encSNum ⟨w, b⟩ = .next ⟨w, { b with
      kind := .number, rem := b.port.opb, bits := signedWidth b.port.opb.toInt, cnt := 0,
      phase := .busy .encS .transfer }⟩ ∧
    exec .encSAct ⟨w, b⟩ = .next ⟨w, { b with
      kind := .action, rem := b.port.opb, bits := unsignedWidth b.port.opb.toNat, cnt := 0,
      phase := .busy .encS .transfer }⟩ ∧
    exec .encMNum ⟨w, b⟩ = .next ⟨w, { b with
      cur := BitVec.ofNat (w.bits + 1) b.port.opa.toNat, kind := .number, rem := b.port.opb,
      bits := signedWidth b.port.opb.toInt, cnt := 0, phase := .busy .encM .transfer }⟩ ∧
    exec .encMAct ⟨w, b⟩ = .next ⟨w, { b with
      cur := BitVec.ofNat (w.bits + 1) b.port.opa.toNat, kind := .action, rem := b.port.opb,
      bits := unsignedWidth b.port.opb.toNat, cnt := 0, phase := .busy .encM .transfer }⟩

/-- DEC.S and DEC.M are taken: DecodeCore starts from ACC = OFF = CNT = 0 every time (R117), and PHASE is BUSY, in a step
of its own (assumption 6). -/
def Obligations.DecodersAreTaken : Prop :=
  ∀ (w : Width) (b : Block w), b.ready →
    exec .decS ⟨w, b⟩ = .next ⟨w, { b with acc := 0, off := 0, cnt := 0, phase := .busy .decS .transfer }⟩ ∧
    exec .decM ⟨w, b⟩ = .next ⟨w, { b with
      cur := BitVec.ofNat (w.bits + 1) b.port.opa.toNat, acc := 0, off := 0, cnt := 0,
      phase := .busy .decM .transfer }⟩

/-- A command presented at BUSY is not taken (R34, 93_implementation_defined.md I14). -/
def Obligations.NoCommandIsTakenAtBusy : Prop :=
  ∀ (w : Width) (b : Block w) (i : Instr), i.channel = .command → b.live = true → b.phase ≠ .idle →
    exec i ⟨w, b⟩ = .refused .commandWhileBusy

/-! ### Whole codec commands (R105, R108, R111, R114) -/

/-- R108: ENC.M, from the command to the response. With every byte's address in a region, the bytes of EncodeCore(K, OPB)
are stored at OPA and upwards, and the response is OK with RSP_COUNT = n and RSP_CUR = A + n. Where byte k's address is in
none, the k bytes before it stay written and the response is INVALID_ADDRESS. No other storage and no other register
changes, the codec's hidden registers apart. -/
def Obligations.EncMFromCommandToResponse : Prop :=
  decodeCommand 0x02 = .encMNum ∧ decodeCommand 0x12 = .encMAct ∧
  ∀ (w : Width) (b : Block w) (i : Instr) (k : Kind) (bytes : List Byte) (a n : Nat),
    (i = .encMNum ∧ k = .number) ∨ (i = .encMAct ∧ k = .action) → b.ready →
    bytes = encodeCore k b.port.opb → a = b.port.opa.toNat → n = bytes.length →
    ∃ s, exec i ⟨w, b⟩ = .next s ∧
      (∀ c, b.storeBytes a bytes = some c →
        ∃ m t, m ≤ w.maxLen + 1 ∧ run m s = .next ⟨w, t⟩ ∧
          t = { c with
            kind := k, rem := t.rem, bits := t.bits, cnt := n, cur := BitVec.ofNat (w.bits + 1) (a + n),
            lastStatus := .ok
            rsp := {
              status := some .ok, count := some (BitVec.ofNat 4 n),
              cur := some (BitVec.ofNat (w.bits + 1) (a + n)) } }) ∧
      (∀ j c, j < n → b.storeBytes a (bytes.take j) = some c → b.unmappedAt (a + j) →
        ∃ m t, m ≤ w.maxLen + 1 ∧ run m s = .next ⟨w, t⟩ ∧
          t = { c with
            kind := k, rem := t.rem, bits := t.bits, cnt := j, cur := BitVec.ofNat (w.bits + 1) (a + j),
            lastStatus := .invalidAddress
            rsp := {
              status := some .invalidAddress, count := some (BitVec.ofNat 4 j),
              cur := some (BitVec.ofNat (w.bits + 1) (a + j)),
              faultAddr := some (BitVec.ofNat (w.bits + 1) (a + j)) } })

/-- R105: ENC.S, from the command to the response. With the stream answering OK to every byte, the bytes of
EncodeCore(K, OPB) are written and the response is OK with RSP_COUNT = n; where it answers ERR to byte k, or no stream is
attached (R173), the bytes before stay written and the response is IO_ERROR with RSP_COUNT = k. Memory does not change.
The stream's answers are data of the stream agent (assumption 14). -/
def Obligations.EncSFromCommandToResponse : Prop :=
  decodeCommand 0x01 = .encSNum ∧ decodeCommand 0x11 = .encSAct ∧
  ∀ (w : Width) (b : Block w) (i : Instr) (k : Kind) (bytes : List Byte) (n : Nat),
    (i = .encSNum ∧ k = .number) ∨ (i = .encSAct ∧ k = .action) → b.ready →
    bytes = encodeCore k b.port.opb → n = bytes.length →
    ∃ s, exec i ⟨w, b⟩ = .next s ∧
      (∀ rest, b.stream.attached = true → b.stream.writes = List.replicate n .ok ++ rest →
        ∃ m t, m ≤ w.maxLen + 1 ∧ run m s = .next ⟨w, t⟩ ∧
          t = { b with
            kind := k, rem := t.rem, bits := t.bits, cnt := n, lastStatus := .ok
            stream := { b.stream with writes := rest, written := b.stream.written ++ bytes }
            rsp := { status := some .ok, count := some (BitVec.ofNat 4 n) } }) ∧
      (∀ j rest, j < n → b.stream.attached = true → b.stream.writes = List.replicate j .ok ++ .err :: rest →
        ∃ m t, m ≤ w.maxLen + 1 ∧ run m s = .next ⟨w, t⟩ ∧
          t = { b with
            kind := k, rem := t.rem, bits := t.bits, cnt := j, lastStatus := .ioError
            stream := { b.stream with writes := rest, written := b.stream.written ++ bytes.take j }
            rsp := { status := some .ioError, count := some (BitVec.ofNat 4 j) } }) ∧
      (b.stream.attached = false →
        ∃ m t, m ≤ w.maxLen + 1 ∧ run m s = .next ⟨w, t⟩ ∧
          t = { b with
            kind := k, rem := t.rem, bits := t.bits, cnt := 0, lastStatus := .ioError
            rsp := { status := some .ioError, count := some 0 } })

/-- R111: DEC.S, from the command to the response. The bytes the stream gives are consumed and decoded as DecodeCore
decodes them: OK with kind, value and count; TOO_WIDE with RSP_COUNT = MAX_LEN; IO_ERROR with the count of the bytes read
where the stream answers EOF or ERR first, or no stream is attached (R173). Memory does not change. -/
def Obligations.DecSFromCommandToResponse : Prop :=
  decodeCommand 0x03 = .decS ∧
  ∀ (w : Width) (b : Block w), b.ready →
    ∃ s, exec .decS ⟨w, b⟩ = .next s ∧
      (∀ (xs : List Byte) rest k v n, b.stream.attached = true → b.stream.reads = xs.map .byte ++ rest →
        decodeCore xs = .value k v n [] →
        ∃ m t, m ≤ w.maxLen + 1 ∧ run m s = .next ⟨w, t⟩ ∧
          t = { b with
            acc := t.acc, off := t.off, cnt := n, kind := k, lastStatus := .ok
            stream := { b.stream with reads := rest }
            rsp := {
              status := some .ok, kind := some k, value := some v, count := some (BitVec.ofNat 4 n) } }) ∧
      (∀ (xs : List Byte) rest n, b.stream.attached = true → b.stream.reads = xs.map .byte ++ rest →
        decodeCore (w := w) xs = .tooWide n [] →
        ∃ m t, m ≤ w.maxLen + 1 ∧ run m s = .next ⟨w, t⟩ ∧
          t = { b with
            acc := t.acc, off := t.off, cnt := w.maxLen, lastStatus := .tooWide
            stream := { b.stream with reads := rest }
            rsp := { status := some .tooWide, count := some (BitVec.ofNat 4 w.maxLen) } }) ∧
      (∀ (xs : List Byte) y rest n, b.stream.attached = true → (y = .eof ∨ y = .err) →
        b.stream.reads = xs.map .byte ++ y :: rest → decodeCore (w := w) xs = .unterminated n →
        ∃ m t, m ≤ w.maxLen + 1 ∧ run m s = .next ⟨w, t⟩ ∧
          t = { b with
            acc := t.acc, off := t.off, cnt := n, lastStatus := .ioError
            stream := { b.stream with reads := rest }
            rsp := { status := some .ioError, count := some (BitVec.ofNat 4 n) } }) ∧
      (b.stream.attached = false →
        ∃ m t, m ≤ w.maxLen + 1 ∧ run m s = .next ⟨w, t⟩ ∧
          t = { b with
            acc := 0, off := 0, cnt := 0, lastStatus := .ioError
            rsp := { status := some .ioError, count := some 0 } })

/-- R114: DEC.M, from the command to the response. The bytes that stand at OPA and upwards are decoded as DecodeCore
decodes them: OK with kind, value, count and RSP_CUR = A + n; TOO_WIDE with the address of the byte that was too wide;
INVALID_ADDRESS at the first address in no region. DEC.M changes no storage. -/
def Obligations.DecMFromCommandToResponse : Prop :=
  decodeCommand 0x04 = .decM ∧
  ∀ (w : Width) (b : Block w) (a : Nat), b.ready → a = b.port.opa.toNat →
    ∃ s, exec .decM ⟨w, b⟩ = .next s ∧
      (∀ (xs : List Byte) k v n, b.holdsBytes a xs → decodeCore xs = .value k v n [] →
        ∃ m t, m ≤ w.maxLen + 1 ∧ run m s = .next ⟨w, t⟩ ∧
          t = { b with
            acc := t.acc, off := t.off, cnt := n, kind := k, cur := BitVec.ofNat (w.bits + 1) (a + n)
            lastStatus := .ok
            rsp := {
              status := some .ok, kind := some k, value := some v, count := some (BitVec.ofNat 4 n),
              cur := some (BitVec.ofNat (w.bits + 1) (a + n)) } }) ∧
      (∀ (xs : List Byte) n, b.holdsBytes a xs → decodeCore (w := w) xs = .tooWide n [] →
        ∃ m t, m ≤ w.maxLen + 1 ∧ run m s = .next ⟨w, t⟩ ∧
          t = { b with
            acc := t.acc, off := t.off, cnt := w.maxLen, cur := BitVec.ofNat (w.bits + 1) (a + w.maxLen)
            lastStatus := .tooWide
            rsp := {
              status := some .tooWide, count := some (BitVec.ofNat 4 w.maxLen),
              cur := some (BitVec.ofNat (w.bits + 1) (a + w.maxLen)),
              faultAddr := some (BitVec.ofNat (w.bits + 1) (a + w.maxCont)) } }) ∧
      (∀ (xs : List Byte) n, b.holdsBytes a xs → decodeCore (w := w) xs = .unterminated n → b.unmappedAt (a + n) →
        ∃ m t, m ≤ w.maxLen + 1 ∧ run m s = .next ⟨w, t⟩ ∧
          t = { b with
            acc := t.acc, off := t.off, cnt := n, cur := BitVec.ofNat (w.bits + 1) (a + n)
            lastStatus := .invalidAddress
            rsp := {
              status := some .invalidAddress, count := some (BitVec.ofNat 4 n),
              cur := some (BitVec.ofNat (w.bits + 1) (a + n)),
              faultAddr := some (BitVec.ofNat (w.bits + 1) (a + n)) } })

/-- The same bytes decode the same way at every address (R115): two machines that agree on nothing but the bytes from their
own start addresses on, as many as DecodeCore consumes to a value or to TOO_WIDE, answer the same status, kind, value and
count, after the same number of steps. Nothing is asked of the addresses after these bytes. -/
def Obligations.DecodingDoesNotDependOnTheAddress : Prop :=
  ∀ (w : Width) (b c : Block w) (xs : List Byte), b.ready → c.ready →
    ((∃ k v n, decodeCore (w := w) xs = .value k v n []) ∨ ∃ n, decodeCore (w := w) xs = .tooWide n []) →
    b.holdsBytes b.port.opa.toNat xs → c.holdsBytes c.port.opa.toNat xs →
    ∃ s s' n t t', exec .decM ⟨w, b⟩ = .next s ∧ exec .decM ⟨w, c⟩ = .next s' ∧
      run n s = .next ⟨w, t⟩ ∧ run n s' = .next ⟨w, t'⟩ ∧ t.phase = .idle ∧ t'.phase = .idle ∧
      t.lastStatus = t'.lastStatus ∧ t.rsp.status = t'.rsp.status ∧ t.rsp.kind = t'.rsp.kind ∧
      t.rsp.value = t'.rsp.value ∧ t.rsp.count = t'.rsp.count

/-- What ENC.M writes, a DEC.M issued next reads back with no fence between them (R68, R104, R179): kind, word and
length, wherever the encoding lies, a seam between two regions included. The count of steps has the step that takes each
command as one (the model's reading, assumption 6). -/
def Obligations.EncodedIntoMemoryDecodesBack : Prop :=
  ∀ (w : Width) (b : Block w) (k : Kind) (q r : Request w) (rest : List (HostAction w)) (n : Nat),
    b.ready → b.pmem.wf → b.hostMem.wf → b.host = .command q :: .command r :: rest →
    q.cmd = (if k = .number then 0x02 else 0x12) → r.cmd = 0x04 → r.opa = q.opa →
    n = (encodeCore k q.opb).length → b.mapped q.opa.toNat n → b.unshared q.opa.toNat n →
    ∃ t, run ((n + 2) + (n + 2)) ⟨w, b⟩ = .next ⟨w, t⟩ ∧ t.phase = .idle ∧ t.host = rest ∧
      t.rsp = {
        status := some .ok, kind := some k, value := some q.opb, count := some (BitVec.ofNat 4 n),
        cur := some (BitVec.ofNat (w.bits + 1) (q.opa.toNat + n)) }

/-- One byte step of ENC.M (R57, R98, R108): the byte goes to the storage behind `CUR` and nowhere else, `CUR` and `CNT`
advance, and every register outside the codec keeps its value. -/
def Obligations.EncMByteStepStoresOneByte : Prop :=
  ∀ (w : Width) (b : Block w) (region offset : Nat) (p : Slot), b.phase = .busy .encM .transfer →
    b.pmem.wf → b.hostMem.wf → b.resolve b.cur.toNat 1 .byte = .found region offset p →
    ∃ c, step ⟨w, b⟩ = .next ⟨w, c⟩ ∧
      c.readSlot p = (if 6 < b.bits then contByte (b.rem.extractLsb' 0 7) else finalByte b.kind (b.rem.extractLsb' 0 6)) ∧
      (∀ q, q ≠ p → c.readSlot q = b.readSlot q) ∧
      c = { b with
        pmem := c.pmem, hostMem := c.hostMem, cur := b.cur + 1, cnt := b.cnt + 1
        rem := if 6 < b.bits then b.rem.sshiftRight 7 else b.rem
        bits := if 6 < b.bits then b.bits - 7 else b.bits
        phase := if 6 < b.bits then .busy .encM .transfer else .busy .encM (.respond .encoded) }

/-- R181: after at most MAX_LEN byte steps and one response step, a codec command is back at IDLE, or it is one on the stream
that stands at a request the stream has not answered. In memory, with no stream attached, and with an answer ready for each
byte still to come in the one direction the command uses, it is back at IDLE. RESOLVE, ALLOC, ALIGN and a reserved word end
in one step; of ALLOC alone the host's duty is asked, a buffer of L bytes (R178). -/
def Obligations.CommandsEndInBoundedWork : Prop :=
  (∀ (w : Width) (b : Block w) (op : CodecOp) (stage : Stage w), b.phase = .busy op stage → b.codecWf →
    (∃ n t, n ≤ w.maxLen + 1 ∧ run n ⟨w, b⟩ = .next ⟨w, t⟩ ∧ (t.phase = .idle ∨ t.awaits op)) ∧
    (op.inMemory = true ∨ b.stream.attached = false ∨
        (op = .encS ∧ w.maxLen ≤ b.cnt + b.stream.writes.length) ∨
        (op = .decS ∧ w.maxLen ≤ b.cnt + b.stream.reads.length) →
      ∃ n t, n ≤ w.maxLen + 1 ∧ run n ⟨w, b⟩ = .next ⟨w, t⟩ ∧ t.phase = .idle)) ∧
  ∀ (w : Width) (b : Block w) (i : Instr), b.ready → (i = .alloc → b.port.opb.toNat ≤ b.port.data.length) →
    (i = .resolveB ∨ i = .resolveW ∨ i = .alloc ∨ i = .align ∨ ∃ cmd, i = .reserved cmd) →
    ∃ t, exec i ⟨w, b⟩ = .next ⟨w, t⟩ ∧ t.phase = .idle

/-- A codec command on the stream holds at BUSY, with nothing changed, while the stream has not answered (R176, R180),
however often the block is stepped. That a list with no answer left is a stream that has not answered is the model's form
(assumption 14). -/
def Obligations.TheBlockWaitsForTheStream : Prop :=
  ∀ (w : Width) (b : Block w) (op : CodecOp) (n : Nat), b.awaits op → run n ⟨w, b⟩ = .next ⟨w, b⟩

/-! ### The validator (R53, R123, R124, R127) -/

/-- R127: RESOLVE.B and RESOLVE.W. The primary region is tried first, then the areas by index, without wrap; the range in
no region is INVALID_ADDRESS; a misaligned WORD range in a region is UNALIGNED_ADDRESS. Nothing changes but the response
registers and LAST_STATUS. -/
def Obligations.ResolveAnswersWhereTheRangeLies : Prop :=
  decodeCommand 0x05 = .resolveB ∧ decodeCommand 0x25 = .resolveW ∧
  ∀ (w : Width) (b : Block w) (i : Instr) (aligned : Prop) (a l : Nat), b.ready →
    (i = .resolveB ∧ aligned = True) ∨ (i = .resolveW ∧ aligned = (a % w.bytes = 0)) →
    a = b.port.opa.toNat → l = b.port.opb.toNat →
    (a + l ≤ b.memorySize.toNat → aligned →
      exec i ⟨w, b⟩ = .next ⟨w, { b with
        lastStatus := .ok, rsp := { status := some .ok, region := some 0, offset := some (BitVec.ofNat w.bits a) } }⟩) ∧
    (∀ (j : Nat) (r : Area w), b.memorySize.toNat < a + l → b.areas[j]? = some r → r.base.toNat ≤ a →
      a + l ≤ r.base.toNat + r.size.toNat →
      (∀ m q, m < j → b.areas[m]? = some q → ¬ (q.base.toNat ≤ a ∧ a + l ≤ q.base.toNat + q.size.toNat)) →
      aligned →
      exec i ⟨w, b⟩ = .next ⟨w, { b with
        lastStatus := .ok
        rsp := {
          status := some .ok, region := some (j + 1), offset := some (BitVec.ofNat w.bits (a - r.base.toNat)) } }⟩) ∧
    (b.memorySize.toNat < a + l →
      (∀ r ∈ b.areas, ¬ (r.base.toNat ≤ a ∧ a + l ≤ r.base.toNat + r.size.toNat)) →
      exec i ⟨w, b⟩ = .next ⟨w, { b with
        lastStatus := .invalidAddress
        rsp := { status := some .invalidAddress, faultAddr := some (BitVec.ofNat (w.bits + 1) a) } }⟩) ∧
    ((a + l ≤ b.memorySize.toNat ∨ ∃ r ∈ b.areas, r.base.toNat ≤ a ∧ a + l ≤ r.base.toNat + r.size.toNat) → ¬ aligned →
      exec i ⟨w, b⟩ = .next ⟨w, { b with
        lastStatus := .unalignedAddress
        rsp := { status := some .unalignedAddress, faultAddr := some (BitVec.ofNat (w.bits + 1) a) } }⟩)

/-- R123: a range of at least one byte resolves exactly when it lies wholly in one region, and a range that touches two
regions always fails. -/
def Obligations.StraddlingRangesFail : Prop :=
  ∀ (w : Width) (b : Block w) (a l : Nat), b.ready → b.regionsWf → a = b.port.opa.toNat → l = b.port.opb.toNat → 1 ≤ l →
    ∃ t, exec .resolveB ⟨w, b⟩ = .next ⟨w, t⟩ ∧
      (t.lastStatus = .ok ↔ ∃ k, ∀ x, a ≤ x → x < a + l → b.inRegion k x) ∧
      ∀ k k' x y, k ≠ k' → a ≤ x → x < a + l → a ≤ y → y < a + l → b.inRegion k x → b.inRegion k' y →
        t.lastStatus = .invalidAddress

/-- R124: a WORD access to an address that is not a multiple of WORD_BYTES fails in every region, by the virtual
address and not by the offset in the area. -/
def Obligations.WordAccessNeedsAnAlignedAddress : Prop :=
  ∀ (w : Width) (b : Block w), b.ready → b.port.opa.toNat % w.bytes ≠ 0 →
    ∃ t, exec .resolveW ⟨w, b⟩ = .next ⟨w, t⟩ ∧ t.rsp.status = some t.lastStatus ∧
      (t.lastStatus = .invalidAddress ∨ t.lastStatus = .unalignedAddress) ∧
      t.rsp.faultAddr = some (BitVec.ofNat (w.bits + 1) b.port.opa.toNat) ∧ t.rsp.region = none ∧ t.rsp.offset = none

/-- R56 and R57: the byte at a resolved address is PMEM[off] or DATA_(region−1)[off]; a write to it sets that byte of
storage, changes no other, and touches nothing but storage. -/
def Obligations.ReadsAndWritesOfResolvedBytes : Prop :=
  ∀ (w : Width) (b : Block w) (a region offset : Nat) (p : Slot), b.live = true → b.pmem.wf → b.hostMem.wf →
    b.resolve a 1 .byte = .found region offset p →
    (region = 0 → b.byteAt a = some (b.pmem.read offset)) ∧
    (∀ i r, region = i + 1 → b.areas[i]? = some r → b.byteAt a = some (b.hostMem.read (r.data + offset))) ∧
    ∀ x, ∃ c, b.storeByte a x = some c ∧ c.byteAt a = some x ∧ (∀ q, q ≠ p → c.readSlot q = b.readSlot q) ∧
      c = { b with pmem := c.pmem, hostMem := c.hostMem }

/-! ### The allocator (R28, R131 to R138) -/

/-- R134, with R131 and R132: the two failures in their order, each changing nothing but the response and LAST_STATUS, and
otherwise the new entry at NEXT_FREE, whose bytes are the host's buffer itself. The host's duty of R178, a buffer of L bytes,
is the premise; AllocWithAShortBufferIsRefused says what happens without it. -/
def Obligations.AllocAppendsAnArea : Prop :=
  decodeCommand 0x06 = .alloc ∧
  ∀ (w : Width) (b : Block w) (l : Nat), b.ready → b.nextFree.toNat ≤ 2 ^ w.bits → l = b.port.opb.toNat →
    l ≤ b.port.data.length →
    (b.areas.length = b.maxAreas →
      exec .alloc ⟨w, b⟩ = .next ⟨w, { b with
        lastStatus := .areaTableFull, rsp := { status := some .areaTableFull } }⟩) ∧
    (b.areas.length ≠ b.maxAreas → b.nextFree.toNat = 2 ^ w.bits ∨ 2 ^ w.bits < b.nextFree.toNat + l →
      exec .alloc ⟨w, b⟩ = .next ⟨w, { b with
        lastStatus := .addressSpaceExhausted, rsp := { status := some .addressSpaceExhausted } }⟩) ∧
    (b.areas.length ≠ b.maxAreas → b.nextFree.toNat ≠ 2 ^ w.bits → b.nextFree.toNat + l ≤ 2 ^ w.bits →
      ∃ (r : Area w) (next : Addr w), r.base.toNat = b.nextFree.toNat ∧ r.size.toNat = l ∧
        r.data = b.port.data.start ∧ next.toNat = b.nextFree.toNat + l ∧
        exec .alloc ⟨w, b⟩ = .next ⟨w, { b with
          areas := b.areas ++ [r], nextFree := next, lastStatus := .ok
          rsp := { status := some .ok, base := some r.base, region := some (b.areas.length + 1) } }⟩)

/-- A buffer shorter than L is a broken duty of the host, for which there is no move (R178, 93_implementation_defined.md
I16), whatever the table and NEXT_FREE are. -/
def Obligations.AllocWithAShortBufferIsRefused : Prop :=
  ∀ (w : Width) (b : Block w), b.ready → b.port.data.length < b.port.opb.toNat →
    exec .alloc ⟨w, b⟩ = .refused .shortBuffer

/-- R137: ALIGN makes NEXT_FREE the least multiple of WORD_BYTES at or above it, at most 2^W, and always answers OK. -/
def Obligations.AlignRoundsUpToAWord : Prop :=
  decodeCommand 0x07 = .align ∧
  ∀ (w : Width) (b : Block w), b.ready → b.nextFree.toNat ≤ 2 ^ w.bits →
    ∃ next : Addr w, next.toNat % w.bytes = 0 ∧ b.nextFree.toNat ≤ next.toNat ∧
      (∀ m, m % w.bytes = 0 → b.nextFree.toNat ≤ m → next.toNat ≤ m) ∧ next.toNat ≤ 2 ^ w.bits ∧
      exec .align ⟨w, b⟩ = .next ⟨w, { b with nextFree := next, lastStatus := .ok, rsp := { status := some .ok } }⟩

/-- R138: a second ALIGN changes nothing at all, and the padding belongs to no region. -/
def Obligations.SecondAlignChangesNothing : Prop :=
  ∀ (w : Width) (b : Block w), b.ready → b.regionsWf →
    ∃ c, exec .align ⟨w, b⟩ = .next ⟨w, c⟩ ∧ c.lastStatus = .ok ∧ exec .align ⟨w, c⟩ = .next ⟨w, c⟩ ∧
      (b.nextFree.toNat % w.bytes = 0 → c.nextFree = b.nextFree) ∧
      ∀ a, b.nextFree.toNat ≤ a → a < c.nextFree.toNat → c.unmappedAt a

/-- R28: what the allocator keeps is kept by every step, and with it the bounds of the areas and their disjointness. -/
def Obligations.RegionMapIsKept : Prop :=
  ∀ (w w' : Width) (b : Block w) (c : Block w'), b.regionsWf → step ⟨w, b⟩ = .next ⟨w', c⟩ →
    c.regionsWf ∧
    (∀ r : Area w', c.areas[0]? = some r → c.memorySize.toNat ≤ r.base.toNat) ∧
    (∀ (i : Nat) (r q : Area w'), c.areas[i]? = some r → c.areas[i + 1]? = some q →
      r.base.toNat + r.size.toNat ≤ q.base.toNat ∧ (r.base.toNat < q.base.toNat ∨ r.size = 0)) ∧
    (∀ (i : Nat) (r : Area w'), c.areas[i]? = some r → r.base.toNat + r.size.toNat ≤ c.nextFree.toNat) ∧
    c.nextFree.toNat ≤ 2 ^ w'.bits ∧
    ∀ k k' a, c.inRegion k a → c.inRegion k' a → k = k'

/-! ### What executing an instruction leaves alone -/

/-- The frame of every instruction (R24, R26, R36, R121, R137): the step that executes it stores to no byte of memory and
moves no byte of the stream; MEMORY_SIZE, the parameters, the command port and what the host will do stay; only ALLOC adds
an area, at the end, and only ALLOC and ALIGN move NEXT_FREE; every byte that could be read before reads the same. (The
bytes of ENC.M go to memory in the byte steps that follow: EncMByteStepStoresOneByte, assumption 6.) -/
def Obligations.ExecutingLeavesTheRestAlone : Prop :=
  ∀ (w : Width) (b : Block w) (i : Instr) (t : State), exec i ⟨w, b⟩ = .next t →
    ∃ c : Block w, t = ⟨w, c⟩ ∧
      c.memorySize = b.memorySize ∧ c.maxAreas = b.maxAreas ∧ c.endian = b.endian ∧ c.port = b.port ∧
      c.live = b.live ∧ c.stream = b.stream ∧ c.host = b.host ∧
      (∀ p, c.readSlot p = b.readSlot p) ∧ c.pmem = b.pmem ∧ c.hostMem = b.hostMem ∧
      (i ≠ .alloc → c.areas = b.areas ∧ ∀ a, c.byteAt a = b.byteAt a) ∧
      (i ≠ .alloc → i ≠ .align → c.nextFree = b.nextFree) ∧
      (∃ new, c.areas = b.areas ++ new ∧ new.length ≤ 1) ∧
      ∀ a x, b.byteAt a = some x → c.byteAt a = some x

/-- R151 for the commands of one step: the status in RSP_STATUS and LAST_STATUS, IDLE, no codec register and no cursor
touched, and after a failure neither the table nor NEXT_FREE changed. -/
def Obligations.OneStepCommandsEndByTheResponse : Prop :=
  ∀ (w : Width) (b c : Block w) (i : Instr), i.channel = .command → exec i ⟨w, b⟩ = .next ⟨w, c⟩ → c.phase = .idle →
    c.rsp.status = some c.lastStatus ∧ c.acc = b.acc ∧ c.off = b.off ∧ c.cnt = b.cnt ∧ c.kind = b.kind ∧
      c.rem = b.rem ∧ c.bits = b.bits ∧ c.cur = b.cur ∧
      (c.lastStatus ≠ .ok → c = { b with rsp := c.rsp, lastStatus := c.lastStatus })

/-- R151 for the response step of a codec command: the same four things, and nothing the command did is undone. The stage
in which the result waits for its step is the model's form of BUSY (assumptions 7 and 8). -/
def Obligations.ResponseStepEndsTheCommand : Prop :=
  ∀ (w : Width) (b : Block w) (op : CodecOp) (res : CodecResult w), b.phase = .busy op (.respond res) →
    ∃ (st : Status) (fields : Response w), step ⟨w, b⟩ =
        .next ⟨w, { b with phase := .idle, lastStatus := st, rsp := { fields with status := some st } }⟩ ∧
      fields.count = some (BitVec.ofNat 4 b.cnt) ∧ (fields.cur = if op.inMemory then some b.cur else none) ∧
      fields.region = none ∧ fields.offset = none ∧ fields.base = none ∧
      (st = .ok ↔ res = .encoded ∨ (∃ v, res = .decoded v) ∨ res = .failed .ok) ∧
      (∀ v, fields.value = some v ↔ res = .decoded v) ∧
      ((∃ v, res = .decoded v) → fields.kind = some b.kind ∧ fields.faultAddr = none) ∧
      (res = .encoded → fields.kind = none ∧ fields.faultAddr = none) ∧
      ∀ e, res = .failed e → st = e ∧ fields.kind = none ∧
        fields.faultAddr = if op.inMemory then some (if e = .tooWide then b.cur - 1 else b.cur) else none

/-! ### Steps, the host and the environment (R33 to R37, R167 to R169) -/

/-- A step at IDLE with a command waiting executes what the command word decodes to, with the request on the command port
and taken from what the host will do (the queue of actions is the model's own field, assumptions 15 and 26). -/
def Obligations.StepExecutesTheCommand : Prop :=
  ∀ (w : Width) (b : Block w) (r : Request w) (rest : List (HostAction w)) (i : Instr) (left : List Byte),
    b.phase = .idle → b.host = .command r :: rest → decode .command [r.cmd] = .ok (i, left) →
    i.wf = true ∧ step ⟨w, b⟩ = exec i ⟨w, { b with host := rest, port := r }⟩

/-- A step of a decode that gets a byte executes what the wire byte decodes to: from memory with the cursor moved past
it, from the stream with its answer consumed (the list of answers is the model's form, assumption 14). -/
def Obligations.StepExecutesTheWireByte : Prop :=
  ∀ (w : Width) (b : Block w) (x : Byte) (i : Instr) (left : List Byte), decode .wire [x] = .ok (i, left) →
    (b.phase = .busy .decM .transfer → b.live = true → b.byteAt b.cur.toNat = some x →
      step ⟨w, b⟩ = exec i ⟨w, { b with cur := b.cur + 1 }⟩) ∧
    (∀ rest, b.phase = .busy .decS .transfer → b.stream.attached = true → b.stream.reads = .byte x :: rest →
      step ⟨w, b⟩ = exec i ⟨w, { b with stream := { b.stream with reads := rest } }⟩)

/-- The block does nothing until the host acts, and fetches nothing on its own (R167). -/
def Obligations.NothingHappensWithoutTheHost : Prop :=
  ∀ (w : Width) (b : Block w) (n : Nat), b.phase = .idle → b.host = [] → run n ⟨w, b⟩ = .next ⟨w, b⟩

/-- At BUSY nothing but the block acts (R36, R176): the host's actions, which stand in the model's own queue (assumption
15), wait, the region map stays, and storage changes only in the byte behind `CUR`, and only for ENC.M. -/
def Obligations.OnlyTheBlockActsAtBusy : Prop :=
  ∀ (w : Width) (b : Block w) (op : CodecOp) (stage : Stage w), b.phase = .busy op stage →
    b.pmem.wf → b.hostMem.wf → ∀ t, step ⟨w, b⟩ = .next t →
    ∃ c : Block w, t = ⟨w, c⟩ ∧ c.host = b.host ∧ c.areas = b.areas ∧ c.nextFree = b.nextFree ∧
      c.memorySize = b.memorySize ∧ c.live = b.live ∧ c.port = b.port ∧
      ∀ q, c.readSlot q ≠ b.readSlot q →
        op = .encM ∧ ∃ region offset, b.resolve b.cur.toNat 1 .byte = .found region offset q

/-- Reading a response register (R33): a fault where the VALID bit is clear (assumption 27), otherwise no change
(assumption 22). -/
def Obligations.OnlyValidFieldsCanBeRead : Prop :=
  ∀ (w : Width) (b : Block w) (f : ResponseField) (rest : List (HostAction w)), b.ready → b.host = .readResponse f :: rest →
    (b.rsp.read f = none → step ⟨w, b⟩ = .fault (.invalidResponse f)) ∧
    (∀ v, b.rsp.read f = some v → step ⟨w, b⟩ = .next ⟨w, { b with host := rest }⟩)

/-- An area is the host's buffer itself (R37, held as in assumption 12): what the host stores in its buffer at IDLE is at
once the byte of the area's address. -/
def Obligations.AreasAreTheHostsBuffer : Prop :=
  ∀ (w : Width) (b : Block w) (i : Nat) (r : Area w) (j : Nat) (x : Byte) (rest : List (HostAction w)),
    b.ready → b.regionsWf → b.hostMem.wf → b.areas[i]? = some r → j < r.size.toNat →
    b.host = .hostStore (r.data + j) x :: rest →
    ∃ c, step ⟨w, b⟩ = .next ⟨w, c⟩ ∧ c.byteAt (r.base.toNat + j) = some x ∧
      c = { b with host := rest, hostMem := c.hostMem }

/-- After release no command is taken and no address is backed (R168); a new machine starts from R165 with no area
(R169), and only after a release (R166). What stays beside R165's values, after release and in the new machine, is the
model's choice (assumptions 17 to 19). -/
def Obligations.ReleaseEndsTheMachine : Prop :=
  (∀ (w : Width) (b : Block w) (rest : List (HostAction w)), b.ready → b.host = .release :: rest →
    ∃ c, step ⟨w, b⟩ = .next ⟨w, c⟩ ∧ c = { b with host := rest, live := false } ∧ ∀ a, c.byteAt a = none) ∧
  (∀ (w : Width) (b : Block w) (i : Instr), b.live = false → i.channel = .command →
    exec i ⟨w, b⟩ = .refused .released) ∧
  ∀ (w : Width) (b : Block w) (size : Word w) (contents : Memory) (rest : List (HostAction w)),
    b.phase = .idle → b.host = .construct size contents :: rest →
    (b.live = true → step ⟨w, b⟩ = .refused .resetWithoutRelease) ∧
    (b.live = false → legalMemorySize size = true → legalContents size contents = true → 1 ≤ b.maxAreas →
      step ⟨w, b⟩ = .next ⟨w, { Block.construct ⟨size, b.maxAreas, b.endian, contents⟩ with
        stream := b.stream, hostMem := b.hostMem, host := rest }⟩)

/-- R146: the numeric codes, pairwise distinct, and none above 7. -/
def Obligations.StatusCodes : Prop :=
  Status.ok.code = 0 ∧ Status.ioError.code = 1 ∧ Status.tooWide.code = 2 ∧ Status.invalidAddress.code = 3 ∧
    Status.unalignedAddress.code = 4 ∧ Status.areaTableFull.code = 5 ∧ Status.addressSpaceExhausted.code = 6 ∧
    Status.badCommand.code = 7 ∧ (∀ s t : Status, s.code = t.code → s = t) ∧ ∀ s : Status, s.code.toNat ≤ 7

/-! ### Reset and the invariant -/

/-- R165: what construction leaves, for every launch the model does not refuse. -/
def Obligations.ResetValues : Prop :=
  ∀ (w : Width) (l : Launch w), l.wf = true →
    ∃ b : Block w, State.launch w l = .next ⟨w, b⟩ ∧ b.memorySize = l.memorySize ∧ b.areas = [] ∧
      b.nextFree.toNat = l.memorySize.toNat ∧ b.acc = 0 ∧ b.off = 0 ∧ b.cnt = 0 ∧ b.kind.bit = 0 ∧ b.rem = 0 ∧
      b.bits = 0 ∧ b.cur = 0 ∧ b.phase = .idle ∧ b.lastStatus.code = 0 ∧ (∀ f, b.rsp.read f = none) ∧
      b.pmem = l.pmemInit ∧ b.ready

/-- An illegal `MEMORY_SIZE` is refused at launch (R170, 93_implementation_defined.md I19). -/
def Obligations.IllegalLaunchIsRefused : Prop :=
  ∀ (w : Width) (l : Launch w),
    l.memorySize.toNat % w.bytes ≠ 0 ∨ 2 ^ w.bits < l.memorySize.toNat + w.bytes →
    State.launch w l = .refused .illegalLaunch

/-- The invariant holds at reset. That reset's launch is the model's choice (assumptions 1 to 5). -/
def Obligations.InvariantAtReset : Prop := State.reset.Inv

/-- The invariant holds after construction from any arguments the model does not refuse (R40, R165). -/
def Obligations.InvariantAtEveryLaunch : Prop :=
  ∀ (w : Width) (l : Launch w) (s : State), State.launch w l = .next s → s.Inv

/-- Every step keeps the invariant: the region map (R28), the canonical form of storage, the ranges of the codec registers
and of the cursor (R29, R30), what BUSY means (R101, R102), and the agreement of RSP_STATUS and LAST_STATUS (R32). -/
def Obligations.EveryStepKeepsTheInvariant : Prop :=
  ∀ s t : State, s.Inv → step s = .next t → t.Inv
end

