-- ==== Sys2Proof/Laws/Memory.lean ====
section
/-! SUPPORT. Memory contents: every operation keeps the canonical form, a read after a write gives what was written, and
two canonical memories that read the same are the same list. -/

namespace Sys2Proof

open Sys2Proof

@[simp] theorem Memory.read_nil (a : Nat) : Memory.read [] a = Memory.blank := rfl

theorem Memory.read_cons (k : Nat) (x : Byte) (m : Memory) (a : Nat) :
    Memory.read ((k, x) :: m) a = if k = a then x else Memory.read m a := rfl

/-- The empty memory is canonical. -/
theorem Memory.wf_nil : Memory.wf [] := ⟨List.Pairwise.nil, by simp⟩

/-- What the form says of a first entry. -/
theorem Memory.wf_cons {k : Nat} {x : Byte} {m : Memory} :
    Memory.wf ((k, x) :: m) ↔ (∀ c ∈ m, k < c.1) ∧ x ≠ Memory.blank ∧ Memory.wf m := by
  constructor
  · rintro ⟨hp, hb⟩
    rw [List.pairwise_cons] at hp
    exact ⟨hp.1, hb (k, x) (by simp), hp.2, fun c hc => hb c (by simp [hc])⟩
  · rintro ⟨h1, h2, h3, h4⟩
    refine ⟨List.pairwise_cons.2 ⟨h1, h3⟩, ?_⟩
    intro c hc
    rcases List.mem_cons.1 hc with rfl | hc
    · exact h2
    · exact h4 c hc

/-- An address below every entry is not listed. -/
theorem Memory.read_below {m : Memory} {a : Nat} (h : ∀ c ∈ m, a < c.1) : m.read a = Memory.blank := by
  induction m with
  | nil => rfl
  | cons c m ih =>
    obtain ⟨k, x⟩ := c
    have hk : a < k := h (k, x) (by simp)
    rw [Memory.read_cons, if_neg (by omega)]
    exact ih fun c hc => h c (by simp [hc])

/-- The entries after a write: the written one, or one that was there. -/
theorem Memory.mem_write {m : Memory} {a : Nat} {v : Byte} {c : Host.Cell} (h : c ∈ m.write a v) :
    (c = (a, v) ∧ v ≠ Memory.blank) ∨ c ∈ m := by
  induction m with
  | nil =>
    simp only [Memory.write] at h
    split at h
    · simp at h
    · exact .inl ⟨by simpa using h, by assumption⟩
  | cons e m ih =>
    obtain ⟨k, x⟩ := e
    simp only [Memory.write] at h
    split at h
    · split at h
      · exact .inr h
      · rcases List.mem_cons.1 h with rfl | h
        · exact .inl ⟨rfl, by assumption⟩
        · exact .inr h
    · split at h
      · split at h
        · exact .inr (by simp [h])
        · rcases List.mem_cons.1 h with rfl | h
          · exact .inl ⟨rfl, by assumption⟩
          · exact .inr (by simp [h])
      · rcases List.mem_cons.1 h with rfl | h
        · exact .inr (by simp)
        · rcases ih h with h | h
          · exact .inl h
          · exact .inr (by simp [h])

/-- A write keeps the canonical form. -/
theorem Memory.write_wf {m : Memory} (h : m.wf) (a : Nat) (v : Byte) : (m.write a v).wf := by
  induction m with
  | nil =>
    simp only [Memory.write]
    split
    · exact Memory.wf_nil
    · exact Memory.wf_cons.2 ⟨by simp, by assumption, Memory.wf_nil⟩
  | cons e m ih =>
    obtain ⟨k, x⟩ := e
    obtain ⟨h1, h2, h3⟩ := Memory.wf_cons.1 h
    simp only [Memory.write]
    split
    · split
      · exact h
      · refine Memory.wf_cons.2 ⟨?_, by assumption, h⟩
        intro c hc
        rcases List.mem_cons.1 hc with rfl | hc
        · assumption
        · have := h1 c hc; omega
    · split
      · split
        · exact h3
        · exact Memory.wf_cons.2 ⟨fun c hc => by have := h1 c hc; omega, by assumption, h3⟩
      · refine Memory.wf_cons.2 ⟨?_, h2, ih h3⟩
        intro c hc
        rcases Memory.mem_write hc with ⟨rfl, -⟩ | hc
        · show k < a
          omega
        · exact h1 c hc

/-- A read after a write: the written byte at its address, every other byte as before. -/
theorem Memory.read_write {m : Memory} (h : m.wf) (a : Nat) (v : Byte) (a' : Nat) :
    (m.write a v).read a' = if a' = a then v else m.read a' := by
  induction m with
  | nil =>
    simp only [Memory.write]
    split
    · next hv => split <;> simp [hv]
    · rw [Memory.read_cons]
      by_cases e : a' = a
      · simp [e]
      · rw [if_neg (by omega), if_neg e]
  | cons e m ih =>
    obtain ⟨k, x⟩ := e
    obtain ⟨h1, h2, h3⟩ := Memory.wf_cons.1 h
    simp only [Memory.write]
    split
    · next hk =>
      split
      · next hv =>
        split
        · next e =>
          rw [hv]
          refine Memory.read_below fun c hc => ?_
          rcases List.mem_cons.1 hc with rfl | hc
          · show a' < k
            omega
          · have := h1 c hc; omega
        · rfl
      · rw [Memory.read_cons]
        by_cases e : a' = a
        · simp [e]
        · rw [if_neg (by omega), if_neg e]
    · split
      · next hk hak =>
        subst hak
        split
        · next hv =>
          by_cases e : a' = a
          · rw [if_pos e, hv, e]
            exact Memory.read_below h1
          · rw [if_neg e, Memory.read_cons, if_neg (by omega)]
        · rw [Memory.read_cons, Memory.read_cons]
          by_cases e : a' = a
          · simp [e]
          · rw [if_neg (by omega), if_neg e, if_neg (by omega)]
      · rw [Memory.read_cons, Memory.read_cons, ih h3]
        by_cases e : k = a'
        · rw [if_pos e, if_pos e, if_neg (by omega)]
        · rw [if_neg e, if_neg e]

/-- A write below a bound keeps every entry below it. -/
theorem Memory.write_below {m : Memory} {n a : Nat} (h : ∀ c ∈ m, c.1 < n) (ha : a < n) (v : Byte) :
    ∀ c ∈ m.write a v, c.1 < n := by
  intro c hc
  rcases Memory.mem_write hc with ⟨rfl, -⟩ | hc
  · exact ha
  · exact h c hc

/-- Two canonical memories that read the same are the same list. -/
theorem Memory.ext_of_wf {m n : Memory} (hm : m.wf) (hn : n.wf) (h : ∀ a, m.read a = n.read a) : m = n := by
  induction m generalizing n with
  | nil =>
    cases n with
    | nil => rfl
    | cons e n =>
      obtain ⟨k, x⟩ := e
      have := h k
      simp only [Memory.read_nil, Memory.read_cons, if_true] at this
      exact absurd this.symm (Memory.wf_cons.1 hn).2.1
  | cons e m ih =>
    obtain ⟨k, x⟩ := e
    obtain ⟨h1, h2, h3⟩ := Memory.wf_cons.1 hm
    cases n with
    | nil =>
      have := h k
      simp only [Memory.read_nil, Memory.read_cons, if_true] at this
      exact absurd this h2
    | cons e' n =>
      obtain ⟨k', x'⟩ := e'
      obtain ⟨g1, g2, g3⟩ := Memory.wf_cons.1 hn
      have hk : k = k' := by
        rcases Nat.lt_trichotomy k k' with hlt | heq | hgt
        · have := h k
          rw [Memory.read_cons, if_pos rfl, Memory.read_cons, if_neg (by omega),
            Memory.read_below fun c hc => by have := g1 c hc; omega] at this
          exact absurd this h2
        · exact heq
        · have := h k'
          rw [Memory.read_cons, if_neg (by omega), Memory.read_cons, if_pos rfl,
            Memory.read_below fun c hc => by have := h1 c hc; omega] at this
          exact absurd this.symm g2
      subst hk
      have hx : x = x' := by
        have := h k
        simpa [Memory.read_cons] using this
      subst hx
      rw [ih h3 g3 fun a => ?_]
      by_cases e : k = a
      · subst e
        rw [Memory.read_below h1, Memory.read_below g1]
      · have := h a
        rwa [Memory.read_cons, if_neg e, Memory.read_cons, if_neg e] at this

end Sys2Proof
end

