-- ==== Sys2Proof/Laws/State.lean ====
section
/-! SUPPORT. One lemma per field per update of the block, all by rfl and all simp lemmas, so that no proof unfolds a record
update: what each named update writes, and that it leaves every other field as it was. -/

namespace Sys2Proof.Machine

open Sys2Proof

variable {w : Width} (b : Block w)

/-! ### `Block.endCommand` -/

@[simp] theorem Block.endCommand_memorySize (st : Status) (f : Response w) :
    (b.endCommand st f).memorySize = b.memorySize := rfl
@[simp] theorem Block.endCommand_maxAreas (st : Status) (f : Response w) :
    (b.endCommand st f).maxAreas = b.maxAreas := rfl
@[simp] theorem Block.endCommand_endian (st : Status) (f : Response w) : (b.endCommand st f).endian = b.endian := rfl
@[simp] theorem Block.endCommand_pmem (st : Status) (f : Response w) : (b.endCommand st f).pmem = b.pmem := rfl
@[simp] theorem Block.endCommand_areas (st : Status) (f : Response w) : (b.endCommand st f).areas = b.areas := rfl
@[simp] theorem Block.endCommand_nextFree (st : Status) (f : Response w) :
    (b.endCommand st f).nextFree = b.nextFree := rfl
@[simp] theorem Block.endCommand_acc (st : Status) (f : Response w) : (b.endCommand st f).acc = b.acc := rfl
@[simp] theorem Block.endCommand_off (st : Status) (f : Response w) : (b.endCommand st f).off = b.off := rfl
@[simp] theorem Block.endCommand_cnt (st : Status) (f : Response w) : (b.endCommand st f).cnt = b.cnt := rfl
@[simp] theorem Block.endCommand_kind (st : Status) (f : Response w) : (b.endCommand st f).kind = b.kind := rfl
@[simp] theorem Block.endCommand_rem (st : Status) (f : Response w) : (b.endCommand st f).rem = b.rem := rfl
@[simp] theorem Block.endCommand_bits (st : Status) (f : Response w) : (b.endCommand st f).bits = b.bits := rfl
@[simp] theorem Block.endCommand_cur (st : Status) (f : Response w) : (b.endCommand st f).cur = b.cur := rfl
@[simp] theorem Block.endCommand_phase (st : Status) (f : Response w) : (b.endCommand st f).phase = .idle := rfl
@[simp] theorem Block.endCommand_lastStatus (st : Status) (f : Response w) :
    (b.endCommand st f).lastStatus = st := rfl
@[simp] theorem Block.endCommand_rsp (st : Status) (f : Response w) :
    (b.endCommand st f).rsp = { f with status := some st } := rfl
@[simp] theorem Block.endCommand_port (st : Status) (f : Response w) : (b.endCommand st f).port = b.port := rfl
@[simp] theorem Block.endCommand_live (st : Status) (f : Response w) : (b.endCommand st f).live = b.live := rfl
@[simp] theorem Block.endCommand_stream (st : Status) (f : Response w) : (b.endCommand st f).stream = b.stream := rfl
@[simp] theorem Block.endCommand_hostMem (st : Status) (f : Response w) :
    (b.endCommand st f).hostMem = b.hostMem := rfl
@[simp] theorem Block.endCommand_host (st : Status) (f : Response w) : (b.endCommand st f).host = b.host := rfl

/-! ### `Block.accept` -/

@[simp] theorem Block.accept_memorySize (op : CodecOp) : (b.accept op).memorySize = b.memorySize := rfl
@[simp] theorem Block.accept_maxAreas (op : CodecOp) : (b.accept op).maxAreas = b.maxAreas := rfl
@[simp] theorem Block.accept_endian (op : CodecOp) : (b.accept op).endian = b.endian := rfl
@[simp] theorem Block.accept_pmem (op : CodecOp) : (b.accept op).pmem = b.pmem := rfl
@[simp] theorem Block.accept_areas (op : CodecOp) : (b.accept op).areas = b.areas := rfl
@[simp] theorem Block.accept_nextFree (op : CodecOp) : (b.accept op).nextFree = b.nextFree := rfl
@[simp] theorem Block.accept_acc (op : CodecOp) : (b.accept op).acc = b.acc := rfl
@[simp] theorem Block.accept_off (op : CodecOp) : (b.accept op).off = b.off := rfl
@[simp] theorem Block.accept_cnt (op : CodecOp) : (b.accept op).cnt = b.cnt := rfl
@[simp] theorem Block.accept_kind (op : CodecOp) : (b.accept op).kind = b.kind := rfl
@[simp] theorem Block.accept_rem (op : CodecOp) : (b.accept op).rem = b.rem := rfl
@[simp] theorem Block.accept_bits (op : CodecOp) : (b.accept op).bits = b.bits := rfl
@[simp] theorem Block.accept_cur (op : CodecOp) : (b.accept op).cur = b.cur := rfl
@[simp] theorem Block.accept_phase (op : CodecOp) : (b.accept op).phase = .busy op .transfer := rfl
@[simp] theorem Block.accept_lastStatus (op : CodecOp) : (b.accept op).lastStatus = b.lastStatus := rfl
@[simp] theorem Block.accept_rsp (op : CodecOp) : (b.accept op).rsp = b.rsp := rfl
@[simp] theorem Block.accept_port (op : CodecOp) : (b.accept op).port = b.port := rfl
@[simp] theorem Block.accept_live (op : CodecOp) : (b.accept op).live = b.live := rfl
@[simp] theorem Block.accept_stream (op : CodecOp) : (b.accept op).stream = b.stream := rfl
@[simp] theorem Block.accept_hostMem (op : CodecOp) : (b.accept op).hostMem = b.hostMem := rfl
@[simp] theorem Block.accept_host (op : CodecOp) : (b.accept op).host = b.host := rfl

/-! ### `Block.loadEncoder` -/

@[simp] theorem Block.loadEncoder_memorySize (k : Kind) (v : Word w) :
    (b.loadEncoder k v).memorySize = b.memorySize := rfl
@[simp] theorem Block.loadEncoder_maxAreas (k : Kind) (v : Word w) : (b.loadEncoder k v).maxAreas = b.maxAreas := rfl
@[simp] theorem Block.loadEncoder_endian (k : Kind) (v : Word w) : (b.loadEncoder k v).endian = b.endian := rfl
@[simp] theorem Block.loadEncoder_pmem (k : Kind) (v : Word w) : (b.loadEncoder k v).pmem = b.pmem := rfl
@[simp] theorem Block.loadEncoder_areas (k : Kind) (v : Word w) : (b.loadEncoder k v).areas = b.areas := rfl
@[simp] theorem Block.loadEncoder_nextFree (k : Kind) (v : Word w) : (b.loadEncoder k v).nextFree = b.nextFree := rfl
@[simp] theorem Block.loadEncoder_acc (k : Kind) (v : Word w) : (b.loadEncoder k v).acc = b.acc := rfl
@[simp] theorem Block.loadEncoder_off (k : Kind) (v : Word w) : (b.loadEncoder k v).off = b.off := rfl
@[simp] theorem Block.loadEncoder_cnt (k : Kind) (v : Word w) : (b.loadEncoder k v).cnt = 0 := rfl
@[simp] theorem Block.loadEncoder_kind (k : Kind) (v : Word w) : (b.loadEncoder k v).kind = k := rfl
@[simp] theorem Block.loadEncoder_rem (k : Kind) (v : Word w) : (b.loadEncoder k v).rem = v := rfl
@[simp] theorem Block.loadEncoder_bits (k : Kind) (v : Word w) :
    (b.loadEncoder k v).bits = significantWidth k v := rfl
@[simp] theorem Block.loadEncoder_cur (k : Kind) (v : Word w) : (b.loadEncoder k v).cur = b.cur := rfl
@[simp] theorem Block.loadEncoder_phase (k : Kind) (v : Word w) : (b.loadEncoder k v).phase = b.phase := rfl
@[simp] theorem Block.loadEncoder_lastStatus (k : Kind) (v : Word w) :
    (b.loadEncoder k v).lastStatus = b.lastStatus := rfl
@[simp] theorem Block.loadEncoder_rsp (k : Kind) (v : Word w) : (b.loadEncoder k v).rsp = b.rsp := rfl
@[simp] theorem Block.loadEncoder_port (k : Kind) (v : Word w) : (b.loadEncoder k v).port = b.port := rfl
@[simp] theorem Block.loadEncoder_live (k : Kind) (v : Word w) : (b.loadEncoder k v).live = b.live := rfl
@[simp] theorem Block.loadEncoder_stream (k : Kind) (v : Word w) : (b.loadEncoder k v).stream = b.stream := rfl
@[simp] theorem Block.loadEncoder_hostMem (k : Kind) (v : Word w) : (b.loadEncoder k v).hostMem = b.hostMem := rfl
@[simp] theorem Block.loadEncoder_host (k : Kind) (v : Word w) : (b.loadEncoder k v).host = b.host := rfl

/-! ### `Block.clearDecoder` -/

@[simp] theorem Block.clearDecoder_memorySize : (b.clearDecoder).memorySize = b.memorySize := rfl
@[simp] theorem Block.clearDecoder_maxAreas : (b.clearDecoder).maxAreas = b.maxAreas := rfl
@[simp] theorem Block.clearDecoder_endian : (b.clearDecoder).endian = b.endian := rfl
@[simp] theorem Block.clearDecoder_pmem : (b.clearDecoder).pmem = b.pmem := rfl
@[simp] theorem Block.clearDecoder_areas : (b.clearDecoder).areas = b.areas := rfl
@[simp] theorem Block.clearDecoder_nextFree : (b.clearDecoder).nextFree = b.nextFree := rfl
@[simp] theorem Block.clearDecoder_acc : (b.clearDecoder).acc = 0 := rfl
@[simp] theorem Block.clearDecoder_off : (b.clearDecoder).off = 0 := rfl
@[simp] theorem Block.clearDecoder_cnt : (b.clearDecoder).cnt = 0 := rfl
@[simp] theorem Block.clearDecoder_kind : (b.clearDecoder).kind = b.kind := rfl
@[simp] theorem Block.clearDecoder_rem : (b.clearDecoder).rem = b.rem := rfl
@[simp] theorem Block.clearDecoder_bits : (b.clearDecoder).bits = b.bits := rfl
@[simp] theorem Block.clearDecoder_cur : (b.clearDecoder).cur = b.cur := rfl
@[simp] theorem Block.clearDecoder_phase : (b.clearDecoder).phase = b.phase := rfl
@[simp] theorem Block.clearDecoder_lastStatus : (b.clearDecoder).lastStatus = b.lastStatus := rfl
@[simp] theorem Block.clearDecoder_rsp : (b.clearDecoder).rsp = b.rsp := rfl
@[simp] theorem Block.clearDecoder_port : (b.clearDecoder).port = b.port := rfl
@[simp] theorem Block.clearDecoder_live : (b.clearDecoder).live = b.live := rfl
@[simp] theorem Block.clearDecoder_stream : (b.clearDecoder).stream = b.stream := rfl
@[simp] theorem Block.clearDecoder_hostMem : (b.clearDecoder).hostMem = b.hostMem := rfl
@[simp] theorem Block.clearDecoder_host : (b.clearDecoder).host = b.host := rfl

/-! ### `Block.loadCursor` -/

@[simp] theorem Block.loadCursor_memorySize : (b.loadCursor).memorySize = b.memorySize := rfl
@[simp] theorem Block.loadCursor_maxAreas : (b.loadCursor).maxAreas = b.maxAreas := rfl
@[simp] theorem Block.loadCursor_endian : (b.loadCursor).endian = b.endian := rfl
@[simp] theorem Block.loadCursor_pmem : (b.loadCursor).pmem = b.pmem := rfl
@[simp] theorem Block.loadCursor_areas : (b.loadCursor).areas = b.areas := rfl
@[simp] theorem Block.loadCursor_nextFree : (b.loadCursor).nextFree = b.nextFree := rfl
@[simp] theorem Block.loadCursor_acc : (b.loadCursor).acc = b.acc := rfl
@[simp] theorem Block.loadCursor_off : (b.loadCursor).off = b.off := rfl
@[simp] theorem Block.loadCursor_cnt : (b.loadCursor).cnt = b.cnt := rfl
@[simp] theorem Block.loadCursor_kind : (b.loadCursor).kind = b.kind := rfl
@[simp] theorem Block.loadCursor_rem : (b.loadCursor).rem = b.rem := rfl
@[simp] theorem Block.loadCursor_bits : (b.loadCursor).bits = b.bits := rfl
@[simp] theorem Block.loadCursor_cur : (b.loadCursor).cur = b.startAddress := rfl
@[simp] theorem Block.loadCursor_phase : (b.loadCursor).phase = b.phase := rfl
@[simp] theorem Block.loadCursor_lastStatus : (b.loadCursor).lastStatus = b.lastStatus := rfl
@[simp] theorem Block.loadCursor_rsp : (b.loadCursor).rsp = b.rsp := rfl
@[simp] theorem Block.loadCursor_port : (b.loadCursor).port = b.port := rfl
@[simp] theorem Block.loadCursor_live : (b.loadCursor).live = b.live := rfl
@[simp] theorem Block.loadCursor_stream : (b.loadCursor).stream = b.stream := rfl
@[simp] theorem Block.loadCursor_hostMem : (b.loadCursor).hostMem = b.hostMem := rfl
@[simp] theorem Block.loadCursor_host : (b.loadCursor).host = b.host := rfl

/-! ### `Block.finish` -/

@[simp] theorem Block.finish_memorySize (op : CodecOp) (res : CodecResult w) :
    (b.finish op res).memorySize = b.memorySize := rfl
@[simp] theorem Block.finish_maxAreas (op : CodecOp) (res : CodecResult w) :
    (b.finish op res).maxAreas = b.maxAreas := rfl
@[simp] theorem Block.finish_endian (op : CodecOp) (res : CodecResult w) : (b.finish op res).endian = b.endian := rfl
@[simp] theorem Block.finish_pmem (op : CodecOp) (res : CodecResult w) : (b.finish op res).pmem = b.pmem := rfl
@[simp] theorem Block.finish_areas (op : CodecOp) (res : CodecResult w) : (b.finish op res).areas = b.areas := rfl
@[simp] theorem Block.finish_nextFree (op : CodecOp) (res : CodecResult w) :
    (b.finish op res).nextFree = b.nextFree := rfl
@[simp] theorem Block.finish_acc (op : CodecOp) (res : CodecResult w) : (b.finish op res).acc = b.acc := rfl
@[simp] theorem Block.finish_off (op : CodecOp) (res : CodecResult w) : (b.finish op res).off = b.off := rfl
@[simp] theorem Block.finish_cnt (op : CodecOp) (res : CodecResult w) : (b.finish op res).cnt = b.cnt := rfl
@[simp] theorem Block.finish_kind (op : CodecOp) (res : CodecResult w) : (b.finish op res).kind = b.kind := rfl
@[simp] theorem Block.finish_rem (op : CodecOp) (res : CodecResult w) : (b.finish op res).rem = b.rem := rfl
@[simp] theorem Block.finish_bits (op : CodecOp) (res : CodecResult w) : (b.finish op res).bits = b.bits := rfl
@[simp] theorem Block.finish_cur (op : CodecOp) (res : CodecResult w) : (b.finish op res).cur = b.cur := rfl
@[simp] theorem Block.finish_phase (op : CodecOp) (res : CodecResult w) :
    (b.finish op res).phase = .busy op (.respond res) := rfl
@[simp] theorem Block.finish_lastStatus (op : CodecOp) (res : CodecResult w) :
    (b.finish op res).lastStatus = b.lastStatus := rfl
@[simp] theorem Block.finish_rsp (op : CodecOp) (res : CodecResult w) : (b.finish op res).rsp = b.rsp := rfl
@[simp] theorem Block.finish_port (op : CodecOp) (res : CodecResult w) : (b.finish op res).port = b.port := rfl
@[simp] theorem Block.finish_live (op : CodecOp) (res : CodecResult w) : (b.finish op res).live = b.live := rfl
@[simp] theorem Block.finish_stream (op : CodecOp) (res : CodecResult w) : (b.finish op res).stream = b.stream := rfl
@[simp] theorem Block.finish_hostMem (op : CodecOp) (res : CodecResult w) :
    (b.finish op res).hostMem = b.hostMem := rfl
@[simp] theorem Block.finish_host (op : CodecOp) (res : CodecResult w) : (b.finish op res).host = b.host := rfl

/-! ### `Block.afterContPut` -/

@[simp] theorem Block.afterContPut_memorySize : (b.afterContPut).memorySize = b.memorySize := rfl
@[simp] theorem Block.afterContPut_maxAreas : (b.afterContPut).maxAreas = b.maxAreas := rfl
@[simp] theorem Block.afterContPut_endian : (b.afterContPut).endian = b.endian := rfl
@[simp] theorem Block.afterContPut_pmem : (b.afterContPut).pmem = b.pmem := rfl
@[simp] theorem Block.afterContPut_areas : (b.afterContPut).areas = b.areas := rfl
@[simp] theorem Block.afterContPut_nextFree : (b.afterContPut).nextFree = b.nextFree := rfl
@[simp] theorem Block.afterContPut_acc : (b.afterContPut).acc = b.acc := rfl
@[simp] theorem Block.afterContPut_off : (b.afterContPut).off = b.off := rfl
@[simp] theorem Block.afterContPut_cnt : (b.afterContPut).cnt = b.cnt + 1 := rfl
@[simp] theorem Block.afterContPut_kind : (b.afterContPut).kind = b.kind := rfl
@[simp] theorem Block.afterContPut_rem : (b.afterContPut).rem = b.rem.sshiftRight 7 := rfl
@[simp] theorem Block.afterContPut_bits : (b.afterContPut).bits = b.bits - 7 := rfl
@[simp] theorem Block.afterContPut_cur : (b.afterContPut).cur = b.cur := rfl
@[simp] theorem Block.afterContPut_phase : (b.afterContPut).phase = b.phase := rfl
@[simp] theorem Block.afterContPut_lastStatus : (b.afterContPut).lastStatus = b.lastStatus := rfl
@[simp] theorem Block.afterContPut_rsp : (b.afterContPut).rsp = b.rsp := rfl
@[simp] theorem Block.afterContPut_port : (b.afterContPut).port = b.port := rfl
@[simp] theorem Block.afterContPut_live : (b.afterContPut).live = b.live := rfl
@[simp] theorem Block.afterContPut_stream : (b.afterContPut).stream = b.stream := rfl
@[simp] theorem Block.afterContPut_hostMem : (b.afterContPut).hostMem = b.hostMem := rfl
@[simp] theorem Block.afterContPut_host : (b.afterContPut).host = b.host := rfl

/-! ### `Block.countByte` -/

@[simp] theorem Block.countByte_memorySize : (b.countByte).memorySize = b.memorySize := rfl
@[simp] theorem Block.countByte_maxAreas : (b.countByte).maxAreas = b.maxAreas := rfl
@[simp] theorem Block.countByte_endian : (b.countByte).endian = b.endian := rfl
@[simp] theorem Block.countByte_pmem : (b.countByte).pmem = b.pmem := rfl
@[simp] theorem Block.countByte_areas : (b.countByte).areas = b.areas := rfl
@[simp] theorem Block.countByte_nextFree : (b.countByte).nextFree = b.nextFree := rfl
@[simp] theorem Block.countByte_acc : (b.countByte).acc = b.acc := rfl
@[simp] theorem Block.countByte_off : (b.countByte).off = b.off := rfl
@[simp] theorem Block.countByte_cnt : (b.countByte).cnt = b.cnt + 1 := rfl
@[simp] theorem Block.countByte_kind : (b.countByte).kind = b.kind := rfl
@[simp] theorem Block.countByte_rem : (b.countByte).rem = b.rem := rfl
@[simp] theorem Block.countByte_bits : (b.countByte).bits = b.bits := rfl
@[simp] theorem Block.countByte_cur : (b.countByte).cur = b.cur := rfl
@[simp] theorem Block.countByte_phase : (b.countByte).phase = b.phase := rfl
@[simp] theorem Block.countByte_lastStatus : (b.countByte).lastStatus = b.lastStatus := rfl
@[simp] theorem Block.countByte_rsp : (b.countByte).rsp = b.rsp := rfl
@[simp] theorem Block.countByte_port : (b.countByte).port = b.port := rfl
@[simp] theorem Block.countByte_live : (b.countByte).live = b.live := rfl
@[simp] theorem Block.countByte_stream : (b.countByte).stream = b.stream := rfl
@[simp] theorem Block.countByte_hostMem : (b.countByte).hostMem = b.hostMem := rfl
@[simp] theorem Block.countByte_host : (b.countByte).host = b.host := rfl

/-! ### `Block.joinChunk` -/

@[simp] theorem Block.joinChunk_memorySize (c : BitVec 7) : (b.joinChunk c).memorySize = b.memorySize := rfl
@[simp] theorem Block.joinChunk_maxAreas (c : BitVec 7) : (b.joinChunk c).maxAreas = b.maxAreas := rfl
@[simp] theorem Block.joinChunk_endian (c : BitVec 7) : (b.joinChunk c).endian = b.endian := rfl
@[simp] theorem Block.joinChunk_pmem (c : BitVec 7) : (b.joinChunk c).pmem = b.pmem := rfl
@[simp] theorem Block.joinChunk_areas (c : BitVec 7) : (b.joinChunk c).areas = b.areas := rfl
@[simp] theorem Block.joinChunk_nextFree (c : BitVec 7) : (b.joinChunk c).nextFree = b.nextFree := rfl
@[simp] theorem Block.joinChunk_acc (c : BitVec 7) : (b.joinChunk c).acc = accumulate b.acc b.off c := rfl
@[simp] theorem Block.joinChunk_off (c : BitVec 7) : (b.joinChunk c).off = b.off + 7 := rfl
@[simp] theorem Block.joinChunk_cnt (c : BitVec 7) : (b.joinChunk c).cnt = b.cnt := rfl
@[simp] theorem Block.joinChunk_kind (c : BitVec 7) : (b.joinChunk c).kind = b.kind := rfl
@[simp] theorem Block.joinChunk_rem (c : BitVec 7) : (b.joinChunk c).rem = b.rem := rfl
@[simp] theorem Block.joinChunk_bits (c : BitVec 7) : (b.joinChunk c).bits = b.bits := rfl
@[simp] theorem Block.joinChunk_cur (c : BitVec 7) : (b.joinChunk c).cur = b.cur := rfl
@[simp] theorem Block.joinChunk_phase (c : BitVec 7) : (b.joinChunk c).phase = b.phase := rfl
@[simp] theorem Block.joinChunk_lastStatus (c : BitVec 7) : (b.joinChunk c).lastStatus = b.lastStatus := rfl
@[simp] theorem Block.joinChunk_rsp (c : BitVec 7) : (b.joinChunk c).rsp = b.rsp := rfl
@[simp] theorem Block.joinChunk_port (c : BitVec 7) : (b.joinChunk c).port = b.port := rfl
@[simp] theorem Block.joinChunk_live (c : BitVec 7) : (b.joinChunk c).live = b.live := rfl
@[simp] theorem Block.joinChunk_stream (c : BitVec 7) : (b.joinChunk c).stream = b.stream := rfl
@[simp] theorem Block.joinChunk_hostMem (c : BitVec 7) : (b.joinChunk c).hostMem = b.hostMem := rfl
@[simp] theorem Block.joinChunk_host (c : BitVec 7) : (b.joinChunk c).host = b.host := rfl

/-! ### `Block.joinFinal` -/

@[simp] theorem Block.joinFinal_memorySize (k : Kind) (p : BitVec 6) :
    (b.joinFinal k p).memorySize = b.memorySize := rfl
@[simp] theorem Block.joinFinal_maxAreas (k : Kind) (p : BitVec 6) : (b.joinFinal k p).maxAreas = b.maxAreas := rfl
@[simp] theorem Block.joinFinal_endian (k : Kind) (p : BitVec 6) : (b.joinFinal k p).endian = b.endian := rfl
@[simp] theorem Block.joinFinal_pmem (k : Kind) (p : BitVec 6) : (b.joinFinal k p).pmem = b.pmem := rfl
@[simp] theorem Block.joinFinal_areas (k : Kind) (p : BitVec 6) : (b.joinFinal k p).areas = b.areas := rfl
@[simp] theorem Block.joinFinal_nextFree (k : Kind) (p : BitVec 6) : (b.joinFinal k p).nextFree = b.nextFree := rfl
@[simp] theorem Block.joinFinal_acc (k : Kind) (p : BitVec 6) :
    (b.joinFinal k p).acc = accumulate b.acc b.off p := rfl
@[simp] theorem Block.joinFinal_off (k : Kind) (p : BitVec 6) : (b.joinFinal k p).off = b.off := rfl
@[simp] theorem Block.joinFinal_cnt (k : Kind) (p : BitVec 6) : (b.joinFinal k p).cnt = b.cnt := rfl
@[simp] theorem Block.joinFinal_kind (k : Kind) (p : BitVec 6) : (b.joinFinal k p).kind = k := rfl
@[simp] theorem Block.joinFinal_rem (k : Kind) (p : BitVec 6) : (b.joinFinal k p).rem = b.rem := rfl
@[simp] theorem Block.joinFinal_bits (k : Kind) (p : BitVec 6) : (b.joinFinal k p).bits = b.bits := rfl
@[simp] theorem Block.joinFinal_cur (k : Kind) (p : BitVec 6) : (b.joinFinal k p).cur = b.cur := rfl
@[simp] theorem Block.joinFinal_phase (k : Kind) (p : BitVec 6) : (b.joinFinal k p).phase = b.phase := rfl
@[simp] theorem Block.joinFinal_lastStatus (k : Kind) (p : BitVec 6) :
    (b.joinFinal k p).lastStatus = b.lastStatus := rfl
@[simp] theorem Block.joinFinal_rsp (k : Kind) (p : BitVec 6) : (b.joinFinal k p).rsp = b.rsp := rfl
@[simp] theorem Block.joinFinal_port (k : Kind) (p : BitVec 6) : (b.joinFinal k p).port = b.port := rfl
@[simp] theorem Block.joinFinal_live (k : Kind) (p : BitVec 6) : (b.joinFinal k p).live = b.live := rfl
@[simp] theorem Block.joinFinal_stream (k : Kind) (p : BitVec 6) : (b.joinFinal k p).stream = b.stream := rfl
@[simp] theorem Block.joinFinal_hostMem (k : Kind) (p : BitVec 6) : (b.joinFinal k p).hostMem = b.hostMem := rfl
@[simp] theorem Block.joinFinal_host (k : Kind) (p : BitVec 6) : (b.joinFinal k p).host = b.host := rfl

/-! ### `Block.withStream` -/

@[simp] theorem Block.withStream_memorySize (t : ByteStream) : (b.withStream t).memorySize = b.memorySize := rfl
@[simp] theorem Block.withStream_maxAreas (t : ByteStream) : (b.withStream t).maxAreas = b.maxAreas := rfl
@[simp] theorem Block.withStream_endian (t : ByteStream) : (b.withStream t).endian = b.endian := rfl
@[simp] theorem Block.withStream_pmem (t : ByteStream) : (b.withStream t).pmem = b.pmem := rfl
@[simp] theorem Block.withStream_areas (t : ByteStream) : (b.withStream t).areas = b.areas := rfl
@[simp] theorem Block.withStream_nextFree (t : ByteStream) : (b.withStream t).nextFree = b.nextFree := rfl
@[simp] theorem Block.withStream_acc (t : ByteStream) : (b.withStream t).acc = b.acc := rfl
@[simp] theorem Block.withStream_off (t : ByteStream) : (b.withStream t).off = b.off := rfl
@[simp] theorem Block.withStream_cnt (t : ByteStream) : (b.withStream t).cnt = b.cnt := rfl
@[simp] theorem Block.withStream_kind (t : ByteStream) : (b.withStream t).kind = b.kind := rfl
@[simp] theorem Block.withStream_rem (t : ByteStream) : (b.withStream t).rem = b.rem := rfl
@[simp] theorem Block.withStream_bits (t : ByteStream) : (b.withStream t).bits = b.bits := rfl
@[simp] theorem Block.withStream_cur (t : ByteStream) : (b.withStream t).cur = b.cur := rfl
@[simp] theorem Block.withStream_phase (t : ByteStream) : (b.withStream t).phase = b.phase := rfl
@[simp] theorem Block.withStream_lastStatus (t : ByteStream) : (b.withStream t).lastStatus = b.lastStatus := rfl
@[simp] theorem Block.withStream_rsp (t : ByteStream) : (b.withStream t).rsp = b.rsp := rfl
@[simp] theorem Block.withStream_port (t : ByteStream) : (b.withStream t).port = b.port := rfl
@[simp] theorem Block.withStream_live (t : ByteStream) : (b.withStream t).live = b.live := rfl
@[simp] theorem Block.withStream_stream (t : ByteStream) : (b.withStream t).stream = t := rfl
@[simp] theorem Block.withStream_hostMem (t : ByteStream) : (b.withStream t).hostMem = b.hostMem := rfl
@[simp] theorem Block.withStream_host (t : ByteStream) : (b.withStream t).host = b.host := rfl

/-! ### `Block.advance` -/

@[simp] theorem Block.advance_memorySize : (b.advance).memorySize = b.memorySize := rfl
@[simp] theorem Block.advance_maxAreas : (b.advance).maxAreas = b.maxAreas := rfl
@[simp] theorem Block.advance_endian : (b.advance).endian = b.endian := rfl
@[simp] theorem Block.advance_pmem : (b.advance).pmem = b.pmem := rfl
@[simp] theorem Block.advance_areas : (b.advance).areas = b.areas := rfl
@[simp] theorem Block.advance_nextFree : (b.advance).nextFree = b.nextFree := rfl
@[simp] theorem Block.advance_acc : (b.advance).acc = b.acc := rfl
@[simp] theorem Block.advance_off : (b.advance).off = b.off := rfl
@[simp] theorem Block.advance_cnt : (b.advance).cnt = b.cnt := rfl
@[simp] theorem Block.advance_kind : (b.advance).kind = b.kind := rfl
@[simp] theorem Block.advance_rem : (b.advance).rem = b.rem := rfl
@[simp] theorem Block.advance_bits : (b.advance).bits = b.bits := rfl
@[simp] theorem Block.advance_cur : (b.advance).cur = b.cur + 1 := rfl
@[simp] theorem Block.advance_phase : (b.advance).phase = b.phase := rfl
@[simp] theorem Block.advance_lastStatus : (b.advance).lastStatus = b.lastStatus := rfl
@[simp] theorem Block.advance_rsp : (b.advance).rsp = b.rsp := rfl
@[simp] theorem Block.advance_port : (b.advance).port = b.port := rfl
@[simp] theorem Block.advance_live : (b.advance).live = b.live := rfl
@[simp] theorem Block.advance_stream : (b.advance).stream = b.stream := rfl
@[simp] theorem Block.advance_hostMem : (b.advance).hostMem = b.hostMem := rfl
@[simp] theorem Block.advance_host : (b.advance).host = b.host := rfl

/-! ### `Block.present` -/

@[simp] theorem Block.present_memorySize (r : Request w) : (b.present r).memorySize = b.memorySize := rfl
@[simp] theorem Block.present_maxAreas (r : Request w) : (b.present r).maxAreas = b.maxAreas := rfl
@[simp] theorem Block.present_endian (r : Request w) : (b.present r).endian = b.endian := rfl
@[simp] theorem Block.present_pmem (r : Request w) : (b.present r).pmem = b.pmem := rfl
@[simp] theorem Block.present_areas (r : Request w) : (b.present r).areas = b.areas := rfl
@[simp] theorem Block.present_nextFree (r : Request w) : (b.present r).nextFree = b.nextFree := rfl
@[simp] theorem Block.present_acc (r : Request w) : (b.present r).acc = b.acc := rfl
@[simp] theorem Block.present_off (r : Request w) : (b.present r).off = b.off := rfl
@[simp] theorem Block.present_cnt (r : Request w) : (b.present r).cnt = b.cnt := rfl
@[simp] theorem Block.present_kind (r : Request w) : (b.present r).kind = b.kind := rfl
@[simp] theorem Block.present_rem (r : Request w) : (b.present r).rem = b.rem := rfl
@[simp] theorem Block.present_bits (r : Request w) : (b.present r).bits = b.bits := rfl
@[simp] theorem Block.present_cur (r : Request w) : (b.present r).cur = b.cur := rfl
@[simp] theorem Block.present_phase (r : Request w) : (b.present r).phase = b.phase := rfl
@[simp] theorem Block.present_lastStatus (r : Request w) : (b.present r).lastStatus = b.lastStatus := rfl
@[simp] theorem Block.present_rsp (r : Request w) : (b.present r).rsp = b.rsp := rfl
@[simp] theorem Block.present_port (r : Request w) : (b.present r).port = r := rfl
@[simp] theorem Block.present_live (r : Request w) : (b.present r).live = b.live := rfl
@[simp] theorem Block.present_stream (r : Request w) : (b.present r).stream = b.stream := rfl
@[simp] theorem Block.present_hostMem (r : Request w) : (b.present r).hostMem = b.hostMem := rfl
@[simp] theorem Block.present_host (r : Request w) : (b.present r).host = b.host := rfl

/-! ### `Block.withHost` -/

@[simp] theorem Block.withHost_memorySize (rest : List (HostAction w)) :
    (b.withHost rest).memorySize = b.memorySize := rfl
@[simp] theorem Block.withHost_maxAreas (rest : List (HostAction w)) : (b.withHost rest).maxAreas = b.maxAreas := rfl
@[simp] theorem Block.withHost_endian (rest : List (HostAction w)) : (b.withHost rest).endian = b.endian := rfl
@[simp] theorem Block.withHost_pmem (rest : List (HostAction w)) : (b.withHost rest).pmem = b.pmem := rfl
@[simp] theorem Block.withHost_areas (rest : List (HostAction w)) : (b.withHost rest).areas = b.areas := rfl
@[simp] theorem Block.withHost_nextFree (rest : List (HostAction w)) : (b.withHost rest).nextFree = b.nextFree := rfl
@[simp] theorem Block.withHost_acc (rest : List (HostAction w)) : (b.withHost rest).acc = b.acc := rfl
@[simp] theorem Block.withHost_off (rest : List (HostAction w)) : (b.withHost rest).off = b.off := rfl
@[simp] theorem Block.withHost_cnt (rest : List (HostAction w)) : (b.withHost rest).cnt = b.cnt := rfl
@[simp] theorem Block.withHost_kind (rest : List (HostAction w)) : (b.withHost rest).kind = b.kind := rfl
@[simp] theorem Block.withHost_rem (rest : List (HostAction w)) : (b.withHost rest).rem = b.rem := rfl
@[simp] theorem Block.withHost_bits (rest : List (HostAction w)) : (b.withHost rest).bits = b.bits := rfl
@[simp] theorem Block.withHost_cur (rest : List (HostAction w)) : (b.withHost rest).cur = b.cur := rfl
@[simp] theorem Block.withHost_phase (rest : List (HostAction w)) : (b.withHost rest).phase = b.phase := rfl
@[simp] theorem Block.withHost_lastStatus (rest : List (HostAction w)) :
    (b.withHost rest).lastStatus = b.lastStatus := rfl
@[simp] theorem Block.withHost_rsp (rest : List (HostAction w)) : (b.withHost rest).rsp = b.rsp := rfl
@[simp] theorem Block.withHost_port (rest : List (HostAction w)) : (b.withHost rest).port = b.port := rfl
@[simp] theorem Block.withHost_live (rest : List (HostAction w)) : (b.withHost rest).live = b.live := rfl
@[simp] theorem Block.withHost_stream (rest : List (HostAction w)) : (b.withHost rest).stream = b.stream := rfl
@[simp] theorem Block.withHost_hostMem (rest : List (HostAction w)) : (b.withHost rest).hostMem = b.hostMem := rfl
@[simp] theorem Block.withHost_host (rest : List (HostAction w)) : (b.withHost rest).host = rest := rfl

/-! ### `Block.hostWrites` -/

@[simp] theorem Block.hostWrites_memorySize (a : Nat) (x : Byte) : (b.hostWrites a x).memorySize = b.memorySize := rfl
@[simp] theorem Block.hostWrites_maxAreas (a : Nat) (x : Byte) : (b.hostWrites a x).maxAreas = b.maxAreas := rfl
@[simp] theorem Block.hostWrites_endian (a : Nat) (x : Byte) : (b.hostWrites a x).endian = b.endian := rfl
@[simp] theorem Block.hostWrites_pmem (a : Nat) (x : Byte) : (b.hostWrites a x).pmem = b.pmem := rfl
@[simp] theorem Block.hostWrites_areas (a : Nat) (x : Byte) : (b.hostWrites a x).areas = b.areas := rfl
@[simp] theorem Block.hostWrites_nextFree (a : Nat) (x : Byte) : (b.hostWrites a x).nextFree = b.nextFree := rfl
@[simp] theorem Block.hostWrites_acc (a : Nat) (x : Byte) : (b.hostWrites a x).acc = b.acc := rfl
@[simp] theorem Block.hostWrites_off (a : Nat) (x : Byte) : (b.hostWrites a x).off = b.off := rfl
@[simp] theorem Block.hostWrites_cnt (a : Nat) (x : Byte) : (b.hostWrites a x).cnt = b.cnt := rfl
@[simp] theorem Block.hostWrites_kind (a : Nat) (x : Byte) : (b.hostWrites a x).kind = b.kind := rfl
@[simp] theorem Block.hostWrites_rem (a : Nat) (x : Byte) : (b.hostWrites a x).rem = b.rem := rfl
@[simp] theorem Block.hostWrites_bits (a : Nat) (x : Byte) : (b.hostWrites a x).bits = b.bits := rfl
@[simp] theorem Block.hostWrites_cur (a : Nat) (x : Byte) : (b.hostWrites a x).cur = b.cur := rfl
@[simp] theorem Block.hostWrites_phase (a : Nat) (x : Byte) : (b.hostWrites a x).phase = b.phase := rfl
@[simp] theorem Block.hostWrites_lastStatus (a : Nat) (x : Byte) : (b.hostWrites a x).lastStatus = b.lastStatus := rfl
@[simp] theorem Block.hostWrites_rsp (a : Nat) (x : Byte) : (b.hostWrites a x).rsp = b.rsp := rfl
@[simp] theorem Block.hostWrites_port (a : Nat) (x : Byte) : (b.hostWrites a x).port = b.port := rfl
@[simp] theorem Block.hostWrites_live (a : Nat) (x : Byte) : (b.hostWrites a x).live = b.live := rfl
@[simp] theorem Block.hostWrites_stream (a : Nat) (x : Byte) : (b.hostWrites a x).stream = b.stream := rfl
@[simp] theorem Block.hostWrites_hostMem (a : Nat) (x : Byte) :
    (b.hostWrites a x).hostMem = b.hostMem.write a x := rfl
@[simp] theorem Block.hostWrites_host (a : Nat) (x : Byte) : (b.hostWrites a x).host = b.host := rfl

/-! ### `Block.releaseAll` -/

@[simp] theorem Block.releaseAll_memorySize : (b.releaseAll).memorySize = b.memorySize := rfl
@[simp] theorem Block.releaseAll_maxAreas : (b.releaseAll).maxAreas = b.maxAreas := rfl
@[simp] theorem Block.releaseAll_endian : (b.releaseAll).endian = b.endian := rfl
@[simp] theorem Block.releaseAll_pmem : (b.releaseAll).pmem = b.pmem := rfl
@[simp] theorem Block.releaseAll_areas : (b.releaseAll).areas = b.areas := rfl
@[simp] theorem Block.releaseAll_nextFree : (b.releaseAll).nextFree = b.nextFree := rfl
@[simp] theorem Block.releaseAll_acc : (b.releaseAll).acc = b.acc := rfl
@[simp] theorem Block.releaseAll_off : (b.releaseAll).off = b.off := rfl
@[simp] theorem Block.releaseAll_cnt : (b.releaseAll).cnt = b.cnt := rfl
@[simp] theorem Block.releaseAll_kind : (b.releaseAll).kind = b.kind := rfl
@[simp] theorem Block.releaseAll_rem : (b.releaseAll).rem = b.rem := rfl
@[simp] theorem Block.releaseAll_bits : (b.releaseAll).bits = b.bits := rfl
@[simp] theorem Block.releaseAll_cur : (b.releaseAll).cur = b.cur := rfl
@[simp] theorem Block.releaseAll_phase : (b.releaseAll).phase = b.phase := rfl
@[simp] theorem Block.releaseAll_lastStatus : (b.releaseAll).lastStatus = b.lastStatus := rfl
@[simp] theorem Block.releaseAll_rsp : (b.releaseAll).rsp = b.rsp := rfl
@[simp] theorem Block.releaseAll_port : (b.releaseAll).port = b.port := rfl
@[simp] theorem Block.releaseAll_live : (b.releaseAll).live = false := rfl
@[simp] theorem Block.releaseAll_stream : (b.releaseAll).stream = b.stream := rfl
@[simp] theorem Block.releaseAll_hostMem : (b.releaseAll).hostMem = b.hostMem := rfl
@[simp] theorem Block.releaseAll_host : (b.releaseAll).host = b.host := rfl

/-! ### `Block.withAgents` -/

@[simp] theorem Block.withAgents_memorySize (old : Block w) : (b.withAgents old).memorySize = b.memorySize := rfl
@[simp] theorem Block.withAgents_maxAreas (old : Block w) : (b.withAgents old).maxAreas = b.maxAreas := rfl
@[simp] theorem Block.withAgents_endian (old : Block w) : (b.withAgents old).endian = b.endian := rfl
@[simp] theorem Block.withAgents_pmem (old : Block w) : (b.withAgents old).pmem = b.pmem := rfl
@[simp] theorem Block.withAgents_areas (old : Block w) : (b.withAgents old).areas = b.areas := rfl
@[simp] theorem Block.withAgents_nextFree (old : Block w) : (b.withAgents old).nextFree = b.nextFree := rfl
@[simp] theorem Block.withAgents_acc (old : Block w) : (b.withAgents old).acc = b.acc := rfl
@[simp] theorem Block.withAgents_off (old : Block w) : (b.withAgents old).off = b.off := rfl
@[simp] theorem Block.withAgents_cnt (old : Block w) : (b.withAgents old).cnt = b.cnt := rfl
@[simp] theorem Block.withAgents_kind (old : Block w) : (b.withAgents old).kind = b.kind := rfl
@[simp] theorem Block.withAgents_rem (old : Block w) : (b.withAgents old).rem = b.rem := rfl
@[simp] theorem Block.withAgents_bits (old : Block w) : (b.withAgents old).bits = b.bits := rfl
@[simp] theorem Block.withAgents_cur (old : Block w) : (b.withAgents old).cur = b.cur := rfl
@[simp] theorem Block.withAgents_phase (old : Block w) : (b.withAgents old).phase = b.phase := rfl
@[simp] theorem Block.withAgents_lastStatus (old : Block w) : (b.withAgents old).lastStatus = b.lastStatus := rfl
@[simp] theorem Block.withAgents_rsp (old : Block w) : (b.withAgents old).rsp = b.rsp := rfl
@[simp] theorem Block.withAgents_port (old : Block w) : (b.withAgents old).port = b.port := rfl
@[simp] theorem Block.withAgents_live (old : Block w) : (b.withAgents old).live = b.live := rfl
@[simp] theorem Block.withAgents_stream (old : Block w) : (b.withAgents old).stream = old.stream := rfl
@[simp] theorem Block.withAgents_hostMem (old : Block w) : (b.withAgents old).hostMem = old.hostMem := rfl
@[simp] theorem Block.withAgents_host (old : Block w) : (b.withAgents old).host = old.host := rfl

/-! ### `Block.appendArea` -/

@[simp] theorem Block.appendArea_memorySize (l : Nat) (d : Buffer) :
    (b.appendArea l d).memorySize = b.memorySize := rfl
@[simp] theorem Block.appendArea_maxAreas (l : Nat) (d : Buffer) : (b.appendArea l d).maxAreas = b.maxAreas := rfl
@[simp] theorem Block.appendArea_endian (l : Nat) (d : Buffer) : (b.appendArea l d).endian = b.endian := rfl
@[simp] theorem Block.appendArea_pmem (l : Nat) (d : Buffer) : (b.appendArea l d).pmem = b.pmem := rfl
@[simp] theorem Block.appendArea_areas (l : Nat) (d : Buffer) :
    (b.appendArea l d).areas = b.areas ++
      [{ base := b.nextFree.setWidth w.bits, size := BitVec.ofNat w.bits l, data := d.start }] := rfl
@[simp] theorem Block.appendArea_nextFree (l : Nat) (d : Buffer) :
    (b.appendArea l d).nextFree = b.nextFree + BitVec.ofNat (w.bits + 1) l := rfl
@[simp] theorem Block.appendArea_acc (l : Nat) (d : Buffer) : (b.appendArea l d).acc = b.acc := rfl
@[simp] theorem Block.appendArea_off (l : Nat) (d : Buffer) : (b.appendArea l d).off = b.off := rfl
@[simp] theorem Block.appendArea_cnt (l : Nat) (d : Buffer) : (b.appendArea l d).cnt = b.cnt := rfl
@[simp] theorem Block.appendArea_kind (l : Nat) (d : Buffer) : (b.appendArea l d).kind = b.kind := rfl
@[simp] theorem Block.appendArea_rem (l : Nat) (d : Buffer) : (b.appendArea l d).rem = b.rem := rfl
@[simp] theorem Block.appendArea_bits (l : Nat) (d : Buffer) : (b.appendArea l d).bits = b.bits := rfl
@[simp] theorem Block.appendArea_cur (l : Nat) (d : Buffer) : (b.appendArea l d).cur = b.cur := rfl
@[simp] theorem Block.appendArea_phase (l : Nat) (d : Buffer) : (b.appendArea l d).phase = b.phase := rfl
@[simp] theorem Block.appendArea_lastStatus (l : Nat) (d : Buffer) :
    (b.appendArea l d).lastStatus = b.lastStatus := rfl
@[simp] theorem Block.appendArea_rsp (l : Nat) (d : Buffer) : (b.appendArea l d).rsp = b.rsp := rfl
@[simp] theorem Block.appendArea_port (l : Nat) (d : Buffer) : (b.appendArea l d).port = b.port := rfl
@[simp] theorem Block.appendArea_live (l : Nat) (d : Buffer) : (b.appendArea l d).live = b.live := rfl
@[simp] theorem Block.appendArea_stream (l : Nat) (d : Buffer) : (b.appendArea l d).stream = b.stream := rfl
@[simp] theorem Block.appendArea_hostMem (l : Nat) (d : Buffer) : (b.appendArea l d).hostMem = b.hostMem := rfl
@[simp] theorem Block.appendArea_host (l : Nat) (d : Buffer) : (b.appendArea l d).host = b.host := rfl

/-! ### `Block.runAlign` -/

@[simp] theorem Block.runAlign_memorySize : (b.runAlign).memorySize = b.memorySize := rfl
@[simp] theorem Block.runAlign_maxAreas : (b.runAlign).maxAreas = b.maxAreas := rfl
@[simp] theorem Block.runAlign_endian : (b.runAlign).endian = b.endian := rfl
@[simp] theorem Block.runAlign_pmem : (b.runAlign).pmem = b.pmem := rfl
@[simp] theorem Block.runAlign_areas : (b.runAlign).areas = b.areas := rfl
@[simp] theorem Block.runAlign_nextFree :
    (b.runAlign).nextFree = BitVec.ofNat (w.bits + 1) (roundup b.nextFree.toNat w.bytes) := rfl
@[simp] theorem Block.runAlign_acc : (b.runAlign).acc = b.acc := rfl
@[simp] theorem Block.runAlign_off : (b.runAlign).off = b.off := rfl
@[simp] theorem Block.runAlign_cnt : (b.runAlign).cnt = b.cnt := rfl
@[simp] theorem Block.runAlign_kind : (b.runAlign).kind = b.kind := rfl
@[simp] theorem Block.runAlign_rem : (b.runAlign).rem = b.rem := rfl
@[simp] theorem Block.runAlign_bits : (b.runAlign).bits = b.bits := rfl
@[simp] theorem Block.runAlign_cur : (b.runAlign).cur = b.cur := rfl
@[simp] theorem Block.runAlign_phase : (b.runAlign).phase = b.phase := rfl
@[simp] theorem Block.runAlign_lastStatus : (b.runAlign).lastStatus = b.lastStatus := rfl
@[simp] theorem Block.runAlign_rsp : (b.runAlign).rsp = b.rsp := rfl
@[simp] theorem Block.runAlign_port : (b.runAlign).port = b.port := rfl
@[simp] theorem Block.runAlign_live : (b.runAlign).live = b.live := rfl
@[simp] theorem Block.runAlign_stream : (b.runAlign).stream = b.stream := rfl
@[simp] theorem Block.runAlign_hostMem : (b.runAlign).hostMem = b.hostMem := rfl
@[simp] theorem Block.runAlign_host : (b.runAlign).host = b.host := rfl

/-! ### `Block.writeSlot`: only the two storages change -/

@[simp] theorem Block.writeSlot_memorySize (p : Slot) (x : Byte) : (b.writeSlot p x).memorySize = b.memorySize := by
  cases p <;> rfl
@[simp] theorem Block.writeSlot_maxAreas (p : Slot) (x : Byte) : (b.writeSlot p x).maxAreas = b.maxAreas := by
  cases p <;> rfl
@[simp] theorem Block.writeSlot_endian (p : Slot) (x : Byte) : (b.writeSlot p x).endian = b.endian := by
  cases p <;> rfl
@[simp] theorem Block.writeSlot_primary_pmem (i : Nat) (x : Byte) :
    (b.writeSlot (.primary i) x).pmem = b.pmem.write i x := rfl
@[simp] theorem Block.writeSlot_host_pmem (a : Nat) (x : Byte) : (b.writeSlot (.host a) x).pmem = b.pmem := rfl
@[simp] theorem Block.writeSlot_areas (p : Slot) (x : Byte) : (b.writeSlot p x).areas = b.areas := by
  cases p <;> rfl
@[simp] theorem Block.writeSlot_nextFree (p : Slot) (x : Byte) : (b.writeSlot p x).nextFree = b.nextFree := by
  cases p <;> rfl
@[simp] theorem Block.writeSlot_acc (p : Slot) (x : Byte) : (b.writeSlot p x).acc = b.acc := by
  cases p <;> rfl
@[simp] theorem Block.writeSlot_off (p : Slot) (x : Byte) : (b.writeSlot p x).off = b.off := by
  cases p <;> rfl
@[simp] theorem Block.writeSlot_cnt (p : Slot) (x : Byte) : (b.writeSlot p x).cnt = b.cnt := by
  cases p <;> rfl
@[simp] theorem Block.writeSlot_kind (p : Slot) (x : Byte) : (b.writeSlot p x).kind = b.kind := by
  cases p <;> rfl
@[simp] theorem Block.writeSlot_rem (p : Slot) (x : Byte) : (b.writeSlot p x).rem = b.rem := by
  cases p <;> rfl
@[simp] theorem Block.writeSlot_bits (p : Slot) (x : Byte) : (b.writeSlot p x).bits = b.bits := by
  cases p <;> rfl
@[simp] theorem Block.writeSlot_cur (p : Slot) (x : Byte) : (b.writeSlot p x).cur = b.cur := by
  cases p <;> rfl
@[simp] theorem Block.writeSlot_phase (p : Slot) (x : Byte) : (b.writeSlot p x).phase = b.phase := by
  cases p <;> rfl
@[simp] theorem Block.writeSlot_lastStatus (p : Slot) (x : Byte) : (b.writeSlot p x).lastStatus = b.lastStatus := by
  cases p <;> rfl
@[simp] theorem Block.writeSlot_rsp (p : Slot) (x : Byte) : (b.writeSlot p x).rsp = b.rsp := by
  cases p <;> rfl
@[simp] theorem Block.writeSlot_port (p : Slot) (x : Byte) : (b.writeSlot p x).port = b.port := by
  cases p <;> rfl
@[simp] theorem Block.writeSlot_live (p : Slot) (x : Byte) : (b.writeSlot p x).live = b.live := by
  cases p <;> rfl
@[simp] theorem Block.writeSlot_stream (p : Slot) (x : Byte) : (b.writeSlot p x).stream = b.stream := by
  cases p <;> rfl
@[simp] theorem Block.writeSlot_primary_hostMem (i : Nat) (x : Byte) :
    (b.writeSlot (.primary i) x).hostMem = b.hostMem := rfl
@[simp] theorem Block.writeSlot_host_hostMem (a : Nat) (x : Byte) :
    (b.writeSlot (.host a) x).hostMem = b.hostMem.write a x := rfl
@[simp] theorem Block.writeSlot_host (p : Slot) (x : Byte) : (b.writeSlot p x).host = b.host := by
  cases p <;> rfl

/-! ### Storage and the region map read only their own fields -/

@[simp] theorem Block.endCommand_readSlot (st : Status) (f : Response w) (p : Slot) :
    (b.endCommand st f).readSlot p = b.readSlot p := by
  cases p <;> rfl

@[simp] theorem Block.writeSlot_locate (p : Slot) (x : Byte) (a l : Nat) :
    (b.writeSlot p x).locate a l = b.locate a l := by
  cases p <;> rfl

@[simp] theorem Block.writeSlot_resolve (p : Slot) (x : Byte) (a l : Nat) (g : Granularity) :
    (b.writeSlot p x).resolve a l g = b.resolve a l g := by
  cases p <;> rfl

end Sys2Proof.Machine
end

