-- ==== Sys2Proof/Laws/Ops.lean ====
section
/-! SUPPORT. One lemma per shared operation that says once everything it can do: running on the block, taking a command,
the validator, storage, the two transports, the encoder's byte step and one step of the machine. -/

namespace Sys2Proof.Machine

open Sys2Proof

variable {w : Width}

/-! ### Running an operation of the block -/

/-- An operation of the block that answers a next state keeps the width. -/
theorem State.onBlock_next {s t : State} {f : Block s.width → Host.Outcome (Block s.width) Fault Refusal}
    (h : s.onBlock f = .next t) : ∃ c, f s.block = .next c ∧ t = ⟨s.width, c⟩ := by
  unfold State.onBlock at h
  split at h
  · next c hc => exact ⟨c, hc, by injection h with h; exact h.symm⟩
  · cases h
  · cases h

@[simp] theorem State.onBlock_of_next {b c : Block w} {f : Block w → Host.Outcome (Block w) Fault Refusal}
    (h : f b = .next c) : State.onBlock ⟨w, b⟩ f = .next ⟨w, c⟩ := by
  simp only [State.onBlock, h]

theorem State.onBlock_of_fault {b : Block w} {r : Fault} {f : Block w → Host.Outcome (Block w) Fault Refusal}
    (h : f b = .fault r) : State.onBlock ⟨w, b⟩ f = .fault r := by
  simp only [State.onBlock, h]

theorem State.onBlock_of_refused {b : Block w} {r : Refusal} {f : Block w → Host.Outcome (Block w) Fault Refusal}
    (h : f b = .refused r) : State.onBlock ⟨w, b⟩ f = .refused r := by
  simp only [State.onBlock, h]

/-! ### Taking a command -/

/-- A machine that is ready runs the command. -/
theorem Block.command_ready {b : Block w} (h : b.ready) (f : Block w → Host.Outcome (Block w) Fault Refusal) :
    b.command f = f b := by
  simp [Block.command, h.1, h.2]

/-- A command answers a next state only from a machine that is ready. -/
theorem Block.command_next {b c : Block w} {f : Block w → Host.Outcome (Block w) Fault Refusal}
    (h : b.command f = .next c) : b.ready ∧ f b = .next c := by
  unfold Block.command at h
  split at h
  · cases h
  · split at h
    · next hl hp => exact ⟨⟨by simpa using hl, hp⟩, h⟩
    · cases h

/-- A wire byte answers a next state only while a decode waits for it. -/
theorem Block.decoding_next {b c : Block w} {f : CodecOp → Block w} (h : b.decoding f = .next c) :
    ∃ op, b.phase = .busy op .transfer ∧ op.decodes = true ∧ c = f op := by
  unfold Block.decoding at h
  split at h
  · next op hp =>
    split at h
    · next hd => exact ⟨op, hp, hd, by injection h with h; exact h.symm⟩
    · cases h
  · cases h

/-- While a decode waits, the wire byte runs. -/
theorem Block.decoding_busy {b : Block w} {op : CodecOp} (hp : b.phase = .busy op .transfer)
    (hd : op.decodes = true) (f : CodecOp → Block w) : b.decoding f = .next (f op) := by
  simp [Block.decoding, hp, hd]

/-! ### The validator -/

theorem Area.holds_iff {r : Area w} {a l : Nat} :
    r.holds a l = true ↔ r.base.toNat ≤ a ∧ a + l ≤ r.base.toNat + r.size.toNat := by
  simp [Area.holds]

/-- The search finds nothing exactly when no area holds the range. -/
theorem findArea_eq_none {a l i : Nat} {rs : List (Area w)} :
    findArea a l i rs = none ↔ ∀ r ∈ rs, r.holds a l = false := by
  induction rs generalizing i with
  | nil => simp [findArea]
  | cons r rs ih =>
    simp only [findArea]
    split
    · next h => simp [h]
    · next h => simp [ih, h]

/-- The search finds the least index whose area holds the range. -/
theorem findArea_eq_some {a l i j : Nat} {r : Area w} {rs : List (Area w)} :
    findArea a l i rs = some (j, r) ↔
      ∃ k, j = i + k ∧ rs[k]? = some r ∧ r.holds a l = true ∧
        ∀ m < k, ∀ q, rs[m]? = some q → q.holds a l = false := by
  induction rs generalizing i with
  | nil => simp [findArea]
  | cons q rs ih =>
    simp only [findArea]
    split
    · next h =>
      constructor
      · intro e
        obtain ⟨rfl, rfl⟩ : i = j ∧ q = r := by simpa using e
        exact ⟨0, rfl, rfl, h, fun m hm => absurd hm (by omega)⟩
      · rintro ⟨k, rfl, hk, hr, hmin⟩
        cases k with
        | zero =>
          obtain rfl : q = r := by simpa using hk
          rfl
        | succ k =>
          have := hmin 0 (by omega) q rfl
          rw [h] at this
          cases this
    · next h =>
      rw [ih]
      constructor
      · rintro ⟨k, rfl, hk, hr, hmin⟩
        refine ⟨k + 1, by omega, by simpa using hk, hr, fun m hm p hp => ?_⟩
        cases m with
        | zero =>
          obtain rfl : q = p := by simpa using hp
          simpa using h
        | succ m => exact hmin m (by omega) p (by simpa using hp)
      · rintro ⟨k, rfl, hk, hr, hmin⟩
        cases k with
        | zero =>
          obtain rfl : q = r := by simpa using hk
          exact absurd hr h
        | succ k =>
          exact ⟨k, by omega, by simpa using hk, hr, fun m hm p hp => hmin (m + 1) (by omega) p (by simpa using hp)⟩

/-- Where a range lies: in the primary region, else in the area of least index that holds it. -/
theorem Block.locate_eq_some {b : Block w} {a l region offset : Nat} {p : Slot} :
    b.locate a l = some (region, offset, p) ↔
      (a + l ≤ b.memorySize.toNat ∧ region = 0 ∧ offset = a ∧ p = .primary a) ∨
      (b.memorySize.toNat < a + l ∧ ∃ i r, b.areas[i]? = some r ∧ r.holds a l = true ∧
        (∀ j < i, ∀ q, b.areas[j]? = some q → q.holds a l = false) ∧
        region = i + 1 ∧ offset = a - r.base.toNat ∧ p = .host (r.data + (a - r.base.toNat))) := by
  unfold Block.locate
  split
  · next h =>
    constructor
    · intro e
      simp only [Option.some.injEq, Prod.mk.injEq] at e
      exact .inl ⟨h, e.1.symm, e.2.1.symm, e.2.2.symm⟩
    · rintro (⟨-, rfl, rfl, rfl⟩ | ⟨h', -⟩)
      · rfl
      · omega
  · next h =>
    split
    · next i r hf =>
      obtain ⟨k, hk, hr, hh, hmin⟩ := findArea_eq_some.1 hf
      rw [Nat.zero_add] at hk
      subst hk
      constructor
      · intro e
        simp only [Option.some.injEq, Prod.mk.injEq] at e
        exact .inr ⟨by omega, i, r, hr, hh, hmin, e.1.symm, e.2.1.symm, e.2.2.symm⟩
      · rintro (⟨h', -⟩ | ⟨-, i', r', hr', hh', hmin', rfl, rfl, rfl⟩)
        · omega
        · have : findArea a l 0 b.areas = some (i', r') :=
            findArea_eq_some.2 ⟨i', by omega, hr', hh', hmin'⟩
          rw [hf] at this
          obtain ⟨rfl, rfl⟩ : i = i' ∧ r = r' := by simpa using this
          rfl
    · next hf =>
      constructor
      · intro e
        cases e
      · rintro (⟨h', -⟩ | ⟨-, i', r', hr', hh', -⟩)
        · omega
        · have := findArea_eq_none.1 hf r' (List.mem_of_getElem? hr')
          rw [hh'] at this
          cases this

/-- A range lies nowhere when neither the primary region nor an area holds it. -/
theorem Block.locate_eq_none {b : Block w} {a l : Nat} :
    b.locate a l = none ↔ b.memorySize.toNat < a + l ∧ ∀ r ∈ b.areas, r.holds a l = false := by
  unfold Block.locate
  split
  · next h =>
    constructor
    · intro e
      cases e
    · intro e
      omega
  · next h =>
    split
    · next i r hf =>
      constructor
      · intro e
        cases e
      · rintro ⟨-, hn⟩
        rw [findArea_eq_none.2 hn] at hf
        cases hf
    · next hf => exact ⟨fun _ => ⟨by omega, findArea_eq_none.1 hf⟩, fun _ => rfl⟩

/-- Resolve answers a place: the range lies there, and a WORD access is aligned. -/
theorem Block.resolve_eq_found {b : Block w} {a l region offset : Nat} {g : Granularity} {p : Slot} :
    b.resolve a l g = .found region offset p ↔
      b.locate a l = some (region, offset, p) ∧ (g = .word → a % w.bytes = 0) := by
  unfold Block.resolve
  cases h : b.locate a l with
  | none => simp
  | some q =>
    obtain ⟨region', offset', p'⟩ := q
    dsimp only
    by_cases hg : g = .word ∧ a % w.bytes ≠ 0
    · rw [if_pos hg]
      constructor
      · intro e
        cases e
      · rintro ⟨-, h2⟩
        exact absurd (h2 hg.1) hg.2
    · rw [if_neg hg]
      constructor
      · intro e
        injection e with e1 e2 e3
        subst e1 e2 e3
        exact ⟨rfl, fun h1 => Classical.byContradiction fun h2 => hg ⟨h1, h2⟩⟩
      · rintro ⟨e, -⟩
        injection e with e
        injection e with e1 e
        injection e with e2 e3
        subst e1 e2 e3
        rfl

/-- Resolve answers INVALID_ADDRESS exactly when the range lies nowhere: bounds come first. -/
theorem Block.resolve_eq_invalid {b : Block w} {a l : Nat} {g : Granularity} :
    b.resolve a l g = .invalid ↔ b.locate a l = none := by
  unfold Block.resolve
  cases h : b.locate a l with
  | none => simp
  | some q =>
    obtain ⟨region', offset', p'⟩ := q
    dsimp only
    split <;> simp

/-- Resolve answers UNALIGNED_ADDRESS exactly for a misaligned WORD range that lies somewhere. -/
theorem Block.resolve_eq_unaligned {b : Block w} {a l : Nat} {g : Granularity} :
    b.resolve a l g = .unaligned ↔ (∃ q, b.locate a l = some q) ∧ g = .word ∧ a % w.bytes ≠ 0 := by
  unfold Block.resolve
  cases h : b.locate a l with
  | none => simp
  | some q =>
    obtain ⟨region', offset', p'⟩ := q
    dsimp only
    by_cases hg : g = .word ∧ a % w.bytes ≠ 0
    · simp [hg]
    · rw [if_neg hg]
      constructor
      · intro e
        cases e
      · rintro ⟨-, h1⟩
        exact absurd h1 hg

/-- A BYTE access is never unaligned (R52). -/
theorem Block.resolve_byte_ne_unaligned (b : Block w) (a l : Nat) : b.resolve a l .byte ≠ .unaligned := by
  intro h
  obtain ⟨-, h, -⟩ := Block.resolve_eq_unaligned.1 h
  cases h

/-! ### Storage -/

/-- A read after a write of storage: the written byte in its slot, every other slot as before. -/
theorem Block.readSlot_writeSlot {b : Block w} (hp : b.pmem.wf) (hh : b.hostMem.wf) (p q : Slot) (x : Byte) :
    (b.writeSlot p x).readSlot q = if q = p then x else b.readSlot q := by
  cases p with
  | primary i =>
    cases q with
    | primary j => simp [Block.readSlot, Memory.read_write hp]
    | host a => simp [Block.readSlot]
  | host i =>
    cases q with
    | primary j => simp [Block.readSlot]
    | host a => simp [Block.readSlot, Memory.read_write hh]

/-- A write of storage keeps both canonical forms. -/
theorem Block.writeSlot_wf {b : Block w} (hp : b.pmem.wf) (hh : b.hostMem.wf) (p : Slot) (x : Byte) :
    (b.writeSlot p x).pmem.wf ∧ (b.writeSlot p x).hostMem.wf := by
  cases p with
  | primary i => exact ⟨Memory.write_wf hp i x, hh⟩
  | host a => exact ⟨hp, Memory.write_wf hh a x⟩

/-! ### The transports -/

/-- What `Put` to memory can answer: the byte is written at `CUR` and `CUR` advances, or `CUR` is in no region. -/
theorem Block.memPut_cases (b : Block w) (x : Byte) :
    (∃ region offset p, b.resolve b.cur.toNat 1 .byte = .found region offset p ∧
      b.memPut x = .done (b.writeSlot p x).advance) ∨
    (b.resolve b.cur.toNat 1 .byte = .invalid ∧ b.memPut x = .failed .invalidAddress b) := by
  cases h : b.resolve b.cur.toNat 1 .byte with
  | found region offset p => exact .inl ⟨region, offset, p, rfl, by simp only [Block.memPut, h]⟩
  | invalid => exact .inr ⟨rfl, by simp only [Block.memPut, h]⟩
  | unaligned => exact absurd h (b.resolve_byte_ne_unaligned _ _)

/-- What `Get` from memory can answer: the byte at `CUR`, and `CUR` advances, or `CUR` is in no region. -/
theorem Block.memGet_cases (b : Block w) :
    (∃ region offset p, b.resolve b.cur.toNat 1 .byte = .found region offset p ∧
      b.memGet = .got (b.readSlot p) b.advance) ∨
    (b.resolve b.cur.toNat 1 .byte = .invalid ∧ b.memGet = .failed .invalidAddress b) := by
  cases h : b.resolve b.cur.toNat 1 .byte with
  | found region offset p => exact .inl ⟨region, offset, p, rfl, by simp only [Block.memGet, h]⟩
  | invalid => exact .inr ⟨rfl, by simp only [Block.memGet, h]⟩
  | unaligned => exact absurd h (b.resolve_byte_ne_unaligned _ _)

/-- What `Put` to the stream can answer: taken, refused by the stream, no stream, or no answer yet. -/
theorem Block.streamPut_cases (b : Block w) (x : Byte) :
    (∃ rest, b.stream.attached = true ∧ b.stream.writes = .ok :: rest ∧
      b.streamPut x = .done (b.withStream { b.stream with writes := rest, written := b.stream.written ++ [x] })) ∨
    (∃ rest, b.stream.attached = true ∧ b.stream.writes = .err :: rest ∧
      b.streamPut x = .failed .ioError (b.withStream { b.stream with writes := rest })) ∨
    (b.stream.attached = false ∧ b.streamPut x = .failed .ioError b) ∨
    (b.stream.attached = true ∧ b.stream.writes = [] ∧ b.streamPut x = .waiting) := by
  cases ha : b.stream.attached with
  | false => exact .inr (.inr (.inl ⟨rfl, by simp [Block.streamPut, ha]⟩))
  | true =>
    cases hw : b.stream.writes with
    | nil => exact .inr (.inr (.inr ⟨rfl, rfl, by simp [Block.streamPut, ha, hw]⟩))
    | cons y rest =>
      cases y with
      | ok => exact .inl ⟨rest, rfl, rfl, by simp [Block.streamPut, ha, hw]⟩
      | err => exact .inr (.inl ⟨rest, rfl, rfl, by simp [Block.streamPut, ha, hw]⟩)

/-- What `Get` from the stream can answer: a byte, a failure (EOF or ERR), no stream, or no answer yet. -/
theorem Block.streamGet_cases (b : Block w) :
    (∃ x rest, b.stream.attached = true ∧ b.stream.reads = .byte x :: rest ∧
      b.streamGet = .got x (b.withStream { b.stream with reads := rest })) ∨
    (∃ y rest, (y = .eof ∨ y = .err) ∧ b.stream.attached = true ∧ b.stream.reads = y :: rest ∧
      b.streamGet = .failed .ioError (b.withStream { b.stream with reads := rest })) ∨
    (b.stream.attached = false ∧ b.streamGet = .failed .ioError b) ∨
    (b.stream.attached = true ∧ b.stream.reads = [] ∧ b.streamGet = .waiting) := by
  cases ha : b.stream.attached with
  | false => exact .inr (.inr (.inl ⟨rfl, by simp [Block.streamGet, ha]⟩))
  | true =>
    cases hr : b.stream.reads with
    | nil => exact .inr (.inr (.inr ⟨rfl, rfl, by simp [Block.streamGet, ha, hr]⟩))
    | cons y rest =>
      cases y with
      | byte x => exact .inl ⟨x, rest, rfl, rfl, by simp [Block.streamGet, ha, hr]⟩
      | eof => exact .inr (.inl ⟨.eof, rest, .inl rfl, rfl, rfl, by simp [Block.streamGet, ha, hr]⟩)
      | err => exact .inr (.inl ⟨.err, rest, .inr rfl, rfl, rfl, by simp [Block.streamGet, ha, hr]⟩)

/-! ### Byte steps -/

/-- What one byte step of an encoder can do. -/
theorem Block.encodeStep_cases (b : Block w) (op : CodecOp) :
    (∃ c, b.put op (nextByte b.kind b.rem b.bits) = .done c ∧ 6 < b.bits ∧ b.encodeStep op = c.afterContPut) ∨
    (∃ c, b.put op (nextByte b.kind b.rem b.bits) = .done c ∧ b.bits ≤ 6 ∧
      b.encodeStep op = c.countByte.finish op .encoded) ∨
    (∃ st c, b.put op (nextByte b.kind b.rem b.bits) = .failed st c ∧
      b.encodeStep op = c.finish op (.failed st)) ∨
    (b.put op (nextByte b.kind b.rem b.bits) = .waiting ∧ b.encodeStep op = b) := by
  cases h : b.put op (nextByte b.kind b.rem b.bits) with
  | done c =>
    by_cases hb : 6 < b.bits
    · exact .inl ⟨c, rfl, hb, by simp [Block.encodeStep, h, hb]⟩
    · exact .inr (.inl ⟨c, rfl, by omega, by simp [Block.encodeStep, h, hb]⟩)
  | failed st c => exact .inr (.inr (.inl ⟨st, c, rfl, by simp [Block.encodeStep, h]⟩))
  | waiting => exact .inr (.inr (.inr ⟨rfl, by simp [Block.encodeStep, h]⟩))

/-- What a continuation byte does to a decoder: TOO_WIDE at the chunk limit, a chunk below it. -/
theorem Block.takeChunk_cases (b : Block w) (op : CodecOp) (c : BitVec 7) :
    (w.bits - 7 ≤ b.off ∧ b.takeChunk op c = b.countByte.finish op (.failed .tooWide)) ∨
    (b.off < w.bits - 7 ∧
      b.takeChunk op c = b.countByte.joinChunk c) := by
  by_cases h : w.bits - 7 ≤ b.off
  · exact .inl ⟨h, if_pos h⟩
  · exact .inr ⟨by omega, if_neg h⟩

/-- The response step ends the command with some status, and changes nothing but the response, LAST_STATUS and PHASE. -/
theorem Block.respondCodec_endCommand (b : Block w) (op : CodecOp) (res : CodecResult w) :
    ∃ st f, b.respondCodec op res = b.endCommand st f := by
  cases res with
  | encoded => exact ⟨_, _, rfl⟩
  | decoded v => exact ⟨_, _, rfl⟩
  | failed st => exact ⟨_, _, rfl⟩

/-- What ALLOC can do where it gives a next state: the host kept its duty, and one of its two failures or the new area is
answered. -/
theorem Block.runAlloc_next {b c : Block w} (h : b.runAlloc = .next c) :
    b.lengthOperand ≤ b.bufferOperand.length ∧
      ((b.areas.length = b.maxAreas ∧ c = b.endCommand .areaTableFull {}) ∨
        (b.areas.length ≠ b.maxAreas ∧ b.exhausted b.lengthOperand = true ∧
          c = b.endCommand .addressSpaceExhausted {}) ∨
        (b.areas.length ≠ b.maxAreas ∧ b.exhausted b.lengthOperand = false ∧
          c = (b.appendArea b.lengthOperand b.bufferOperand).endCommand .ok
            { base := some (b.nextFree.setWidth w.bits), region := some (b.areas.length + 1) })) := by
  unfold Block.runAlloc at h
  split at h
  · cases h
  · next hd =>
    refine ⟨Nat.le_of_not_lt hd, ?_⟩
    split at h
    · next ha => exact .inl ⟨ha, by injection h with h; exact h.symm⟩
    · next ha =>
      split at h
      · next he => exact .inr (.inl ⟨ha, he, by injection h with h; exact h.symm⟩)
      · next he => exact .inr (.inr ⟨ha, by simpa using he, by injection h with h; exact h.symm⟩)

/-! ### One step -/

/-- Everything one step can do, by PHASE. -/
theorem step_cases (b : Block w) :
    (b.phase = .idle ∧ b.host = [] ∧ step ⟨w, b⟩ = .next ⟨w, b⟩) ∨
    (∃ r rest, b.phase = .idle ∧ b.host = .command r :: rest ∧
      step ⟨w, b⟩ = exec (decodeCommand r.cmd) ⟨w, (b.withHost rest).present r⟩) ∨
    (∃ a rest, b.phase = .idle ∧ b.host = a :: rest ∧ (∀ r, a ≠ .command r) ∧
      step ⟨w, b⟩ = State.onBlock ⟨w, b.withHost rest⟩ fun c => c.act a) ∨
    (∃ op, b.phase = .busy op .transfer ∧ op.decodes = false ∧ step ⟨w, b⟩ = .next ⟨w, b.encodeStep op⟩) ∨
    (∃ op, b.phase = .busy op .transfer ∧ op.decodes = true ∧
      ((∃ x c, b.get op = .got x c ∧ step ⟨w, b⟩ = exec (decodeWire x) ⟨w, c⟩) ∨
       (∃ st c, b.get op = .failed st c ∧ step ⟨w, b⟩ = .next ⟨w, c.finish op (.failed st)⟩) ∨
       (b.get op = .waiting ∧ step ⟨w, b⟩ = .next ⟨w, b⟩))) ∨
    (∃ op res, b.phase = .busy op (.respond res) ∧ step ⟨w, b⟩ = .next ⟨w, b.respondCodec op res⟩) := by
  cases hp : b.phase with
  | idle =>
    cases hh : b.host with
    | nil => exact .inl ⟨rfl, rfl, by simp [step, State.fetch, hp, Block.fetchIdle, hh]⟩
    | cons a rest =>
      cases a with
      | command r =>
        exact .inr (.inl ⟨r, rest, rfl, rfl, by simp [step, State.fetch, hp, Block.fetchIdle, hh]⟩)
      | readResponse f =>
        exact .inr (.inr (.inl ⟨_, rest, rfl, rfl, by simp, by simp [step, State.fetch, hp, Block.fetchIdle, hh]⟩))
      | store a x =>
        exact .inr (.inr (.inl ⟨_, rest, rfl, rfl, by simp, by simp [step, State.fetch, hp, Block.fetchIdle, hh]⟩))
      | load a =>
        exact .inr (.inr (.inl ⟨_, rest, rfl, rfl, by simp, by simp [step, State.fetch, hp, Block.fetchIdle, hh]⟩))
      | hostStore a x =>
        exact .inr (.inr (.inl ⟨_, rest, rfl, rfl, by simp, by simp [step, State.fetch, hp, Block.fetchIdle, hh]⟩))
      | setStream t =>
        exact .inr (.inr (.inl ⟨_, rest, rfl, rfl, by simp, by simp [step, State.fetch, hp, Block.fetchIdle, hh]⟩))
      | release =>
        exact .inr (.inr (.inl ⟨_, rest, rfl, rfl, by simp, by simp [step, State.fetch, hp, Block.fetchIdle, hh]⟩))
      | construct n m =>
        exact .inr (.inr (.inl ⟨_, rest, rfl, rfl, by simp, by simp [step, State.fetch, hp, Block.fetchIdle, hh]⟩))
  | busy op stage =>
    cases stage with
    | respond res => exact .inr (.inr (.inr (.inr (.inr ⟨op, res, rfl, by simp [step, State.fetch, hp]⟩))))
    | transfer =>
      cases hd : op.decodes with
      | false =>
        exact .inr (.inr (.inr (.inl ⟨op, rfl, hd, by simp [step, State.fetch, hp, Block.fetchTransfer, hd]⟩)))
      | true =>
        refine .inr (.inr (.inr (.inr (.inl ⟨op, rfl, hd, ?_⟩))))
        cases hg : b.get op with
        | got x c => exact .inl ⟨x, c, rfl, by simp [step, State.fetch, hp, Block.fetchTransfer, hd, hg]⟩
        | failed st c =>
          exact .inr (.inl ⟨st, c, rfl, by simp [step, State.fetch, hp, Block.fetchTransfer, hd, hg]⟩)
        | waiting => exact .inr (.inr ⟨rfl, by simp [step, State.fetch, hp, Block.fetchTransfer, hd, hg]⟩)

end Sys2Proof.Machine
end

