-- ==== Sys2Proof/Laws/Codec.lean ====
section
/-! SUPPORT. The data path of the codec: the bits of wire bytes, what each decodes to, the significant widths, one turn of
the encoder's and of the decoder's loop, and rounding up. -/

namespace Sys2Proof

open Sys2Proof

/-! ### Wire bytes -/

@[simp] theorem contByte_bit7 (c : BitVec 7) : (contByte c)[7] = true := by
  revert c; decide

@[simp] theorem contByte_chunk (c : BitVec 7) : (contByte c).extractLsb' 0 7 = c := by
  revert c; decide

@[simp] theorem finalByte_bit7 (k : Kind) (p : BitVec 6) : (finalByte k p)[7] = false := by
  cases k <;> (revert p; decide)

@[simp] theorem finalByte_bit6 (k : Kind) (p : BitVec 6) : (finalByte k p)[6] = decide (k = .action) := by
  cases k <;> (revert p; decide)

@[simp] theorem finalByte_payload (k : Kind) (p : BitVec 6) : (finalByte k p).extractLsb' 0 6 = p := by
  cases k <;> (revert p; decide)

@[simp] theorem decodeWire_contByte (c : BitVec 7) : decodeWire (contByte c) = .cont c := by
  simp [decodeWire]

@[simp] theorem decodeWire_final_number (p : BitVec 6) : decodeWire (finalByte .number p) = .finalNum p := by
  simp [decodeWire]

@[simp] theorem decodeWire_final_action (p : BitVec 6) : decodeWire (finalByte .action p) = .finalAct p := by
  simp [decodeWire]

/-- Every byte is a continuation byte or a final byte of some kind (R84). -/
theorem wireByte_cases (x : Byte) : (∃ c, x = contByte c) ∨ ∃ k p, x = finalByte k p := by
  have h : ∀ x : Byte, (x.getLsbD 7 = true ∧ x = contByte (x.extractLsb' 0 7)) ∨
      (x.getLsbD 6 = true ∧ x = finalByte .action (x.extractLsb' 0 6)) ∨
      x = finalByte .number (x.extractLsb' 0 6) := by decide
  rcases h x with ⟨-, h⟩ | ⟨-, h⟩ | h
  · exact .inl ⟨_, h⟩
  · exact .inr ⟨_, _, h⟩
  · exact .inr ⟨_, _, h⟩

namespace Machine

@[simp] theorem kindOfFinal_finalByte (k : Kind) (p : BitVec 6) : kindOfFinal (finalByte k p) = k := by
  cases k <;> simp [kindOfFinal]

/-! ### Significant widths -/

/-- The digits of a number are at most k exactly when it is below 2^k. -/
theorem digits_le_iff {n k : Nat} : digits n ≤ k ↔ n < 2 ^ k := by
  unfold digits
  split
  · next h =>
    subst h
    simp
  · next h =>
    rw [← Nat.log2_lt h]
    omega

/-- The signed width of a value is at most k + 1 exactly when it lies in the range of k + 1 bits (R96). -/
theorem signedWidth_le_iff {v : Int} {k : Nat} : signedWidth v ≤ k + 1 ↔ -(2 ^ k : Int) ≤ v ∧ v < 2 ^ k := by
  unfold signedWidth
  rw [Nat.add_le_add_iff_right, digits_le_iff]
  split
  · next h =>
    rw [← Int.ofNat_lt, Int.toNat_of_nonneg (by omega)]
    push_cast
    constructor
    · intro h1
      exact ⟨by omega, by have : (0 : Int) < 2 ^ k := by positivity
                          omega⟩
    · rintro ⟨h1, -⟩
      omega
  · next h =>
    rw [← Int.ofNat_lt, Int.toNat_of_nonneg (by omega)]
    push_cast
    constructor
    · intro h1
      exact ⟨by have : (0 : Int) < 2 ^ k := by positivity
                omega, h1⟩
    · rintro ⟨-, h1⟩
      exact h1

/-- The width EncodeCore starts from never exceeds W. -/
theorem significantWidth_le {w : Width} (k : Kind) (v : Word w) : significantWidth k v ≤ w.bits := by
  cases k with
  | number =>
    have h1 := v.le_two_mul_toInt
    have h2 := v.two_mul_toInt_lt
    cases w with
    | w32 =>
      refine (signedWidth_le_iff (k := 31)).2 ⟨?_, ?_⟩ <;> simp only [Width.bits] at h1 h2 <;> omega
    | w64 =>
      refine (signedWidth_le_iff (k := 63)).2 ⟨?_, ?_⟩ <;> simp only [Width.bits] at h1 h2 <;> omega
  | action => exact digits_le_iff.2 v.isLt

/-! ### One turn of each loop -/

theorem encodeLoop_more {w : Width} (k : Kind) (n : Nat) (r : Word w) {bits : Nat} (h : 6 < bits) :
    encodeLoop k (n + 1) r bits = contByte (chunkOf r) :: encodeLoop k n (r.sshiftRight 7) (bits - 7) := by
  simp [encodeLoop, h]

theorem encodeLoop_last {w : Width} (k : Kind) (n : Nat) (r : Word w) {bits : Nat} (h : bits ≤ 6) :
    encodeLoop k n r bits = [finalByte k (payloadOf r)] := by
  cases n with
  | zero => rfl
  | succ n => simp [encodeLoop, show ¬ 6 < bits by omega]

theorem decodeLoop_cont {w : Width} (acc : Word w) {off : Nat} (cnt : Nat) (c : BitVec 7) (rest : List Byte)
    (h : off < w.bits - 7) :
    decodeLoop acc off cnt (contByte c :: rest) = decodeLoop (accumulate acc off c) (off + 7) (cnt + 1) rest := by
  simp [decodeLoop, show ¬ w.bits - 7 ≤ off by omega]

theorem decodeLoop_tooWide {w : Width} (acc : Word w) {off : Nat} (cnt : Nat) (c : BitVec 7) (rest : List Byte)
    (h : w.bits - 7 ≤ off) : decodeLoop acc off cnt (contByte c :: rest) = .tooWide (cnt + 1) rest := by
  simp [decodeLoop, h]

theorem decodeLoop_final {w : Width} (acc : Word w) (off cnt : Nat) (k : Kind) (p : BitVec 6) (rest : List Byte) :
    decodeLoop acc off cnt (finalByte k p :: rest) =
      .value k (finalValue k off (accumulate acc off p)) (cnt + 1) rest := by
  simp [decodeLoop]

/-- The OR of R101 adds: ACC has no bit at or above OFF. -/
theorem accumulate_toNat {w : Width} {n : Nat} (acc : Word w) (off : Nat) (c : BitVec n) (hn : n ≤ w.bits)
    (h : acc.toNat < 2 ^ off) :
    (accumulate acc off c).toNat = (acc.toNat + c.toNat * 2 ^ off) % 2 ^ w.bits := by
  unfold accumulate
  have hc : (c.setWidth w.bits).toNat = c.toNat := by
    rw [BitVec.toNat_setWidth]
    exact Nat.mod_eq_of_lt (lt_of_lt_of_le c.isLt (Nat.pow_le_pow_right (by omega) hn))
  rw [BitVec.toNat_or, BitVec.toNat_shiftLeft, hc, Nat.shiftLeft_eq]
  have hmod : acc.toNat = acc.toNat % 2 ^ w.bits := (Nat.mod_eq_of_lt acc.isLt).symm
  rw [hmod, ← Nat.or_mod_two_pow, ← hmod, Nat.or_comm, ← Nat.shiftLeft_eq, ← Nat.shiftLeft_add_eq_or_of_lt h,
    Nat.shiftLeft_eq, Nat.add_comm]

/-! ### Rounding up -/

/-- `roundup(x, m)` is the least multiple of m at or above x (R14). -/
theorem roundup_spec {x m : Nat} (hm : 0 < m) :
    roundup x m % m = 0 ∧ x ≤ roundup x m ∧ ∀ n, n % m = 0 → x ≤ n → roundup x m ≤ n := by
  unfold roundup
  refine ⟨Nat.mul_mod_left _ _, ?_, ?_⟩
  · have h1 := Nat.div_add_mod (x + (m - 1)) m
    have h2 := Nat.mod_lt (x + (m - 1)) hm
    rw [Nat.mul_comm] at h1
    omega
  · intro n hn hx
    obtain ⟨q, rfl⟩ := Nat.dvd_of_mod_eq_zero hn
    rw [Nat.mul_comm m q]
    refine Nat.mul_le_mul_right m ?_
    rw [Nat.mul_comm] at hx
    have : (x + (m - 1)) / m ≤ (q * m + (m - 1)) / m := Nat.div_le_div_right (by omega)
    refine this.trans ?_
    rw [Nat.mul_comm q m, Nat.mul_add_div hm, Nat.div_eq_of_lt (by omega)]
    omega

end Machine

end Sys2Proof
end

