-- ==== Sys2Proof/Laws/PerInstr.lean ====
section
/-! SUPPORT. Facts about every instruction as syntax, one lemma per constructor: every instruction of the block, wire byte
or command word, is one byte (R71, R72, R85). -/

namespace Sys2Proof.Laws

open Sys2Proof

/-- An instruction is one byte. -/
def EncodesInOneByte.Statement (i : Instr) : Prop := ∃ x, encode i = [x]

theorem EncodesInOneByte.cont (c : BitVec 7) : EncodesInOneByte.Statement (.cont c) := ⟨_, rfl⟩
theorem EncodesInOneByte.finalNum (p : BitVec 6) : EncodesInOneByte.Statement (.finalNum p) := ⟨_, rfl⟩
theorem EncodesInOneByte.finalAct (p : BitVec 6) : EncodesInOneByte.Statement (.finalAct p) := ⟨_, rfl⟩
theorem EncodesInOneByte.encSNum : EncodesInOneByte.Statement .encSNum := ⟨_, rfl⟩
theorem EncodesInOneByte.encSAct : EncodesInOneByte.Statement .encSAct := ⟨_, rfl⟩
theorem EncodesInOneByte.encMNum : EncodesInOneByte.Statement .encMNum := ⟨_, rfl⟩
theorem EncodesInOneByte.encMAct : EncodesInOneByte.Statement .encMAct := ⟨_, rfl⟩
theorem EncodesInOneByte.decS : EncodesInOneByte.Statement .decS := ⟨_, rfl⟩
theorem EncodesInOneByte.decM : EncodesInOneByte.Statement .decM := ⟨_, rfl⟩
theorem EncodesInOneByte.resolveB : EncodesInOneByte.Statement .resolveB := ⟨_, rfl⟩
theorem EncodesInOneByte.resolveW : EncodesInOneByte.Statement .resolveW := ⟨_, rfl⟩
theorem EncodesInOneByte.alloc : EncodesInOneByte.Statement .alloc := ⟨_, rfl⟩
theorem EncodesInOneByte.align : EncodesInOneByte.Statement .align := ⟨_, rfl⟩
theorem EncodesInOneByte.reserved (cmd : BitVec 8) : EncodesInOneByte.Statement (.reserved cmd) := ⟨_, rfl⟩

end Sys2Proof.Laws
end

