-- ==== Sys2Proof/Tests/Slice0.lean ====
section
/-! SUPPORT. The model's own tests: the well-formedness checks refuse what is ill-formed, words written out from the spec's
encodings decode to what they stand for, one step of each instruction gives what 95_test_vectors.md or a rule's own
example gives, and a concrete state meets the hypotheses of every statement that has any, clause by clause. -/

namespace Sys2Proof.Tests

open Sys2Proof Sys2Proof.Machine

/-! ### Well-formedness: one ill-formed term for each check -/

theorem test_wf_refuses_assigned_command_word : (Instr.reserved 0x25).wf = false := by decide
theorem test_wf_accepts_reserved_word : (Instr.reserved 0x15).wf = true := by decide
theorem test_wf_refuses_short_buffer :
    Request.wf (w := .w32) ⟨0x06, 0, 5, ⟨0, 4⟩⟩ = false := by decide
theorem test_wf_accepts_exact_buffer :
    Request.wf (w := .w32) ⟨0x06, 0, 5, ⟨0, 5⟩⟩ = true := by decide
theorem test_wf_refuses_misaligned_size : Launch.wf (w := .w32) ⟨6, 3, .little, []⟩ = false := by decide
theorem test_wf_refuses_misaligned_size_64 : Launch.wf (w := .w64) ⟨4, 3, .little, []⟩ = false := by decide
theorem test_wf_refuses_no_table : Launch.wf (w := .w32) ⟨8, 0, .little, []⟩ = false := by decide
theorem test_wf_refuses_contents_outside : Launch.wf (w := .w32) ⟨8, 1, .little, [(8, 1)]⟩ = false := by decide
theorem test_wf_refuses_listed_blank : Launch.wf (w := .w32) ⟨8, 1, .little, [(3, 0)]⟩ = false := by decide
theorem test_wf_refuses_falling_addresses :
    Launch.wf (w := .w32) ⟨8, 1, .little, [(3, 1), (2, 1)]⟩ = false := by decide
theorem test_wf_accepts_largest_size : Launch.wf (w := .w32) ⟨0xFFFFFFFC, 1, .big, []⟩ = true := by decide

/-! ### Decoding: every constructor's byte written out from its row (R71, R72, R86) -/

theorem test_decode_cont : decode .wire [0b11011111] = .ok (.cont 0b1011111, []) := by rfl
theorem test_decode_final_number : decode .wire [0b00100000, 0x7F] = .ok (.finalNum 0b100000, [0x7F]) := by rfl
theorem test_decode_final_action : decode .wire [0b01101000] = .ok (.finalAct 0b101000, []) := by rfl
theorem test_decode_encS_num : decode .command [0b00000001] = .ok (.encSNum, []) := by rfl
theorem test_decode_encS_act : decode .command [0b00010001] = .ok (.encSAct, []) := by rfl
theorem test_decode_encM_num : decode .command [0b00000010] = .ok (.encMNum, []) := by rfl
theorem test_decode_encM_act : decode .command [0b00010010] = .ok (.encMAct, []) := by rfl
theorem test_decode_decS : decode .command [0b00000011] = .ok (.decS, []) := by rfl
theorem test_decode_decM : decode .command [0b00000100] = .ok (.decM, []) := by rfl
theorem test_decode_resolveB : decode .command [0b00000101] = .ok (.resolveB, []) := by rfl
theorem test_decode_resolveW : decode .command [0b00100101] = .ok (.resolveW, []) := by rfl
theorem test_decode_alloc : decode .command [0b00000110] = .ok (.alloc, []) := by rfl
theorem test_decode_align : decode .command [0b00000111] = .ok (.align, []) := by rfl
theorem test_decode_reserved : decode .command [0b00100100] = .ok (.reserved 0x24, []) := by rfl
theorem test_decode_nothing : decode .command [] = .error .noByte := by rfl

/-- 95_test_vectors.md V8: these command words are reserved. -/
theorem test_decode_V8 :
    ([0x00, 0x08, 0x0F, 0x13, 0x14, 0x15, 0x16, 0x17, 0x22, 0x24, 0x26, 0x35, 0x40, 0x45, 0x81, 0xC5, 0xFF] :
      List Byte).all isReserved = true := by decide

/-! ### The cores: vectors of 95_test_vectors.md V1 to V3 -/

theorem test_encode_300 : encodeCore (w := .w32) .number 300 = [0xAC, 0x02] := by rfl
theorem test_encode_minus_33 : encodeCore (w := .w32) .number (-33) = [0xDF, 0x3F] := by rfl
theorem test_encode_most_negative :
    encodeCore (w := .w32) .number 0x80000000 = [0x80, 0x80, 0x80, 0x80, 0x38] := by rfl
theorem test_encode_action_minus_one :
    encodeCore (w := .w32) .action (-1) = [0xFF, 0xFF, 0xFF, 0xFF, 0x7F] := by rfl
theorem test_encode_w64_chunk_boundary :
    encodeCore (w := .w64) .number 2305843009213693952 =
      [0x80, 0x80, 0x80, 0x80, 0x80, 0x80, 0x80, 0x80, 0xA0, 0x00] := by rfl
theorem test_decode_overlong : decodeCore (w := .w32) [0x80, 0x40] = .value .action 0 2 [] := by rfl
theorem test_decode_ignored_bits :
    decodeCore (w := .w32) [0x80, 0x80, 0x80, 0x80, 0x30] = .value .number 0 5 [] := by rfl
theorem test_decode_width_dependent :
    decodeCore (w := .w64) [0xFF, 0xFF, 0xFF, 0xFF, 0x0F] = .value .number 4294967295 5 [] := by rfl
theorem test_decode_too_wide :
    decodeCore (w := .w32) [0xFF, 0xFF, 0xFF, 0xFF, 0xFF, 0x00] = .tooWide 5 [0x00] := by rfl

/-! ### Single steps on small states -/

/-- A machine of 16 bytes with the area [16, 20) over the host's bytes 100 to 103 (V4), and a request on the port. -/
def small (opa opb : Word .w32) : Block .w32 :=
  { Block.construct ⟨16, 3, .little, [(14, 0x80), (15, 0xA0)]⟩ with
    areas := [⟨16, 4, 100⟩], nextFree := 20, hostMem := [(101, 0x22)]
    port := ⟨0, opa, opb, ⟨200, 9⟩⟩ }

/-- The same machine while a codec command runs. -/
def running (op : CodecOp) (cur : Addr .w32) : Block .w32 :=
  { small 0 0 with phase := .busy op .transfer, cur := cur }

/-- Look at the block after a step that answers a next state. -/
def after {α : Type} (o : Host.Outcome State Fault Refusal) (f : {w : Width} → Block w → α) : Option α :=
  match o with
  | .next s => some (f s.block)
  | _ => none

/-- The response as the host reads it: status, then count, cursor, fault address, region, offset, base. -/
def response {w : Width} (b : Block w) : List (Option Nat) :=
  [b.rsp.read .status, b.rsp.read .count, b.rsp.read .cur, b.rsp.read .faultAddr, b.rsp.read .region,
    b.rsp.read .offset, b.rsp.read .base]

-- R101: [DF 3F] as num(−33): the chunk 0x5F, then the payload 0x3F at OFF = 7.
theorem test_cont_joins :
    after (exec (.cont 0x5F) ⟨.w32, running .decS 0⟩) (fun b => (b.acc.toNat, b.off, b.cnt)) = some (0x5F, 7, 1) := by
  rfl
-- R102: a continuation byte at OFF = 28.
theorem test_cont_too_wide :
    exec (.cont 0) ⟨.w32, { running .decM 0 with off := 28, cnt := 4 }⟩ =
      .next ⟨.w32, { running .decM 0 with
        off := 28, cnt := 5, phase := .busy .decM (.respond (.failed .tooWide)) }⟩ := by rfl
theorem test_finalNum_sign_extends :
    exec (.finalNum 0x3F) ⟨.w32, { running .decS 0 with acc := 0x5F, off := 7, cnt := 1 }⟩ =
      .next ⟨.w32, { running .decS 0 with
        acc := 0x1FDF, off := 7, cnt := 2, phase := .busy .decS (.respond (.decoded (-33))) }⟩ := by rfl
-- E7: [7F] is ACTION 63, not −1.
theorem test_finalAct_no_sign :
    exec (.finalAct 0x3F) ⟨.w32, running .decS 0⟩ =
      .next ⟨.w32, { running .decS 0 with
        acc := 63, cnt := 1, kind := .action, phase := .busy .decS (.respond (.decoded 63)) }⟩ := by rfl
-- R98: EncodeCore starts from sw(300) = 10 for a NUMBER and uw(−1) = 32 for an ACTION.
theorem test_encSNum_loads :
    after (exec .encSNum ⟨.w32, small 0 300⟩) (fun b => (b.bits, b.cnt, b.kind, b.rem.toNat)) =
      some (10, 0, .number, 300) := by rfl
theorem test_encSAct_loads :
    after (exec .encSAct ⟨.w32, small 0 (-1)⟩) (fun b => (b.bits, b.cnt, b.kind)) = some (32, 0, .action) := by rfl
theorem test_encMNum_loads :
    after (exec .encMNum ⟨.w32, small 0xFFFFFFFF 4096⟩) (fun b => (b.cur.toNat, b.bits)) =
      some (4294967295, 14) := by rfl
theorem test_encMAct_loads :
    after (exec .encMAct ⟨.w32, small 10 64⟩) (fun b => (b.cur.toNat, b.bits, b.kind)) =
      some (10, 7, .action) := by rfl
theorem test_decS_clears :
    after (exec .decS ⟨.w32, { small 0 0 with acc := 9, off := 14, cnt := 2 }⟩) (fun b => (b.acc.toNat, b.off, b.cnt)) =
      some (0, 0, 0) := by rfl
theorem test_decM_loads :
    after (exec .decM ⟨.w32, { small 14 0 with acc := 9 }⟩) (fun b => (b.acc.toNat, b.cur.toNat)) = some (0, 14) := by rfl
-- V4: the first byte of num(4096) goes to address 14.
theorem test_encM_byte_step :
    after (step ⟨.w32, { running .encM 15 with rem := 4096, bits := 14, kind := .number }⟩)
      (fun b => (b.pmem.read 15, b.cur.toNat, b.bits, b.rem.toNat)) = some (0x80, 16, 7, 32) := by rfl
-- R128: the seam, the closure and the end of the address space.
theorem test_resolveB_seam :
    after (exec .resolveB ⟨.w32, small 15 2⟩) response = some [some 3, none, none, some 15, none, none, none] := by rfl
theorem test_resolveB_no_wrap :
    after (exec .resolveB ⟨.w32, small 0xFFFFFFFF 2⟩) response =
      some [some 3, none, none, some 4294967295, none, none, none] := by rfl
theorem test_resolveW_bounds_first :
    after (exec .resolveW ⟨.w32, small 18 4⟩) response = some [some 3, none, none, some 18, none, none, none] := by rfl
theorem test_resolveW_unaligned :
    after (exec .resolveW ⟨.w32, small 18 2⟩) response = some [some 4, none, none, some 18, none, none, none] := by rfl
-- R136, R139.
theorem test_alloc_base :
    after (exec .alloc ⟨.w32, small 0 5⟩) (fun b => (response b, b.nextFree.toNat, b.areas.length)) =
      some ([some 0, none, none, none, some 2, none, some 20], 25, 2) := by rfl
-- V7: a zero-length ALLOC at NEXT_FREE = 2^32.
theorem test_alloc_at_the_top :
    after (exec .alloc ⟨.w32, { small 0 0 with nextFree := 0x100000000 }⟩) response =
      some [some 6, none, none, none, none, none, none] := by rfl
-- R178, I16: no move for a short buffer, even where the table is full.
theorem test_alloc_short_buffer_at_a_full_table :
    exec .alloc ⟨.w32, { small 0 10 with maxAreas := 1 }⟩ = .refused .shortBuffer := by rfl
theorem test_align_4107 :
    after (exec .align ⟨.w32, { small 0 0 with nextFree := 4107 }⟩) (fun b => b.nextFree.toNat) = some 4108 := by rfl
theorem test_align_top :
    after (exec .align ⟨.w32, { small 0 0 with nextFree := 0x100000000 }⟩) (fun b => b.nextFree.toNat) =
      some 4294967296 := by rfl
theorem test_reserved_bad_command :
    after (exec (.reserved 0x45) ⟨.w32, small 0 0⟩) response = some [some 7, none, none, none, none, none, none] := by rfl
-- The response step of a decode that was too wide (P3): RSP_FAULT_ADDR is the byte CUR has just passed.
theorem test_respond_too_wide :
    after (step ⟨.w32, { running .decM 13 with cnt := 5, phase := .busy .decM (.respond (.failed .tooWide)) }⟩) response =
      some [some 2, some 5, some 13, some 12, none, none, none] := by rfl

/-! ### The words of the opcode table, as the first instruction after reset -/

theorem test_table_cont : decodeTableWord 8 0x80 = some (.cont 0) := by rfl
theorem test_table_final : decodeTableWord 8 0x00 = some (.finalNum 0) := by rfl
theorem test_table_resolveW : decodeTableWord 8 0x25 = some .resolveW := by rfl
theorem test_step_runs_table_command :
    step (State.reset.withFetchWord 8 0x07) = exec .align ⟨.w32,
      { Block.construct Launch.default with port := ⟨0x07, 0, 0, ⟨0, 0⟩⟩ }⟩ := by rfl
theorem test_step_runs_table_wire_byte :
    after (step (State.reset.withFetchWord 8 0x41)) (fun b => (b.acc.toNat, b.kind, b.cnt)) = some (1, .action, 1) := by
  rfl

/-! ### Witnesses: a concrete state and operands for the hypotheses of each statement, clause by clause -/

theorem witness_DecodeInvertsEncode : (Instr.reserved 0xFF).wf = true ∧ (Instr.cont 0x7F).wf = true := by decide

theorem witness_EveryByteIsAnInstruction :
    (Instr.reserved 0x80).channel = .command ∧ encode (Instr.reserved 0x80) = [0x80] ∧
      (Instr.reserved 0x80).wf = true := by decide

theorem witness_StatusCodes : Status.badCommand.code = Status.badCommand.code ∧ Status.badCommand.code = 7 := by decide

theorem witness_WireByteClasses :
    (0x3F : Byte).toNat < 0x40 ∧ (0x40 ≤ (0x7F : Byte).toNat ∧ (0x7F : Byte).toNat < 0x80) ∧
      0x80 ≤ (0x80 : Byte).toNat := by decide

theorem small_ready (opa opb : Word .w32) : (small opa opb).ready := ⟨rfl, rfl⟩

theorem witness_ReservedCommandWords : (small 0 0).ready := small_ready 0 0

theorem witness_SignificantWidths : (0x80000000#32).toInt < 0 := by decide

/-- A short number, a number of MAX_LEN bytes and an action. -/
theorem witness_ValueOfAnEncoding :
    7 * ([0x7F, 0x7F, 0x7F] : List (BitVec 7)).length + 6 < Width.w32.bits ∧
      ([0, 0, 0, 0] : List (BitVec 7)).length ≤ Width.w32.maxCont ∧
      Width.w32.bits ≤ 7 * ([0, 0, 0, 0] : List (BitVec 7)).length + 6 := by decide

theorem witness_EncodingIsShortest :
    (encodeCore (w := .w32) .number 32).length = 1 + 1 ∧ 1 < Width.w32.maxCont ∧
      (encodeCore (w := .w32) .action (-1)).length = 4 + 1 ∧
      decodeCore (w := .w32) [0x80, 0xA0, 0x80, 0x00] = .value .number 4096 4 [] := by
  refine ⟨by rfl, by decide, by rfl, by rfl⟩

theorem witness_OnlyTooWideIsIllegal :
    (∀ x ∈ ([0x80, 0xFF, 0x80, 0x80] : List Byte), x.getLsbD 7 = true) ∧
      ([0x80, 0xFF, 0x80, 0x80] : List Byte).length ≤ Width.w32.maxCont ∧ (0x3F : Byte).getLsbD 7 = false ∧
      (∀ x ∈ ([0x80, 0xFF, 0x80, 0x80, 0xFF] : List Byte), x.getLsbD 7 = true) ∧
      ([0x80, 0xFF, 0x80, 0x80, 0xFF] : List Byte).length = Width.w32.maxLen := by decide

theorem witness_KindIsBitSixOfTheFinalByte : decodeCore (w := .w32) [0xDF, 0x3F, 0x41] = .value .number (-33) 2 [0x41] := by
  rfl

theorem witness_SignExtensionOfShortEncodings :
    decodeCore (w := .w32) [0xDF, 0x3F] = .value .number (-33) 2 [] ∧
      decodeCore (w := .w32) [0xFF, 0x7F] = .value .action 8191 2 [] ∧ 2 < Width.w32.maxLen ∧ 31 < Width.w32.bits := by
  refine ⟨by rfl, by rfl, by decide, by decide⟩

/-- OFF = 21 is the last offset of a chunk, OFF = 28 the limit. -/
theorem witness_ContinuationByte :
    (running .decM 0).phase = .busy .decM .transfer ∧ CodecOp.decM.decodes = true ∧
      (0x1FFFFF#32).toNat < 2 ^ 21 ∧ 21 < Width.w32.bits - 7 ∧ (0xFFFFFFF#32).toNat < 2 ^ 28 ∧
      Width.w32.bits - 7 ≤ 28 := by decide

theorem witness_FinalBytes :
    (running .decS 0).phase = .busy .decS .transfer ∧ CodecOp.decS.decodes = true ∧
      (running .decS 0).acc.toNat < 2 ^ (running .decS 0).off ∧ (running .decS 0).off + 6 < Width.w32.bits ∧
      (0xFFFFFFF#32).toNat < 2 ^ 28 ∧ Width.w32.bits ≤ 28 + 6 := by decide

theorem witness_WireByteNeedsADecode :
    (Instr.cont 1).channel = .wire ∧ ∀ op, (running .encS 0).phase = .busy op .transfer → op.decodes = false := by
  refine ⟨rfl, fun op h => ?_⟩
  cases h
  rfl

theorem witness_EncodersAreTaken : (small 5 (-1)).ready := small_ready 5 (-1)
theorem witness_DecodersAreTaken : (small 0xFFFFFFFF 0).ready := small_ready 0xFFFFFFFF 0

theorem witness_NoCommandIsTakenAtBusy :
    Instr.alloc.channel = .command ∧ (running .encS 0).live = true ∧ (running .encS 0).phase ≠ .idle := by decide

/-- V4: num(4096) at 14 crosses into the area; num(2147483647) at 17 runs off the end of it after three bytes. -/
theorem witness_EncMFromCommandToResponse :
    (small 14 4096).ready ∧
      ((small 14 4096).storeBytes 14 (encodeCore .number (4096 : Word .w32))).isSome = true ∧
      ((small 17 0x7FFFFFFF).storeBytes 17 ((encodeCore .number (0x7FFFFFFF : Word .w32)).take 3)).isSome = true ∧
      3 < (encodeCore .number (0x7FFFFFFF : Word .w32)).length ∧ (small 17 0x7FFFFFFF).unmappedAt (17 + 3) := by
  refine ⟨small_ready _ _, by rfl, by rfl, by decide, by rfl⟩

/-- An action at the same addresses. -/
theorem witness_EncMFromCommandToResponse_action :
    ((small 16 64).storeBytes 16 (encodeCore .action (64 : Word .w32))).isSome = true ∧
      (small 20 0).unmappedAt (20 + 0) := by
  refine ⟨by rfl, by rfl⟩

/-- A stream that gives and takes the stated answers. -/
def streaming (reads : List ReadAnswer) (writes : List WriteAnswer) (opb : Word .w32) : Block .w32 :=
  { small 0 opb with stream := ⟨true, reads, writes, []⟩ }

theorem witness_EncSFromCommandToResponse :
    (streaming [] [.ok, .ok, .err] 300).ready ∧
      (streaming [] [.ok, .ok, .err] 300).stream.writes =
        List.replicate (encodeCore .number (300 : Word .w32)).length .ok ++ [.err] ∧
      (1 < (encodeCore .number (300 : Word .w32)).length ∧
        (streaming [] [.ok, .err] 300).stream.writes = List.replicate 1 .ok ++ .err :: []) ∧
      (small 0 300).stream.attached = false := by
  refine ⟨⟨rfl, rfl⟩, by rfl, ⟨by decide, by rfl⟩, by rfl⟩

theorem witness_DecSFromCommandToResponse :
    (streaming [.byte 0xDF, .byte 0x3F, .eof] [] 0).ready ∧
      (streaming [.byte 0xDF, .byte 0x3F, .eof] [] 0).stream.reads =
        ([0xDF, 0x3F] : List Byte).map .byte ++ [.eof] ∧
      decodeCore (w := .w32) [0xDF, 0x3F] = .value .number (-33) 2 [] ∧
      decodeCore (w := .w32) [0x80, 0x80, 0x80, 0x80, 0x80] = .tooWide 5 [] ∧
      (streaming [.byte 0x80, .eof] [] 0).stream.reads = ([0x80] : List Byte).map .byte ++ .eof :: [] ∧
      decodeCore (w := .w32) [0x80] = .unterminated 1 ∧ (small 0 0).stream.attached = false := by
  refine ⟨⟨rfl, rfl⟩, by rfl, by rfl, by rfl, by rfl, by rfl, by rfl⟩

/-- Memory that holds an instruction at 2, five continuation bytes at 8, and one at 19, the last byte of the area. -/
def program (opa : Word .w32) : Block .w32 :=
  { small opa 0 with
    pmem := [(2, 0xDF), (3, 0x3F), (8, 0x80), (9, 0x80), (10, 0x80), (11, 0x80), (12, 0x80)]
    hostMem := [(103, 0x80)] }

theorem holds_number : (program 2).holdsBytes 2 [0xDF, 0x3F] := by
  intro j h
  match j, h with
  | 0, _ => rfl
  | 1, _ => rfl

theorem holds_too_wide : (program 8).holdsBytes 8 [0x80, 0x80, 0x80, 0x80, 0x80] := by
  intro j h
  match j, h with
  | 0, _ => rfl
  | 1, _ => rfl
  | 2, _ => rfl
  | 3, _ => rfl
  | 4, _ => rfl

theorem holds_unterminated : (program 19).holdsBytes 19 [0x80] := by
  intro j h
  match j, h with
  | 0, _ => rfl

theorem witness_DecMFromCommandToResponse :
    (program 2).ready ∧ (program 2).holdsBytes 2 [0xDF, 0x3F] ∧
      decodeCore (w := .w32) [0xDF, 0x3F] = .value .number (-33) 2 [] ∧
      (program 8).holdsBytes 8 [0x80, 0x80, 0x80, 0x80, 0x80] ∧
      decodeCore (w := .w32) [0x80, 0x80, 0x80, 0x80, 0x80] = .tooWide 5 [] ∧
      (program 19).holdsBytes 19 [0x80] ∧ decodeCore (w := .w32) [0x80] = .unterminated 1 ∧
      (program 19).unmappedAt (19 + 1) := by
  refine ⟨⟨rfl, rfl⟩, holds_number, by rfl, holds_too_wide, by rfl, holds_unterminated, by rfl, by rfl⟩

/-- num(−33) with its last byte in the last byte of the area: nothing backs the address after it. -/
def atTheEnd : Block .w32 := { small 18 0 with hostMem := [(102, 0xDF), (103, 0x3F)] }

theorem holds_number_at_the_end : atTheEnd.holdsBytes 18 [0xDF, 0x3F] := by
  intro j h
  match j, h with
  | 0, _ => rfl
  | 1, _ => rfl

/-- A value at 2 in one machine and at the end of a region in another, and TOO_WIDE. -/
theorem witness_DecodingDoesNotDependOnTheAddress :
    (program 2).ready ∧ atTheEnd.ready ∧ decodeCore (w := .w32) [0xDF, 0x3F] = .value .number (-33) 2 [] ∧
      (program 2).holdsBytes (program 2).port.opa.toNat [0xDF, 0x3F] ∧
      atTheEnd.holdsBytes atTheEnd.port.opa.toNat [0xDF, 0x3F] ∧ atTheEnd.unmappedAt (18 + 2) ∧
      decodeCore (w := .w32) [0x80, 0x80, 0x80, 0x80, 0x80] = .tooWide 5 [] ∧
      (program 8).holdsBytes (program 8).port.opa.toNat [0x80, 0x80, 0x80, 0x80, 0x80] :=
  ⟨⟨rfl, rfl⟩, ⟨rfl, rfl⟩, by rfl, holds_number, holds_number_at_the_end, by rfl, by rfl, holds_too_wide⟩

/-- num(32) across the seam of the primary region and the area. -/
def seam : Block .w32 :=
  { small 0 0 with host := [.command ⟨0x02, 15, 32, ⟨0, 0⟩⟩, .command ⟨0x04, 15, 0, ⟨0, 0⟩⟩] }

theorem seam_slots : ∀ j < 2, seam.resolve (15 + j) 1 .byte =
    if j = 0 then .found 0 15 (.primary 15) else .found 1 0 (.host 100) := by decide

theorem witness_EncodedIntoMemoryDecodesBack :
    seam.ready ∧ seam.pmem.wf ∧ seam.hostMem.wf ∧ (encodeCore (w := .w32) .number 32).length = 2 ∧
      seam.mapped 15 2 ∧ seam.unshared 15 2 := by
  refine ⟨⟨rfl, rfl⟩, by decide, by decide, by rfl, fun j hj => ?_, ?_⟩
  · rw [seam_slots j hj]
    split
    · exact ⟨_, _, _, rfl⟩
    · exact ⟨_, _, _, rfl⟩
  · intro i j ri oi si rj oj sj hi hj hne h1 h2
    rw [seam_slots i hi] at h1
    rw [seam_slots j hj] at h2
    obtain rfl | rfl : i = 0 ∨ i = 1 := by omega
    · obtain rfl : j = 1 := by omega
      cases h1
      cases h2
      simp
    · obtain rfl : j = 0 := by omega
      cases h1
      cases h2
      simp

theorem witness_EncMByteStepStoresOneByte :
    (running .encM 16).phase = .busy .encM .transfer ∧ (running .encM 16).pmem.wf ∧ (running .encM 16).hostMem.wf ∧
      (running .encM 16).resolve (running .encM 16).cur.toNat 1 .byte = .found 1 0 (.host 100) := by decide

theorem witness_CommandsEndInBoundedWork :
    (running .decM 0).phase = .busy .decM .transfer ∧ (running .decM 0).codecWf ∧ CodecOp.decM.inMemory = true ∧
      (small 0 5).ready ∧ (small 0 5).port.opb.toNat ≤ (small 0 5).port.data.length ∧
      Instr.resolveB ≠ .alloc ∧ (small 0 10).port.data.length < (small 0 10).port.opb.toNat := by
  refine ⟨rfl, ⟨by decide, by decide, by decide, by decide, ?_⟩, rfl, ⟨rfl, rfl⟩, by decide, by decide, by decide⟩
  show (0 : Nat) = 7 * 0 ∧ _
  exact ⟨rfl, by decide⟩

/-- A stream command of the given kind at its byte steps, in codec registers that are all 0. -/
def onStream (op : CodecOp) (reads : List ReadAnswer) (writes : List WriteAnswer) : Block .w32 :=
  { streaming reads writes 0 with phase := .busy op .transfer }

/-- The stream cases: none attached, and MAX_LEN answers in the direction the command uses and none in the other. -/
theorem witness_CommandsEndInBoundedWork_stream :
    (running .decS 0).stream.attached = false ∧
      Width.w32.maxLen ≤ (onStream .decS (.replicate 5 (.byte 0x80)) []).cnt +
        (onStream .decS (.replicate 5 (.byte 0x80)) []).stream.reads.length ∧
      Width.w32.maxLen ≤ (onStream .encS [] (.replicate 5 .ok)).cnt +
        (onStream .encS [] (.replicate 5 .ok)).stream.writes.length := by decide

theorem witness_TheBlockWaitsForTheStream :
    (onStream .decS [] [.ok]).awaits .decS ∧ (onStream .encS [.eof] []).awaits .encS :=
  ⟨⟨rfl, rfl, .inr ⟨rfl, rfl⟩⟩, ⟨rfl, rfl, .inl ⟨rfl, rfl⟩⟩⟩

/-- RESOLVE's clauses: the last byte of the primary region, an area, no region, a misaligned range. -/
theorem witness_ResolveAnswersWhereTheRangeLies :
    (small 15 1).ready ∧ 15 + 1 ≤ (small 15 1).memorySize.toNat ∧
      ((small 16 4).memorySize.toNat < 16 + 4 ∧ (small 16 4).areas[0]? = some ⟨16, 4, 100⟩ ∧ 16 % Width.w32.bytes = 0) ∧
      ((small 15 2).memorySize.toNat < 15 + 2 ∧ ∀ r ∈ (small 15 2).areas, ¬ (r.base.toNat ≤ 15 ∧
        15 + 2 ≤ r.base.toNat + r.size.toNat)) ∧
      18 % Width.w32.bytes ≠ 0 := by
  refine ⟨small_ready _ _, by decide, ⟨by decide, by rfl, by decide⟩, ⟨by decide, by decide⟩, by decide⟩

theorem small_regionsWf (opa opb : Word .w32) : (small opa opb).regionsWf := by
  refine ⟨show legalMemorySize (16 : Word .w32) = true by decide, ⟨?_, ?_⟩, ?_, ?_⟩
  · show 16 ≤ 16
    decide
  · show 20 ≤ 20
    decide
  · show 20 ≤ 2 ^ 32
    decide
  · show 1 ≤ 3
    decide

theorem witness_StraddlingRangesFail :
    (small 15 2).ready ∧ (small 15 2).regionsWf ∧ 1 ≤ (small 15 2).port.opb.toNat ∧
      (small 15 2).inRegion 0 15 ∧ (small 15 2).inRegion 1 16 := by
  refine ⟨small_ready _ _, small_regionsWf _ _, by decide, ?_, ⟨⟨16, 4, 100⟩, rfl, ?_, ?_⟩⟩
  · show 15 < 16
    decide
  · show 16 ≤ 16
    decide
  · show 16 < 16 + 4
    decide

theorem witness_WordAccessNeedsAnAlignedAddress :
    (small 18 2).ready ∧ (small 18 2).port.opa.toNat % Width.w32.bytes ≠ 0 := ⟨small_ready _ _, by decide⟩

theorem witness_ReadsAndWritesOfResolvedBytes :
    (small 0 0).live = true ∧ (small 0 0).pmem.wf ∧ (small 0 0).hostMem.wf ∧
      (small 0 0).resolve 15 1 .byte = .found 0 15 (.primary 15) ∧
      (small 0 0).resolve 19 1 .byte = .found 1 3 (.host 103) := by decide

/-- ALLOC's clauses: a full table, the two ways to exhaust the address space, an area that ends at 2^32. -/
theorem witness_AllocAppendsAnArea :
    (small 0 5).ready ∧ (small 0 5).nextFree.toNat ≤ 2 ^ Width.w32.bits ∧
      ({ small 0 5 with maxAreas := 1 } : Block .w32).areas.length = 1 ∧
      (({ small 0 0 with nextFree := 0x100000000 } : Block .w32).nextFree.toNat = 2 ^ Width.w32.bits) ∧
      (2 ^ Width.w32.bits < ({ small 0 5 with nextFree := 0xFFFFFFFC } : Block .w32).nextFree.toNat + 5) ∧
      (({ small 0 4 with nextFree := 0xFFFFFFFC } : Block .w32).nextFree.toNat + 4 ≤ 2 ^ Width.w32.bits ∧
        5 ≤ (small 0 5).port.data.length ∧ (small 0 4).areas.length ≠ (small 0 4).maxAreas) := by
  refine ⟨small_ready _ _, by decide, by decide, by decide, by decide, by decide⟩

theorem witness_AllocWithAShortBufferIsRefused :
    (small 0 10).ready ∧ (small 0 10).port.data.length < (small 0 10).port.opb.toNat := ⟨small_ready _ _, by decide⟩

theorem witness_AlignRoundsUpToAWord :
    ({ small 0 0 with nextFree := 0xFFFFFFFD } : Block .w32).ready ∧
      ({ small 0 0 with nextFree := 0xFFFFFFFD } : Block .w32).nextFree.toNat ≤ 2 ^ Width.w32.bits :=
  ⟨⟨rfl, rfl⟩, by decide⟩

/-- An area of 3 bytes leaves NEXT_FREE unaligned, with one byte of padding after ALIGN. -/
theorem witness_SecondAlignChangesNothing :
    ({ small 0 0 with areas := [⟨16, 3, 100⟩], nextFree := 19 } : Block .w32).ready ∧
      ({ small 0 0 with areas := [⟨16, 3, 100⟩], nextFree := 19 } : Block .w32).regionsWf := by
  refine ⟨⟨rfl, rfl⟩, show legalMemorySize (16 : Word .w32) = true by decide, ⟨?_, ?_⟩, ?_, ?_⟩
  · show 16 ≤ 16
    decide
  · show 19 ≤ 19
    decide
  · show 19 ≤ 2 ^ 32
    decide
  · show 1 ≤ 3
    decide

theorem witness_RegionMapIsKept :
    ∃ t, ({ small 0 0 with host := [.command ⟨0x06, 0, 5, ⟨200, 9⟩⟩] } : Block .w32).regionsWf ∧
      step ⟨.w32, { small 0 0 with host := [.command ⟨0x06, 0, 5, ⟨200, 9⟩⟩] }⟩ = .next t ∧ t.block.areas.length = 2 :=
  ⟨_, small_regionsWf 0 0, rfl, rfl⟩

theorem witness_ExecutingLeavesTheRestAlone :
    ∃ t, exec .alloc ⟨.w32, small 0 5⟩ = .next t ∧ (small 0 5).byteAt 15 = some 0xA0 := ⟨_, rfl, rfl⟩

theorem witness_OneStepCommandsEndByTheResponse :
    ∃ c : Block .w32, Instr.resolveW.channel = .command ∧ exec .resolveW ⟨.w32, small 18 2⟩ = .next ⟨.w32, c⟩ ∧
      c.phase = .idle ∧ c.lastStatus ≠ .ok := ⟨_, rfl, rfl, rfl, by decide⟩

theorem witness_ResponseStepEndsTheCommand :
    ({ small 0 0 with phase := .busy .decM (.respond (.failed .tooWide)) } : Block .w32).phase =
      .busy .decM (.respond (.failed .tooWide)) := rfl

theorem witness_StepExecutesTheCommand :
    seam.phase = .idle ∧ seam.host = .command ⟨0x02, 15, 32, ⟨0, 0⟩⟩ :: [.command ⟨0x04, 15, 0, ⟨0, 0⟩⟩] ∧
      decode .command [0x02] = .ok (.encMNum, []) := ⟨rfl, rfl, rfl⟩

theorem witness_StepExecutesTheWireByte :
    decode .wire [0xA0] = .ok (.cont 0x20, []) ∧
      ((running .decM 15).phase = .busy .decM .transfer ∧ (running .decM 15).live = true ∧
        (running .decM 15).byteAt (running .decM 15).cur.toNat = some 0xA0) ∧
      ({ streaming [.byte 0xA0] [] 0 with phase := .busy .decS .transfer } : Block .w32).stream.reads =
        .byte 0xA0 :: [] := by
  refine ⟨by rfl, ⟨by rfl, by rfl, by rfl⟩, by rfl⟩

theorem witness_NothingHappensWithoutTheHost : (small 0 0).phase = .idle ∧ (small 0 0).host = [] := ⟨rfl, rfl⟩

theorem witness_OnlyTheBlockActsAtBusy :
    ∃ t, (running .encM 16).phase = .busy .encM .transfer ∧ (running .encM 16).pmem.wf ∧
      (running .encM 16).hostMem.wf ∧ step ⟨.w32, running .encM 16⟩ = .next t :=
  ⟨_, rfl, by decide, by decide, rfl⟩

theorem witness_OnlyValidFieldsCanBeRead :
    ({ small 0 0 with host := [.readResponse .kind] } : Block .w32).ready ∧
      (small 0 0).rsp.read .kind = none ∧
      ({ small 0 0 with rsp := { region := some 2 } } : Block .w32).rsp.read .region = some 2 := ⟨⟨rfl, rfl⟩, rfl, rfl⟩

theorem witness_AreasAreTheHostsBuffer :
    ({ small 0 0 with host := [.hostStore (100 + 3) 7] } : Block .w32).ready ∧
      ({ small 0 0 with host := [.hostStore (100 + 3) 7] } : Block .w32).regionsWf ∧ (small 0 0).hostMem.wf ∧
      (small 0 0).areas[0]? = some ⟨16, 4, 100⟩ ∧ 3 < (4 : Word .w32).toNat :=
  ⟨⟨rfl, rfl⟩, small_regionsWf 0 0, by decide, rfl, by decide⟩

theorem witness_ReleaseEndsTheMachine :
    ({ small 0 0 with host := [.release] } : Block .w32).ready ∧
      ({ small 0 0 with live := false, host := [.construct 8 [(7, 1)]] } : Block .w32).live = false ∧
      legalMemorySize (8 : Word .w32) = true ∧ legalContents (8 : Word .w32) [(7, 1)] = true ∧
      1 ≤ (small 0 0).maxAreas := ⟨⟨rfl, rfl⟩, rfl, by decide, by decide, by decide⟩

theorem witness_ResetValues : Launch.default.wf = true ∧ Launch.wf (w := .w64) ⟨16, 1, .big, [(15, 255)]⟩ = true := by
  decide

theorem witness_IllegalLaunchIsRefused :
    (6 : Word .w32).toNat % Width.w32.bytes ≠ 0 ∧ 2 ^ Width.w32.bits < (0xFFFFFFFF : Word .w32).toNat + Width.w32.bytes := by
  decide

theorem witness_InvariantAtEveryLaunch : ∃ s, State.launch .w32 Launch.default = .next s := ⟨_, rfl⟩

/-- A machine with an area and bytes in primary memory. -/
theorem witness_EveryStepKeepsTheInvariant :
    ∃ t, State.Inv ⟨.w32, small 0 0⟩ ∧ step ⟨.w32, small 0 0⟩ = .next t := by
  refine ⟨_, ⟨small_regionsWf 0 0, ⟨by decide, by decide, by decide⟩, ⟨by decide, by decide, by decide, by decide, trivial⟩, ?_⟩,
    rfl⟩
  exact ⟨fun st h => (by cases h), fun _ => ⟨rfl, rfl⟩⟩

end Sys2Proof.Tests
end

/-! PROOF. What each instruction, each action of the host and each step can do, as inversion lemmas: the layer the
proofs about the state rest on. -/

namespace Sys2Proof.Machine

open Sys2Proof

section Inversion

variable {w : Width}

/-! ### Executing an instruction -/

/-- The block an instruction leaves where it answers a next state, one constructor for each kind of effect, with the
condition under which it happens. -/
inductive ExecEffect (b : Block w) (i : Instr) : Block w → Prop where
  /-- ENC.S is taken. -/
  | encS (hr : b.ready) (k : Kind) : ExecEffect b i ((b.loadEncoder k b.valueOperand).accept .encS)
  /-- ENC.M is taken. -/
  | encM (hr : b.ready) (k : Kind) : ExecEffect b i ((b.loadCursor.loadEncoder k b.valueOperand).accept .encM)
  /-- DEC.S is taken. -/
  | decS (hr : b.ready) : ExecEffect b i (b.clearDecoder.accept .decS)
  /-- DEC.M is taken. -/
  | decM (hr : b.ready) : ExecEffect b i (b.loadCursor.clearDecoder.accept .decM)
  /-- A command of one step writes its response and nothing else. -/
  | ended (hr : b.ready) (st : Status) (f : Response w) : ExecEffect b i (b.endCommand st f)
  /-- ALLOC appends an area. -/
  | allocated (hr : b.ready) (hi : i = .alloc) (hroom : b.areas.length ≠ b.maxAreas)
      (hfits : b.exhausted b.lengthOperand = false) (f : Response w) :
      ExecEffect b i ((b.appendArea b.lengthOperand b.bufferOperand).endCommand .ok f)
  /-- ALIGN rounds NEXT_FREE up. -/
  | aligned (hr : b.ready) (hi : i = .align) : ExecEffect b i (b.runAlign.endCommand .ok {})
  /-- A chunk joins the accumulator of a running decode. -/
  | chunk {op : CodecOp} (hp : b.phase = .busy op .transfer) (hd : op.decodes = true) (hlimit : b.off < w.bits - 7)
      (x : BitVec 7) : ExecEffect b i (b.countByte.joinChunk x)
  /-- A continuation byte at the chunk limit ends a running decode. -/
  | tooWide {op : CodecOp} (hp : b.phase = .busy op .transfer) (hd : op.decodes = true) (hlimit : w.bits - 7 ≤ b.off) :
      ExecEffect b i (b.countByte.finish op (.failed .tooWide))
  /-- A final byte ends a running decode with its value. -/
  | final {op : CodecOp} (hp : b.phase = .busy op .transfer) (hd : op.decodes = true) (k : Kind) (x : BitVec 6) :
      ExecEffect b i (b.takeFinal op k x)

/-- Every command word runs through the check of R34 and R168. -/
theorem exec_of_command_channel {i : Instr} (hi : i.channel = .command) (b : Block w) :
    ∃ f : Block w → Host.Outcome (Block w) Fault Refusal,
      exec i ⟨w, b⟩ = State.onBlock ⟨w, b⟩ fun c => c.command f := by
  cases i with
  | cont | finalNum | finalAct => cases hi
  | _ => exact ⟨_, rfl⟩

/-- A live machine that is not at IDLE refuses a command. -/
theorem Block.command_busy {b : Block w} (hl : b.live = true) (hp : b.phase ≠ .idle)
    (f : Block w → Host.Outcome (Block w) Fault Refusal) : b.command f = .refused .commandWhileBusy := by
  simp [Block.command, hl, hp]

/-- A ready machine runs a command's own meaning. -/
theorem onBlock_command_of_ready {b c : Block w} {f : Block w → Host.Outcome (Block w) Fault Refusal} (hr : b.ready)
    (h : f b = .next c) : State.onBlock ⟨w, b⟩ (fun b => b.command f) = .next ⟨w, c⟩ :=
  State.onBlock_of_next ((Block.command_ready hr f).trans h)

/-- A command answers a next state only from a ready machine, and with its own meaning's next block. -/
theorem onBlock_command_next {b : Block w} {t : State} {f : Block w → Host.Outcome (Block w) Fault Refusal}
    (h : State.onBlock ⟨w, b⟩ (fun b => b.command f) = .next t) : ∃ c, t = ⟨w, c⟩ ∧ b.ready ∧ f b = .next c := by
  obtain ⟨c, hc, rfl⟩ := State.onBlock_next h
  exact ⟨c, rfl, Block.command_next hc⟩

/-- A command whose meaning always answers the block `g b`. -/
theorem onBlock_command_total {b : Block w} {t : State} {g : Block w → Block w}
    (h : State.onBlock ⟨w, b⟩ (fun b => b.command fun b => .next (g b)) = .next t) : t = ⟨w, g b⟩ ∧ b.ready := by
  obtain ⟨c, rfl, hr, hc⟩ := onBlock_command_next h
  cases hc
  exact ⟨rfl, hr⟩

/-- A wire byte answers a next state only while a decode waits for it. -/
theorem onBlock_decoding_next {b : Block w} {t : State} {f : Block w → CodecOp → Block w}
    (h : State.onBlock ⟨w, b⟩ (fun b => b.decoding (f b)) = .next t) :
    ∃ op, b.phase = .busy op .transfer ∧ op.decodes = true ∧ t = ⟨w, f b op⟩ := by
  obtain ⟨c, hc, rfl⟩ := State.onBlock_next h
  obtain ⟨op, hp, hd, rfl⟩ := Block.decoding_next hc
  exact ⟨op, hp, hd, rfl⟩

/-- RESOLVE ends at once, whatever it finds (R127). -/
theorem Block.runResolve_endCommand (b : Block w) (g : Granularity) : ∃ st f, b.runResolve g = b.endCommand st f := by
  unfold Block.runResolve
  split <;> exact ⟨_, _, rfl⟩

/-- Everything an instruction can do where it answers a next state. -/
theorem exec_effect {b : Block w} {i : Instr} {t : State} (h : exec i ⟨w, b⟩ = .next t) :
    ∃ c : Block w, t = ⟨w, c⟩ ∧ ExecEffect b i c := by
  cases i with
  | cont x =>
    obtain ⟨op, hp, hd, rfl⟩ := onBlock_decoding_next (f := fun b op => b.takeChunk op x) h
    obtain ⟨hlimit, he⟩ | ⟨hlimit, he⟩ := b.takeChunk_cases op x
    · exact ⟨_, rfl, he ▸ .tooWide hp hd hlimit⟩
    · exact ⟨_, rfl, he ▸ .chunk hp hd hlimit x⟩
  | finalNum x =>
    obtain ⟨op, hp, hd, rfl⟩ := onBlock_decoding_next (f := fun b op => b.takeFinal op .number x) h
    exact ⟨_, rfl, .final hp hd .number x⟩
  | finalAct x =>
    obtain ⟨op, hp, hd, rfl⟩ := onBlock_decoding_next (f := fun b op => b.takeFinal op .action x) h
    exact ⟨_, rfl, .final hp hd .action x⟩
  | encSNum =>
    obtain ⟨rfl, hr⟩ := onBlock_command_total h
    exact ⟨_, rfl, .encS hr .number⟩
  | encSAct =>
    obtain ⟨rfl, hr⟩ := onBlock_command_total h
    exact ⟨_, rfl, .encS hr .action⟩
  | encMNum =>
    obtain ⟨rfl, hr⟩ := onBlock_command_total h
    exact ⟨_, rfl, .encM hr .number⟩
  | encMAct =>
    obtain ⟨rfl, hr⟩ := onBlock_command_total h
    exact ⟨_, rfl, .encM hr .action⟩
  | decS =>
    obtain ⟨rfl, hr⟩ := onBlock_command_total h
    exact ⟨_, rfl, .decS hr⟩
  | decM =>
    obtain ⟨rfl, hr⟩ := onBlock_command_total h
    exact ⟨_, rfl, .decM hr⟩
  | resolveB =>
    obtain ⟨rfl, hr⟩ := onBlock_command_total h
    obtain ⟨st, f, he⟩ := b.runResolve_endCommand .byte
    exact ⟨_, rfl, he ▸ .ended hr st f⟩
  | resolveW =>
    obtain ⟨rfl, hr⟩ := onBlock_command_total h
    obtain ⟨st, f, he⟩ := b.runResolve_endCommand .word
    exact ⟨_, rfl, he ▸ .ended hr st f⟩
  | alloc =>
    obtain ⟨c, rfl, hr, hc⟩ := onBlock_command_next h
    obtain ⟨-, ⟨-, rfl⟩ | ⟨-, -, rfl⟩ | ⟨hroom, hfits, rfl⟩⟩ := Block.runAlloc_next hc
    · exact ⟨_, rfl, .ended hr .areaTableFull {}⟩
    · exact ⟨_, rfl, .ended hr .addressSpaceExhausted {}⟩
    · exact ⟨_, rfl, .allocated hr rfl hroom hfits _⟩
  | align =>
    obtain ⟨rfl, hr⟩ := onBlock_command_total h
    exact ⟨_, rfl, .aligned hr rfl⟩
  | reserved cmd =>
    obtain ⟨rfl, hr⟩ := onBlock_command_total h
    exact ⟨_, rfl, .ended hr .badCommand {}⟩

/-! ### Actions of the host and the environment -/

/-- A resolved slot of primary memory is one of its bytes (R47). -/
theorem Block.resolve_primary_lt {b : Block w} {a region offset j : Nat} {g : Granularity}
    (h : b.resolve a 1 g = .found region offset (.primary j)) : j < b.memorySize.toNat := by
  obtain ⟨hloc, -⟩ := Block.resolve_eq_found.1 h
  obtain ⟨hle, -, -, hj⟩ | ⟨-, _, _, -, -, -, -, -, hj⟩ := Block.locate_eq_some.1 hloc
  · cases hj
    omega
  · cases hj

/-- The block an action other than a command leaves where it answers a next state. -/
inductive ActEffect (b : Block w) : Block w → Prop where
  /-- A read changes nothing (R33, R56). -/
  | unchanged : ActEffect b b
  /-- A byte of storage changes, in primary memory one that exists (R36, R37). -/
  | wrote (p : Slot) (x : Byte) (hp : ∀ j, p = .primary j → j < b.memorySize.toNat) : ActEffect b (b.writeSlot p x)
  /-- The stream's owner changes the stream. -/
  | stream (t : ByteStream) : ActEffect b (b.withStream t)
  /-- The machine is released. -/
  | released (hl : b.live = true) : ActEffect b b.releaseAll
  /-- A new machine stands in the place of a released one. -/
  | constructed (hl : b.live = false) {size : Word w} {contents : Memory} (hw : (b.relaunch size contents).wf = true) :
      ActEffect b ((Block.construct (b.relaunch size contents)).withAgents b)

/-- An access that needs the machine answers a next state only from one that exists. -/
theorem Block.whileLive_next {b c : Block w} {o : Host.Outcome (Block w) Fault Refusal}
    (h : b.whileLive o = .next c) : b.live = true ∧ o = .next c := by
  unfold Block.whileLive at h
  split at h
  · next hl => exact ⟨hl, h⟩
  · cases h

/-- On a machine that exists the access is its own outcome. -/
theorem Block.whileLive_live {b : Block w} (hl : b.live = true) (o : Host.Outcome (Block w) Fault Refusal) :
    b.whileLive o = o := if_pos hl

theorem Block.hostReads_next {b c : Block w} {f : ResponseField} (h : b.hostReads f = .next c) : c = b := by
  unfold Block.hostReads at h
  split at h <;> cases h
  rfl

theorem Block.environmentLoads_next {b c : Block w} {a : Nat} (h : b.environmentLoads a = .next c) : c = b := by
  unfold Block.environmentLoads at h
  split at h <;> cases h
  rfl

theorem Block.storeByte_eq_some {b c : Block w} {a : Nat} {x : Byte} :
    b.storeByte a x = some c ↔
      ∃ region offset p, b.resolve a 1 .byte = .found region offset p ∧ c = b.writeSlot p x := by
  unfold Block.storeByte
  cases b.resolve a 1 .byte with
  | found region offset p => simp [eq_comm]
  | invalid => simp
  | unaligned => simp

theorem Block.environmentStores_next {b c : Block w} {a : Nat} {x : Byte} (h : b.environmentStores a x = .next c) :
    ∃ region offset p, b.resolve a 1 .byte = .found region offset p ∧ c = b.writeSlot p x := by
  unfold Block.environmentStores at h
  split at h
  · next hs =>
    cases h
    exact Block.storeByte_eq_some.1 hs
  · cases h

theorem Block.constructAgain_next {b c : Block w} {size : Word w} {contents : Memory}
    (h : b.constructAgain size contents = .next c) :
    b.live = false ∧ (b.relaunch size contents).wf = true ∧
      c = (Block.construct (b.relaunch size contents)).withAgents b := by
  unfold Block.constructAgain at h
  split at h
  · cases h
  · next hl =>
    split at h
    · next hw =>
      cases h
      exact ⟨by simpa using hl, hw, rfl⟩
    · cases h

/-- Everything an action other than a command can do where it answers a next state. -/
theorem act_effect {b c : Block w} {a : HostAction w} (ha : ∀ r, a ≠ .command r) (h : b.act a = .next c) :
    ActEffect b c := by
  cases a with
  | command r => exact absurd rfl (ha r)
  | readResponse f =>
    obtain ⟨-, h⟩ := Block.whileLive_next h
    exact Block.hostReads_next h ▸ .unchanged
  | store a x =>
    obtain ⟨-, h⟩ := Block.whileLive_next h
    obtain ⟨region, offset, p, hres, rfl⟩ := Block.environmentStores_next h
    exact .wrote p x fun j hj => Block.resolve_primary_lt (hj ▸ hres)
  | load a =>
    obtain ⟨-, h⟩ := Block.whileLive_next h
    exact Block.environmentLoads_next h ▸ .unchanged
  | hostStore a x =>
    cases h
    exact .wrote (.host a) x fun j hj => nomatch hj
  | setStream t =>
    cases h
    exact .stream t
  | release =>
    obtain ⟨hl, h⟩ := Block.whileLive_next h
    cases h
    exact .released hl
  | construct size contents =>
    obtain ⟨hl, hw, rfl⟩ := Block.constructAgain_next h
    exact .constructed hl hw

/-! ### The transports -/

/-- What a transport does to the block where it transfers a byte (R97). -/
inductive Transferred (b : Block w) : CodecOp → Block w → Prop where
  /-- ENC.M writes the byte behind `CUR`. -/
  | written {region offset : Nat} {p : Slot} (hres : b.resolve b.cur.toNat 1 .byte = .found region offset p) (x : Byte) :
      Transferred b .encM (b.writeSlot p x).advance
  /-- DEC.M reads the byte behind `CUR`. -/
  | read {region offset : Nat} {p : Slot} (hres : b.resolve b.cur.toNat 1 .byte = .found region offset p) :
      Transferred b .decM b.advance
  /-- The stream takes or gives a byte. -/
  | stream {op : CodecOp} (hop : op.inMemory = false) (t : ByteStream) : Transferred b op (b.withStream t)

/-- How a transport can fail: only the stream moves, and the status is the transport's own (R146). -/
def FailedTransfer (b : Block w) (op : CodecOp) (st : Status) (c : Block w) : Prop :=
  (∃ t, c = b.withStream t) ∧ ((st = .ioError ∧ op.inMemory = false) ∨ (st = .invalidAddress ∧ op.inMemory = true))

theorem FailedTransfer.stream (b : Block w) {op : CodecOp} (hop : op.inMemory = false) (t : ByteStream) :
    FailedTransfer b op .ioError (b.withStream t) := ⟨⟨t, rfl⟩, .inl ⟨rfl, hop⟩⟩

theorem FailedTransfer.memory (b : Block w) {op : CodecOp} (hop : op.inMemory = true) :
    FailedTransfer b op .invalidAddress b := ⟨⟨b.stream, rfl⟩, .inr ⟨rfl, hop⟩⟩

/-- What a `Put` can answer, with what it has done to the block. -/
def PutResult.Effect (b : Block w) (op : CodecOp) : PutResult w → Prop
  | .done c => Transferred b op c
  | .failed st c => FailedTransfer b op st c
  | .waiting => True

/-- What a `Get` can answer, with what it has done to the block. -/
def GetResult.Effect (b : Block w) (op : CodecOp) : GetResult w → Prop
  | .got _ c => Transferred b op c
  | .failed st c => FailedTransfer b op st c
  | .waiting => True

/-- `Put` of an encoder. -/
theorem Block.put_effect (b : Block w) {op : CodecOp} (hop : op.decodes = false) (x : Byte) :
    (b.put op x).Effect b op := by
  cases op with
  | decS | decM => cases hop
  | encS =>
    show (b.streamPut x).Effect b .encS
    obtain ⟨rest, -, -, h⟩ | ⟨rest, -, -, h⟩ | ⟨-, h⟩ | ⟨-, -, h⟩ := b.streamPut_cases x <;> rw [h]
    · exact .stream rfl _
    · exact .stream b rfl _
    · exact .stream b rfl b.stream
    · trivial
  | encM =>
    show (b.memPut x).Effect b .encM
    obtain ⟨region, offset, p, hres, h⟩ | ⟨-, h⟩ := b.memPut_cases x <;> rw [h]
    · exact .written hres x
    · exact .memory b rfl

/-- `Get` of a decoder. -/
theorem Block.get_effect (b : Block w) {op : CodecOp} (hop : op.decodes = true) : (b.get op).Effect b op := by
  cases op with
  | encS | encM => cases hop
  | decS =>
    show (b.streamGet).Effect b .decS
    obtain ⟨y, rest, -, -, h⟩ | ⟨y, rest, -, -, -, h⟩ | ⟨-, h⟩ | ⟨-, -, h⟩ := b.streamGet_cases <;> rw [h]
    · exact .stream rfl _
    · exact .stream b rfl _
    · exact .stream b rfl b.stream
    · trivial
  | decM =>
    show (b.memGet).Effect b .decM
    obtain ⟨region, offset, p, hres, h⟩ | ⟨-, h⟩ := b.memGet_cases <;> rw [h]
    · exact .read hres
    · exact .memory b rfl

/-! ### One step -/

/-- A byte of a transport decodes to a wire byte (R84). -/
theorem decodeWire_channel (x : Byte) : (decodeWire x).channel = .wire := by
  obtain ⟨c, rfl⟩ | ⟨k, p, rfl⟩ := wireByte_cases x
  · rw [decodeWire_contByte]
    rfl
  · cases k
    · rw [decodeWire_final_number]
      rfl
    · rw [decodeWire_final_action]
      rfl

/-- The block one step leaves where it answers a next state, by PHASE. -/
inductive StepEffect (b : Block w) : Block w → Prop where
  /-- The host does nothing, or the stream has not answered (R167, R180). -/
  | waits : StepEffect b b
  /-- A command executes. -/
  | command (hp : b.phase = .idle) (r : Request w) (rest : List (HostAction w)) {i : Instr} {c : Block w}
      (h : ExecEffect ((b.withHost rest).present r) i c) : StepEffect b c
  /-- The host or the environment acts. -/
  | acted (hp : b.phase = .idle) (rest : List (HostAction w)) {c : Block w} (h : ActEffect (b.withHost rest) c) :
      StepEffect b c
  /-- The encoder puts a continuation byte. -/
  | contPut {op : CodecOp} (hp : b.phase = .busy op .transfer) (hop : op.decodes = false) (hmore : 6 < b.bits)
      {c : Block w} (h : Transferred b op c) : StepEffect b c.afterContPut
  /-- The encoder puts its final byte. -/
  | finalPut {op : CodecOp} (hp : b.phase = .busy op .transfer) (hop : op.decodes = false) (hlast : b.bits ≤ 6)
      {c : Block w} (h : Transferred b op c) : StepEffect b (c.countByte.finish op .encoded)
  /-- The decoder gets a wire byte and executes it. -/
  | wireByte {op : CodecOp} (hp : b.phase = .busy op .transfer) (hop : op.decodes = true) {c d : Block w}
      (h : Transferred b op c) {i : Instr} (hi : i.channel = .wire) (he : ExecEffect c i d) : StepEffect b d
  /-- A Put or a Get fails. -/
  | transferFailed {op : CodecOp} (hp : b.phase = .busy op .transfer) {st : Status} {c : Block w}
      (h : FailedTransfer b op st c) : StepEffect b (c.finish op (.failed st))
  /-- The response step. -/
  | responded {op : CodecOp} {res : CodecResult w} (hp : b.phase = .busy op (.respond res)) (st : Status)
      (f : Response w) : StepEffect b (b.endCommand st f)

/-- One byte step of an encoder, as an effect. -/
theorem encodeStep_effect {b : Block w} {op : CodecOp} (hp : b.phase = .busy op .transfer) (hop : op.decodes = false) :
    StepEffect b (b.encodeStep op) := by
  have hput := b.put_effect hop (nextByte b.kind b.rem b.bits)
  obtain ⟨c, hc, hmore, he⟩ | ⟨c, hc, hlast, he⟩ | ⟨st, c, hc, he⟩ | ⟨hc, he⟩ := b.encodeStep_cases op <;>
    rw [hc] at hput <;> rw [he]
  · exact .contPut hp hop hmore hput
  · exact .finalPut hp hop hlast hput
  · exact .transferFailed hp hput
  · exact .waits

/-- Everything one step can do where it answers a next state. -/
theorem step_effect {b : Block w} {t : State} (h : step ⟨w, b⟩ = .next t) :
    ∃ c : Block w, t = ⟨w, c⟩ ∧ StepEffect b c := by
  obtain ⟨-, -, hs⟩ | ⟨r, rest, hp, -, hs⟩ | ⟨a, rest, hp, -, ha, hs⟩ | ⟨op, hp, hop, hs⟩ |
    ⟨op, hp, hop, hget⟩ | ⟨op, res, hp, hs⟩ := step_cases b
  · cases hs.symm.trans h
    exact ⟨b, rfl, .waits⟩
  · obtain ⟨c, rfl, he⟩ := exec_effect (hs.symm.trans h)
    exact ⟨c, rfl, .command hp r rest he⟩
  · obtain ⟨c, hc, rfl⟩ := State.onBlock_next (hs.symm.trans h)
    exact ⟨c, rfl, .acted hp rest (act_effect ha hc)⟩
  · cases hs.symm.trans h
    exact ⟨_, rfl, encodeStep_effect hp hop⟩
  · have heff := b.get_effect hop
    obtain ⟨x, c, hx, hs⟩ | ⟨st, c, hx, hs⟩ | ⟨hx, hs⟩ := hget <;> rw [hx] at heff
    · obtain ⟨d, rfl, he⟩ := exec_effect (hs.symm.trans h)
      exact ⟨d, rfl, .wireByte hp hop heff (decodeWire_channel x) he⟩
    · cases hs.symm.trans h
      exact ⟨_, rfl, .transferFailed hp heff⟩
    · cases hs.symm.trans h
      exact ⟨b, rfl, .waits⟩
  · cases hs.symm.trans h
    obtain ⟨st, f, he⟩ := b.respondCodec_endCommand op res
    exact ⟨_, rfl, he ▸ .responded hp st f⟩

/-- A step at IDLE with a command waiting executes what its word decodes to. -/
theorem step_of_command {b : Block w} {r : Request w} {rest : List (HostAction w)} (hp : b.phase = .idle)
    (hh : b.host = .command r :: rest) :
    step ⟨w, b⟩ = exec (decodeCommand r.cmd) ⟨w, (b.withHost rest).present r⟩ := by
  simp [step, State.fetch, hp, Block.fetchIdle, hh]

/-- A step at IDLE with another action waiting is that action. -/
theorem step_of_action {b : Block w} {a : HostAction w} {rest : List (HostAction w)} (hp : b.phase = .idle)
    (hh : b.host = a :: rest) (ha : ∀ r, a ≠ .command r) :
    step ⟨w, b⟩ = State.onBlock ⟨w, b.withHost rest⟩ fun c => c.act a := by
  cases a with
  | command r => exact absurd rfl (ha r)
  | _ => simp [step, State.fetch, hp, Block.fetchIdle, hh]

end Inversion

end Sys2Proof.Machine

/-! PROOF. The region map (R28): the order of the areas, what it says of regions and addresses, and that every step keeps
it. -/

namespace Sys2Proof.Machine

open Sys2Proof

section RegionMap

variable {w : Width}

/-! ### Areas in order -/

theorem areasInOrder_le {lo hi : Nat} {rs : List (Area w)} (h : areasInOrder lo rs hi) : lo ≤ hi := by
  induction rs generalizing lo with
  | nil => exact h
  | cons r rs ih =>
    obtain ⟨hlo, hrest⟩ := h
    have := ih hrest
    omega

theorem areasInOrder_mono {lo hi hi' : Nat} {rs : List (Area w)} (h : areasInOrder lo rs hi) (hh : hi ≤ hi') :
    areasInOrder lo rs hi' := by
  induction rs generalizing lo with
  | nil => exact Nat.le_trans h hh
  | cons r rs ih => exact ⟨h.1, ih h.2⟩

/-- An area at or above the end of the last one extends the order. -/
theorem areasInOrder_append {lo mid hi : Nat} {rs : List (Area w)} {r : Area w} (h : areasInOrder lo rs mid)
    (hbase : mid ≤ r.base.toNat) (hend : r.base.toNat + r.size.toNat ≤ hi) : areasInOrder lo (rs ++ [r]) hi := by
  induction rs generalizing lo with
  | nil => exact ⟨Nat.le_trans h hbase, hend⟩
  | cons q rs ih => exact ⟨h.1, ih h.2⟩

/-- Every area lies between the two bounds. -/
theorem areasInOrder_bounds {lo hi i : Nat} {rs : List (Area w)} {r : Area w} (h : areasInOrder lo rs hi)
    (hr : rs[i]? = some r) : lo ≤ r.base.toNat ∧ r.base.toNat + r.size.toNat ≤ hi := by
  induction rs generalizing lo i with
  | nil => simp at hr
  | cons q rs ih =>
    obtain ⟨hlo, hrest⟩ := h
    cases i with
    | zero =>
      obtain rfl : q = r := by simpa using hr
      exact ⟨hlo, areasInOrder_le hrest⟩
    | succ i =>
      obtain ⟨hbase, hend⟩ := ih hrest (by simpa using hr)
      exact ⟨by omega, hend⟩

/-- An area ends at or below the base of every later one. -/
theorem areasInOrder_lt {lo hi i j : Nat} {rs : List (Area w)} {r q : Area w} (h : areasInOrder lo rs hi) (hij : i < j)
    (hr : rs[i]? = some r) (hq : rs[j]? = some q) : r.base.toNat + r.size.toNat ≤ q.base.toNat := by
  induction rs generalizing lo i j with
  | nil => simp at hr
  | cons p rs ih =>
    obtain ⟨j, rfl⟩ := Nat.exists_eq_succ_of_ne_zero (Nat.ne_zero_of_lt hij)
    have hq : rs[j]? = some q := by simpa using hq
    cases i with
    | zero =>
      obtain rfl : p = r := by simpa using hr
      exact (areasInOrder_bounds h.2 hq).1
    | succ i => exact ih h.2 (Nat.lt_of_succ_lt_succ hij) (by simpa using hr) hq

/-! ### What the region map says of areas and addresses -/

theorem Block.regionsWf.area_bounds {b : Block w} (h : b.regionsWf) {i : Nat} {r : Area w} (hr : b.areas[i]? = some r) :
    b.memorySize.toNat ≤ r.base.toNat ∧ r.base.toNat + r.size.toNat ≤ b.nextFree.toNat := by
  obtain ⟨-, hord, -, -⟩ := h
  exact areasInOrder_bounds hord hr

theorem Block.regionsWf.area_before {b : Block w} (h : b.regionsWf) {i j : Nat} {r q : Area w} (hij : i < j)
    (hr : b.areas[i]? = some r) (hq : b.areas[j]? = some q) : r.base.toNat + r.size.toNat ≤ q.base.toNat := by
  obtain ⟨-, hord, -, -⟩ := h
  exact areasInOrder_lt hord hij hr hq

theorem Block.regionsWf.nextFree_le {b : Block w} (h : b.regionsWf) : b.nextFree.toNat ≤ 2 ^ w.bits := by
  obtain ⟨-, -, hle, -⟩ := h
  exact hle

/-- Two areas that share an address are the same entry. -/
theorem Block.regionsWf.area_unique {b : Block w} (h : b.regionsWf) {i j a : Nat} {r q : Area w}
    (hr : b.areas[i]? = some r) (hq : b.areas[j]? = some q)
    (har : r.base.toNat ≤ a ∧ a < r.base.toNat + r.size.toNat)
    (haq : q.base.toNat ≤ a ∧ a < q.base.toNat + q.size.toNat) : i = j := by
  rcases Nat.lt_trichotomy i j with hij | hij | hij
  · have := h.area_before hij hr hq
    omega
  · exact hij
  · have := h.area_before hij hq hr
    omega

/-- No address lies in two regions (R28). -/
theorem Block.regionsWf.region_unique {b : Block w} (h : b.regionsWf) {k k' a : Nat} (hk : b.inRegion k a)
    (hk' : b.inRegion k' a) : k = k' := by
  cases k with
  | zero =>
    cases k' with
    | zero => rfl
    | succ j =>
      obtain ⟨q, hq, hbase, -⟩ := hk'
      have := (h.area_bounds hq).1
      have : a < b.memorySize.toNat := hk
      omega
  | succ i =>
    obtain ⟨r, hr, har⟩ := hk
    cases k' with
    | zero =>
      have := (h.area_bounds hr).1
      have : a < b.memorySize.toNat := hk'
      omega
    | succ j =>
      obtain ⟨q, hq, haq⟩ := hk'
      rw [h.area_unique hr hq har haq]

/-- A byte of an area resolves to the host's byte behind it (R48, R53). -/
theorem Block.regionsWf.resolve_area {b : Block w} (h : b.regionsWf) {i j : Nat} {r : Area w}
    (hr : b.areas[i]? = some r) (hj : j < r.size.toNat) :
    b.resolve (r.base.toNat + j) 1 .byte = .found (i + 1) j (.host (r.data + j)) := by
  have hbase := (h.area_bounds hr).1
  refine Block.resolve_eq_found.2 ⟨Block.locate_eq_some.2 (.inr ⟨by omega, i, r, hr, ?_, ?_, rfl, ?_⟩), nofun⟩
  · exact Area.holds_iff.2 ⟨by omega, by omega⟩
  · intro m hm q hq
    have := h.area_before hm hq hr
    rw [Bool.eq_false_iff, ne_eq, Area.holds_iff]
    omega
  · simp

/-- A backed address lies below 2^W (R51). -/
theorem Block.regionsWf.resolved_lt {b : Block w} (h : b.regionsWf) {a region offset : Nat} {g : Granularity} {p : Slot}
    (hres : b.resolve a 1 g = .found region offset p) : a < 2 ^ w.bits := by
  have hsize := b.memorySize.isLt
  obtain ⟨hloc, -⟩ := Block.resolve_eq_found.1 hres
  obtain ⟨hle, -⟩ | ⟨-, i, r, hr, hholds, -⟩ := Block.locate_eq_some.1 hloc
  · omega
  · obtain ⟨-, hend⟩ := Area.holds_iff.1 hholds
    have := (h.area_bounds hr).2
    have := h.nextFree_le
    omega

/-! ### Every step keeps the region map -/

theorem width_bytes_pos (w : Width) : 0 < w.bytes := by cases w <;> decide

theorem width_pow_bits_mod_bytes (w : Width) : 2 ^ w.bits % w.bytes = 0 := by cases w <;> decide

/-- ALIGN stays within the address space, because 2^W is a multiple of WORD_BYTES (R137). -/
theorem roundup_bytes_le {x : Nat} (h : x ≤ 2 ^ w.bits) : roundup x w.bytes ≤ 2 ^ w.bits := by
  obtain ⟨-, -, hleast⟩ := roundup_spec (x := x) (width_bytes_pos w)
  exact hleast _ (width_pow_bits_mod_bytes w) h

/-- NEXT_FREE after ALIGN, as a number. -/
theorem Block.runAlign_nextFree_toNat {b : Block w} (h : b.nextFree.toNat ≤ 2 ^ w.bits) :
    b.runAlign.nextFree.toNat = roundup b.nextFree.toNat w.bytes := by
  have := roundup_bytes_le h
  rw [Block.runAlign_nextFree, BitVec.toNat_ofNat, Nat.mod_eq_of_lt (by omega)]

/-- ALIGN keeps the region map: NEXT_FREE only rises. -/
theorem Block.runAlign_regionsWf {b : Block w} (h : b.regionsWf) : b.runAlign.regionsWf := by
  obtain ⟨hlegal, hord, hle, hcount⟩ := h
  obtain ⟨-, hge, -⟩ := roundup_spec (x := b.nextFree.toNat) (width_bytes_pos w)
  refine ⟨hlegal, ?_, ?_, hcount⟩
  · rw [Block.runAlign_nextFree_toNat hle]
    exact areasInOrder_mono hord hge
  · rw [Block.runAlign_nextFree_toNat hle]
    exact roundup_bytes_le hle

theorem Block.exhausted_eq_false {b : Block w} {l : Nat} :
    b.exhausted l = false ↔ b.nextFree.toNat ≠ 2 ^ w.bits ∧ b.nextFree.toNat + l ≤ 2 ^ w.bits := by
  simp [Block.exhausted]

/-- ALLOC keeps the region map: the new area starts at NEXT_FREE and ends at the new NEXT_FREE (R134). -/
theorem Block.appendArea_regionsWf {b : Block w} (h : b.regionsWf) (hroom : b.areas.length ≠ b.maxAreas)
    (hfits : b.exhausted b.lengthOperand = false) (d : Buffer) : (b.appendArea b.lengthOperand d).regionsWf := by
  obtain ⟨hlegal, hord, hle, hcount⟩ := h
  obtain ⟨hne, hsum⟩ := Block.exhausted_eq_false.1 hfits
  have hl : b.lengthOperand < 2 ^ w.bits := b.port.opb.isLt
  have hbase : (b.nextFree.setWidth w.bits).toNat = b.nextFree.toNat := by
    rw [BitVec.toNat_setWidth, Nat.mod_eq_of_lt (by omega)]
  have hsize : (BitVec.ofNat w.bits b.lengthOperand).toNat = b.lengthOperand := by
    rw [BitVec.toNat_ofNat, Nat.mod_eq_of_lt hl]
  have hnext : (b.appendArea b.lengthOperand d).nextFree.toNat = b.nextFree.toNat + b.lengthOperand := by
    rw [Block.appendArea_nextFree, BitVec.toNat_add, BitVec.toNat_ofNat, Nat.add_mod_mod, Nat.mod_eq_of_lt (by omega)]
  refine ⟨hlegal, ?_, by omega, ?_⟩
  · rw [hnext]
    exact areasInOrder_append hord hbase.ge (by rw [hbase, hsize])
  · rw [Block.appendArea_areas, List.length_append, List.length_singleton]
    exact Nat.lt_of_le_of_ne hcount hroom

theorem ExecEffect.regionsWf {b c : Block w} {i : Instr} (h : ExecEffect b i c) (hb : b.regionsWf) : c.regionsWf := by
  cases h with
  | allocated _ _ hroom hfits _ => exact Block.appendArea_regionsWf hb hroom hfits b.bufferOperand
  | aligned => exact Block.runAlign_regionsWf hb
  | _ => exact hb

/-- What a launch the model does not refuse consists of (R9, R10, R25). -/
theorem launch_wf_iff {l : Launch w} :
    l.wf = true ↔ legalMemorySize l.memorySize = true ∧ 1 ≤ l.maxAreas ∧ l.pmemInit.wf ∧
      ∀ c ∈ l.pmemInit, c.1 < l.memorySize.toNat := by
  simp [Launch.wf, legalContents, and_assoc]

/-- A new machine has the primary region alone (R165). -/
theorem Block.construct_regionsWf {l : Launch w} (h : l.wf = true) : (Block.construct l).regionsWf := by
  obtain ⟨hlegal, -, -, -⟩ := launch_wf_iff.1 h
  have hsize := l.memorySize.isLt
  have hnext : (Block.construct l).nextFree.toNat = l.memorySize.toNat := by
    show (l.memorySize.setWidth (w.bits + 1)).toNat = _
    rw [BitVec.toNat_setWidth, Nat.mod_eq_of_lt (by omega)]
  exact ⟨hlegal, hnext.ge, by omega, Nat.zero_le _⟩

theorem Block.writeSlot_regionsWf {b : Block w} (h : b.regionsWf) (p : Slot) (x : Byte) :
    (b.writeSlot p x).regionsWf := by
  cases p <;> exact h

theorem ActEffect.regionsWf {b c : Block w} (h : ActEffect b c) (hb : b.regionsWf) : c.regionsWf := by
  cases h with
  | wrote p x _ => exact Block.writeSlot_regionsWf hb p x
  | constructed _ hw => exact Block.construct_regionsWf hw
  | _ => exact hb

theorem Transferred.regionsWf {b c : Block w} {op : CodecOp} (h : Transferred b op c) (hb : b.regionsWf) :
    c.regionsWf := by
  cases h with
  | written _ x => exact Block.writeSlot_regionsWf hb _ x
  | _ => exact hb

/-- Every step keeps the region map (R28). -/
theorem StepEffect.regionsWf {b c : Block w} (h : StepEffect b c) (hb : b.regionsWf) : c.regionsWf := by
  cases h with
  | waits => exact hb
  | command _ r rest h => exact h.regionsWf hb
  | acted _ rest h => exact h.regionsWf hb
  | contPut _ _ _ h => exact h.regionsWf hb
  | finalPut _ _ _ h => exact h.regionsWf hb
  | wireByte _ _ h _ he => exact he.regionsWf (h.regionsWf hb)
  | transferFailed _ h =>
    obtain ⟨⟨t, rfl⟩, -⟩ := h
    exact hb
  | responded => exact hb

end RegionMap

/-- Settles O38: every step keeps the order of the areas, and the order gives the bounds and the disjointness. -/
theorem regionMapIsKept : Obligations.RegionMapIsKept := by
  intro w w' b c hb h
  obtain ⟨d, hd, he⟩ := step_effect h
  cases hd
  have hc := he.regionsWf hb
  refine ⟨hc, fun r hr => (hc.area_bounds hr).1, fun i r q hr hq => ?_, fun i r hr => (hc.area_bounds hr).2,
    hc.nextFree_le, fun k k' a => hc.region_unique⟩
  have hend := hc.area_before (Nat.lt_succ_self i) hr hq
  refine ⟨hend, ?_⟩
  by_cases hs : r.size.toNat = 0
  · exact .inr (BitVec.eq_of_toNat_eq hs)
  · exact .inl (by omega)

end Sys2Proof.Machine

/-! PROOF. The invariant of the machine: each part of it is kept by every step, and construction establishes it. -/

namespace Sys2Proof.Machine

open Sys2Proof

section Invariant

variable {w : Width}

/-! ### Storage -/

/-- A write to a slot that exists keeps the storage well-formed. -/
theorem Block.writeSlot_storageWf {b : Block w} (h : b.storageWf) {p : Slot}
    (hp : ∀ j, p = .primary j → j < b.memorySize.toNat) (x : Byte) : (b.writeSlot p x).storageWf := by
  obtain ⟨hpmem, hbelow, hhost⟩ := h
  cases p with
  | primary j => exact ⟨Memory.write_wf hpmem j x, Memory.write_below hbelow (hp j rfl) x, hhost⟩
  | host a => exact ⟨hpmem, hbelow, Memory.write_wf hhost a x⟩

theorem ExecEffect.storageWf {b c : Block w} {i : Instr} (h : ExecEffect b i c) (hb : b.storageWf) : c.storageWf := by
  cases h <;> exact hb

theorem ActEffect.storageWf {b c : Block w} (h : ActEffect b c) (hb : b.storageWf) : c.storageWf := by
  cases h with
  | wrote p x hp => exact Block.writeSlot_storageWf hb hp x
  | constructed _ hw =>
    obtain ⟨-, -, hpmem, hbelow⟩ := launch_wf_iff.1 hw
    obtain ⟨-, -, hhost⟩ := hb
    exact ⟨hpmem, hbelow, hhost⟩
  | _ => exact hb

theorem Transferred.storageWf {b c : Block w} {op : CodecOp} (h : Transferred b op c) (hb : b.storageWf) :
    c.storageWf := by
  cases h with
  | written hres x => exact Block.writeSlot_storageWf hb (fun j hj => Block.resolve_primary_lt (hj ▸ hres)) x
  | _ => exact hb

theorem StepEffect.storageWf {b c : Block w} (h : StepEffect b c) (hb : b.storageWf) : c.storageWf := by
  cases h with
  | waits => exact hb
  | command _ r rest h => exact h.storageWf hb
  | acted _ rest h => exact h.storageWf hb
  | contPut _ _ _ h => exact h.storageWf hb
  | finalPut _ _ _ h => exact h.storageWf hb
  | wireByte _ _ h _ he => exact he.storageWf (h.storageWf hb)
  | transferFailed _ h =>
    obtain ⟨⟨t, rfl⟩, -⟩ := h
    exact hb
  | responded => exact hb

/-! ### The response -/

/-- The end of a command makes RSP_STATUS and LAST_STATUS agree (R151). -/
theorem Block.endCommand_responseWf (b : Block w) (st : Status) (f : Response w) : (b.endCommand st f).responseWf :=
  ⟨fun _ h => Option.some.inj h, nofun⟩

theorem Block.construct_responseWf (l : Launch w) : (Block.construct l).responseWf :=
  ⟨nofun, fun _ => ⟨rfl, rfl⟩⟩

theorem Block.writeSlot_responseWf {b : Block w} (h : b.responseWf) (p : Slot) (x : Byte) :
    (b.writeSlot p x).responseWf := by
  cases p <;> exact h

theorem ExecEffect.responseWf {b c : Block w} {i : Instr} (h : ExecEffect b i c) (hb : b.responseWf) :
    c.responseWf := by
  cases h with
  | ended _ st f => exact b.endCommand_responseWf st f
  | allocated _ _ _ _ f => exact Block.endCommand_responseWf _ .ok f
  | aligned => exact Block.endCommand_responseWf _ .ok {}
  | _ => exact hb

theorem ActEffect.responseWf {b c : Block w} (h : ActEffect b c) (hb : b.responseWf) : c.responseWf := by
  cases h with
  | wrote p x _ => exact Block.writeSlot_responseWf hb p x
  | @constructed _ size contents _ => exact Block.construct_responseWf (b.relaunch size contents)
  | _ => exact hb

theorem Transferred.responseWf {b c : Block w} {op : CodecOp} (h : Transferred b op c) (hb : b.responseWf) :
    c.responseWf := by
  cases h with
  | written _ x => exact Block.writeSlot_responseWf hb _ x
  | _ => exact hb

theorem StepEffect.responseWf {b c : Block w} (h : StepEffect b c) (hb : b.responseWf) : c.responseWf := by
  cases h with
  | waits => exact hb
  | command _ r rest h => exact h.responseWf hb
  | acted _ rest h => exact h.responseWf hb
  | contPut _ _ _ h => exact h.responseWf hb
  | finalPut _ _ _ h => exact h.responseWf hb
  | wireByte _ _ h _ he => exact he.responseWf (h.responseWf hb)
  | transferFailed _ h =>
    obtain ⟨⟨t, rfl⟩, -⟩ := h
    exact hb
  | responded _ st f => exact b.endCommand_responseWf st f

/-! ### The codec registers -/

/-- What binds W and MAX_CONT (R12): the last chunk limit lies below W, and MAX_LEN bytes cover W. -/
theorem width_maxCont_bounds (w : Width) :
    7 * w.maxCont < w.bits ∧ w.bits < 7 * w.maxCont + 7 ∧ 7 ≤ w.bits ∧ w.maxLen = w.maxCont + 1 := by
  cases w <;> decide

theorem Block.phaseWf_idle {b : Block w} (hp : b.phase = .idle) : b.phaseWf := by
  rw [Block.phaseWf, hp]
  trivial

theorem Block.phaseWf_decoding {b : Block w} {op : CodecOp} (hp : b.phase = .busy op .transfer)
    (hd : op.decodes = true) : b.phaseWf ↔ b.off = 7 * b.cnt ∧ b.acc.toNat < 2 ^ b.off := by
  simp [Block.phaseWf, hp, hd]

theorem Block.phaseWf_encoding {b : Block w} {op : CodecOp} (hp : b.phase = .busy op .transfer)
    (hd : op.decodes = false) : b.phaseWf ↔ b.bits + 7 * b.cnt ≤ w.bits := by
  simp [Block.phaseWf, hp, hd]

/-- The byte steps end with a result the command can have, TOO_WIDE only at MAX_LEN bytes (R102, R146). -/
theorem Block.finish_phaseWf {b : Block w} {op : CodecOp} {res : CodecResult w} (hres : res.allowed op)
    (hlen : res = .failed .tooWide → b.cnt = w.maxLen) : (b.finish op res).phaseWf := ⟨hres, hlen⟩

/-- OPA is an address below 2^W, so the cursor it starts is in range (R30). -/
theorem Block.startAddress_le (b : Block w) : b.startAddress.toNat ≤ 2 ^ w.bits := by
  have := b.port.opa.isLt
  have hle : b.startAddress.toNat ≤ b.port.opa.toNat := by
    rw [Block.startAddress, BitVec.toNat_setWidth]
    exact Nat.mod_le _ _
  omega

/-- `CUR` moves past a backed byte and stays within 2^W (R51). -/
theorem Block.advance_cur_le {b : Block w} (h : b.cur.toNat < 2 ^ w.bits) : b.advance.cur.toNat ≤ 2 ^ w.bits := by
  have hle : (b.cur + 1).toNat ≤ b.cur.toNat + 1 := by
    rw [BitVec.toNat_add]
    refine (Nat.mod_le _ _).trans (Nat.add_le_add_left ?_ _)
    exact (BitVec.toNat_ofNat 1 _).le.trans (Nat.mod_le _ _)
  exact hle.trans h

/-- A chunk joined at OFF keeps ACC below the new OFF (R101). -/
theorem accumulate_chunk_lt {acc : Word w} {off : Nat} (h : acc.toNat < 2 ^ off) (x : BitVec 7) :
    (accumulate acc off x).toNat < 2 ^ (off + 7) := by
  obtain ⟨-, -, hseven, -⟩ := width_maxCont_bounds w
  have hchunk : x.toNat * 2 ^ off ≤ 127 * 2 ^ off := Nat.mul_le_mul_right _ (Nat.le_of_lt_succ x.isLt)
  calc (accumulate acc off x).toNat
      = (acc.toNat + x.toNat * 2 ^ off) % 2 ^ w.bits := accumulate_toNat acc off x hseven h
    _ ≤ acc.toNat + x.toNat * 2 ^ off := Nat.mod_le _ _
    _ < 2 ^ (off + 7) := by rw [pow_add]; omega

/-- The encoder is taken with a width of at most W and a count of 0 (R98). -/
theorem Block.loadEncoder_accept_codecWf {b : Block w} (h : b.codecWf) {op : CodecOp} (hop : op.decodes = false)
    (k : Kind) (v : Word w) : ((b.loadEncoder k v).accept op).codecWf := by
  obtain ⟨hoff, -, -, hcur, -⟩ := h
  have hbits : significantWidth k v ≤ w.bits := significantWidth_le k v
  exact ⟨hoff, Nat.zero_le _, hbits, hcur, (Block.phaseWf_encoding rfl hop).2 hbits⟩

/-- The decoder is taken with every register of it at 0 (R101, R117). -/
theorem Block.clearDecoder_accept_codecWf {b : Block w} (h : b.codecWf) {op : CodecOp} (hop : op.decodes = true) :
    (b.clearDecoder.accept op).codecWf := by
  obtain ⟨-, -, hbits, hcur, -⟩ := h
  exact ⟨Nat.zero_le _, Nat.zero_le _, hbits, hcur, (Block.phaseWf_decoding rfl hop).2 ⟨rfl, by simp⟩⟩

/-- The cursor takes OPA at IDLE. -/
theorem Block.loadCursor_codecWf {b : Block w} (h : b.codecWf) (hp : b.phase = .idle) : b.loadCursor.codecWf := by
  obtain ⟨hoff, hcnt, hbits, -, -⟩ := h
  exact ⟨hoff, hcnt, hbits, b.startAddress_le, Block.phaseWf_idle hp⟩

/-- A block at IDLE whose codec registers are those of a well-formed one. -/
theorem Block.endCommand_codecWf {b : Block w} (h : b.codecWf) (st : Status) (f : Response w) :
    (b.endCommand st f).codecWf := by
  obtain ⟨hoff, hcnt, hbits, hcur, -⟩ := h
  exact ⟨hoff, hcnt, hbits, hcur, Block.phaseWf_idle rfl⟩

/-- The count of a running decode is that of its chunks, at most MAX_CONT (R101). -/
theorem Block.codecWf.decoding {b : Block w} (h : b.codecWf) {op : CodecOp} (hp : b.phase = .busy op .transfer)
    (hd : op.decodes = true) : b.off = 7 * b.cnt ∧ b.acc.toNat < 2 ^ b.off ∧ b.cnt ≤ w.maxCont := by
  obtain ⟨hoff, -, -, -, hphase⟩ := h
  obtain ⟨hcount, hacc⟩ := (Block.phaseWf_decoding hp hd).1 hphase
  exact ⟨hcount, hacc, by omega⟩

theorem ExecEffect.codecWf {b c : Block w} {i : Instr} (h : ExecEffect b i c) (hb : b.codecWf) : c.codecWf := by
  obtain ⟨hlow, hhigh, -, hlen⟩ := width_maxCont_bounds w
  have ⟨hoff, hcnt, hbits, hcur, hphase⟩ := hb
  cases h with
  | encS hr k => exact Block.loadEncoder_accept_codecWf hb rfl k _
  | encM hr k => exact Block.loadEncoder_accept_codecWf (Block.loadCursor_codecWf hb hr.2) rfl k _
  | decS hr => exact Block.clearDecoder_accept_codecWf hb rfl
  | decM hr => exact Block.clearDecoder_accept_codecWf (Block.loadCursor_codecWf hb hr.2) rfl
  | ended _ st f => exact Block.endCommand_codecWf hb st f
  | allocated _ _ _ _ f => exact Block.endCommand_codecWf (b := b) hb .ok f
  | aligned => exact Block.endCommand_codecWf (b := b) hb .ok {}
  | chunk hp hd hlimit x =>
    obtain ⟨hcount, hacc, -⟩ := hb.decoding hp hd
    refine ⟨?_, ?_, hbits, hcur,
      (Block.phaseWf_decoding (b := b.countByte.joinChunk x) hp hd).2 ⟨?_, accumulate_chunk_lt hacc x⟩⟩
    · show b.off + 7 ≤ 7 * w.maxCont
      omega
    · show b.cnt + 1 ≤ w.maxLen
      omega
    · show b.off + 7 = 7 * (b.cnt + 1)
      omega
  | tooWide hp hd hlimit =>
    obtain ⟨hcount, -, hmax⟩ := hb.decoding hp hd
    have hlast : b.cnt + 1 = w.maxLen := by omega
    exact ⟨hoff, hlast.le, hbits, hcur, Block.finish_phaseWf hd fun _ => hlast⟩
  | final hp hd k x =>
    obtain ⟨-, -, hmax⟩ := hb.decoding hp hd
    exact ⟨hoff, by show b.cnt + 1 ≤ w.maxLen; omega, hbits, hcur, Block.finish_phaseWf hd nofun⟩

theorem Block.writeSlot_codecWf {b : Block w} (h : b.codecWf) (p : Slot) (x : Byte) : (b.writeSlot p x).codecWf := by
  cases p <;> exact h

theorem Block.construct_codecWf (l : Launch w) : (Block.construct l).codecWf :=
  ⟨Nat.zero_le _, Nat.zero_le _, Nat.zero_le _, Nat.zero_le _, Block.phaseWf_idle rfl⟩

theorem ActEffect.codecWf {b c : Block w} (h : ActEffect b c) (hb : b.codecWf) : c.codecWf := by
  cases h with
  | wrote p x _ => exact Block.writeSlot_codecWf hb p x
  | @constructed _ size contents _ => exact Block.construct_codecWf (b.relaunch size contents)
  | _ => exact hb

theorem Block.advance_codecWf {b : Block w} (h : b.codecWf) (hcur : b.cur.toNat < 2 ^ w.bits) : b.advance.codecWf := by
  obtain ⟨hoff, hcnt, hbits, -, hphase⟩ := h
  exact ⟨hoff, hcnt, hbits, Block.advance_cur_le hcur, hphase⟩

theorem Transferred.codecWf {b c : Block w} {op : CodecOp} (h : Transferred b op c) (hmap : b.regionsWf)
    (hb : b.codecWf) : c.codecWf := by
  cases h with
  | written hres x =>
    refine Block.advance_codecWf (Block.writeSlot_codecWf hb _ x) ?_
    rw [Block.writeSlot_cur]
    exact hmap.resolved_lt hres
  | read hres => exact Block.advance_codecWf hb (hmap.resolved_lt hres)
  | stream => exact hb

/-- A transfer moves no register of the cores and no PHASE. -/
theorem Transferred.cores {b c : Block w} {op : CodecOp} (h : Transferred b op c) :
    c.phase = b.phase ∧ c.bits = b.bits ∧ c.cnt = b.cnt := by
  cases h with
  | @written _ _ p => cases p <;> exact ⟨rfl, rfl, rfl⟩
  | _ => exact ⟨rfl, rfl, rfl⟩

/-- A continuation byte was put: seven bits fewer remain for one byte more (R98). -/
theorem Block.afterContPut_codecWf {b : Block w} (h : b.codecWf) {op : CodecOp} (hp : b.phase = .busy op .transfer)
    (hop : op.decodes = false) (hmore : 6 < b.bits) : b.afterContPut.codecWf := by
  obtain ⟨-, hhigh, -, hlen⟩ := width_maxCont_bounds w
  obtain ⟨hoff, -, hbits, hcur, hphase⟩ := h
  have hsum := (Block.phaseWf_encoding hp hop).1 hphase
  refine ⟨hoff, ?_, ?_, hcur, (Block.phaseWf_encoding (b := b.afterContPut) hp hop).2 ?_⟩
  · show b.cnt + 1 ≤ w.maxLen
    omega
  · show b.bits - 7 ≤ w.bits
    omega
  · show b.bits - 7 + 7 * (b.cnt + 1) ≤ w.bits
    omega

/-- The final byte was put: MAX_LEN bytes are enough for W bits (R98). -/
theorem Block.finalPut_codecWf {b : Block w} (h : b.codecWf) {op : CodecOp} (hp : b.phase = .busy op .transfer)
    (hop : op.decodes = false) : (b.countByte.finish op .encoded).codecWf := by
  obtain ⟨-, hhigh, -, hlen⟩ := width_maxCont_bounds w
  obtain ⟨hoff, -, hbits, hcur, hphase⟩ := h
  have hsum := (Block.phaseWf_encoding hp hop).1 hphase
  exact ⟨hoff, by show b.cnt + 1 ≤ w.maxLen; omega, hbits, hcur, Block.finish_phaseWf hop nofun⟩

/-- A transfer that failed leaves a result the command can have (R146). -/
theorem FailedTransfer.codecWf {b c : Block w} {op : CodecOp} {st : Status} (h : FailedTransfer b op st c)
    (hb : b.codecWf) : (c.finish op (.failed st)).codecWf := by
  obtain ⟨hoff, hcnt, hbits, hcur, -⟩ := hb
  obtain ⟨⟨t, rfl⟩, ⟨rfl, hop⟩ | ⟨rfl, hop⟩⟩ := h
  · exact ⟨hoff, hcnt, hbits, hcur, Block.finish_phaseWf hop nofun⟩
  · exact ⟨hoff, hcnt, hbits, hcur, Block.finish_phaseWf hop nofun⟩

/-- Every step keeps the ranges of the codec registers; a cursor that moves needs the region map (R28, R51). -/
theorem StepEffect.codecWf {b c : Block w} (h : StepEffect b c) (hmap : b.regionsWf) (hb : b.codecWf) : c.codecWf := by
  cases h with
  | waits => exact hb
  | command _ r rest h => exact h.codecWf hb
  | acted _ rest h => exact h.codecWf hb
  | contPut hp hop hmore h =>
    obtain ⟨hphase, hbits, -⟩ := h.cores
    exact Block.afterContPut_codecWf (h.codecWf hmap hb) (hphase.trans hp) hop (hbits ▸ hmore)
  | finalPut hp hop _ h =>
    obtain ⟨hphase, -, -⟩ := h.cores
    exact Block.finalPut_codecWf (h.codecWf hmap hb) (hphase.trans hp) hop
  | wireByte _ _ h _ he => exact he.codecWf (h.codecWf hmap hb)
  | transferFailed _ h => exact h.codecWf hb
  | responded _ st f => exact Block.endCommand_codecWf hb st f

end Invariant

/-- Settles O54, part by part of the invariant. -/
theorem everyStepKeepsTheInvariant : Obligations.EveryStepKeepsTheInvariant := by
  rintro ⟨w, b⟩ t ⟨hmap, hstorage, hcodec, hresponse⟩ h
  obtain ⟨c, rfl, he⟩ := step_effect h
  exact ⟨he.regionsWf hmap, he.storageWf hstorage, he.codecWf hmap hcodec, he.responseWf hresponse⟩

/-- Settles O53: construction establishes each part of the invariant. -/
theorem invariantAtEveryLaunch : Obligations.InvariantAtEveryLaunch := by
  intro w l s h
  unfold State.launch at h
  split at h
  · next hw =>
    cases h
    obtain ⟨-, -, hpmem, hbelow⟩ := launch_wf_iff.1 hw
    exact ⟨Block.construct_regionsWf hw, ⟨hpmem, hbelow, Memory.wf_nil⟩, Block.construct_codecWf l,
      Block.construct_responseWf l⟩
  · cases h

/-- Settles O52: reset is the launch `Launch.default`, which the model does not refuse. -/
theorem invariantAtReset : Obligations.InvariantAtReset := by
  have hlaunch : State.launch .w32 Launch.default = .next State.reset := if_pos (by decide)
  exact invariantAtEveryLaunch .w32 Launch.default State.reset hlaunch

end Sys2Proof.Machine

/-! PROOF. What instructions and byte steps leave alone, and the steps at IDLE: taking a command, reading a response, a
change of the host's buffer. -/

namespace Sys2Proof.Machine

open Sys2Proof

section Frame

variable {w : Width}

/-! ### What the validator and a read of a byte depend on -/

theorem Block.locate_congr {b c : Block w} (hsize : c.memorySize = b.memorySize) (hareas : c.areas = b.areas)
    (a l : Nat) : c.locate a l = b.locate a l := by
  simp only [Block.locate, hsize, hareas]

theorem Block.readSlot_congr {b c : Block w} (hpmem : c.pmem = b.pmem) (hhost : c.hostMem = b.hostMem) (p : Slot) :
    c.readSlot p = b.readSlot p := by
  cases p with
  | primary j => exact congrArg (·.read j) hpmem
  | host a => exact congrArg (·.read a) hhost

/-- The byte at an address: the machine exists and the address resolves to the slot that holds it. -/
theorem Block.byteAt_eq_some {b : Block w} {a : Nat} {x : Byte} :
    b.byteAt a = some x ↔
      b.live = true ∧ ∃ region offset p, b.resolve a 1 .byte = .found region offset p ∧ b.readSlot p = x := by
  unfold Block.byteAt
  cases b.live with
  | false => simp
  | true => cases b.resolve a 1 .byte <;> simp

/-- The areas found before are found again where areas were added at the end. -/
theorem findArea_append {a l i : Nat} {rs : List (Area w)} {q : Nat × Area w} (h : findArea a l i rs = some q)
    (new : List (Area w)) : findArea a l i (rs ++ new) = some q := by
  induction rs generalizing i with
  | nil => cases h
  | cons r rs ih =>
    simp only [findArea, List.cons_append] at h ⊢
    split at h
    · next hh => rw [if_pos hh, h]
    · next hh => rw [if_neg hh, ih h]

/-- What lay in a region lies there still where areas were added at the end. -/
theorem Block.locate_append {b c : Block w} {new : List (Area w)} (hsize : c.memorySize = b.memorySize)
    (hareas : c.areas = b.areas ++ new) {a l : Nat} {q : Nat × Nat × Slot} (h : b.locate a l = some q) :
    c.locate a l = some q := by
  unfold Block.locate at h ⊢
  rw [hsize, hareas]
  split at h
  · next hle => rw [if_pos hle, h]
  · next hle =>
    rw [if_neg hle]
    split at h
    · next hf =>
      rw [findArea_append hf]
      exact h
    · cases h

/-! ### The frame of an instruction -/

/-- What no instruction touches when it executes: the parameters, the storage, the command port and the agents. -/
structure SameSurroundings (b c : Block w) : Prop where
  memorySize : c.memorySize = b.memorySize
  maxAreas : c.maxAreas = b.maxAreas
  endian : c.endian = b.endian
  port : c.port = b.port
  live : c.live = b.live
  stream : c.stream = b.stream
  host : c.host = b.host
  pmem : c.pmem = b.pmem
  hostMem : c.hostMem = b.hostMem

theorem ExecEffect.surroundings {b c : Block w} {i : Instr} (h : ExecEffect b i c) : SameSurroundings b c := by
  cases h <;> exact ⟨rfl, rfl, rfl, rfl, rfl, rfl, rfl, rfl, rfl⟩

theorem ExecEffect.areas_eq {b c : Block w} {i : Instr} (h : ExecEffect b i c) (hi : i ≠ .alloc) : c.areas = b.areas := by
  cases h with
  | allocated _ hi' => exact absurd hi' hi
  | _ => rfl

theorem ExecEffect.nextFree_eq {b c : Block w} {i : Instr} (h : ExecEffect b i c) (halloc : i ≠ .alloc)
    (halign : i ≠ .align) : c.nextFree = b.nextFree := by
  cases h with
  | allocated _ hi => exact absurd hi halloc
  | aligned _ hi => exact absurd hi halign
  | _ => rfl

/-- A wire byte is no command of the allocator. -/
theorem wire_ne_allocator {i : Instr} (hi : i.channel = .wire) : i ≠ .alloc ∧ i ≠ .align := by
  refine ⟨?_, ?_⟩ <;> rintro rfl <;> cases hi

/-- At most one area is added, at the end (R26). -/
theorem ExecEffect.areas_append {b c : Block w} {i : Instr} (h : ExecEffect b i c) :
    ∃ new, c.areas = b.areas ++ new ∧ new.length ≤ 1 := by
  cases h with
  | allocated => exact ⟨[_], rfl, le_rfl⟩
  | _ => exact ⟨[], (List.append_nil _).symm, Nat.zero_le _⟩

/-- With the areas unchanged, every address reads as before. -/
theorem SameSurroundings.byteAt {b c : Block w} (h : SameSurroundings b c) (hareas : c.areas = b.areas) (a : Nat) :
    c.byteAt a = b.byteAt a := by
  simp only [Block.byteAt, Block.resolve, Block.locate_congr h.memorySize hareas, h.live,
    Block.readSlot_congr h.pmem h.hostMem]

/-- With areas added at the end, what could be read before reads the same. -/
theorem SameSurroundings.byteAt_append {b c : Block w} (h : SameSurroundings b c) {new : List (Area w)}
    (hareas : c.areas = b.areas ++ new) {a : Nat} {x : Byte} (hx : b.byteAt a = some x) : c.byteAt a = some x := by
  obtain ⟨hlive, region, offset, p, hres, hread⟩ := Block.byteAt_eq_some.1 hx
  obtain ⟨hloc, halign⟩ := Block.resolve_eq_found.1 hres
  exact Block.byteAt_eq_some.2 ⟨h.live.trans hlive, region, offset, p,
    Block.resolve_eq_found.2 ⟨Block.locate_append h.memorySize hareas hloc, halign⟩,
    (Block.readSlot_congr h.pmem h.hostMem p).trans hread⟩

/-! ### The frame of a byte step -/

/-- What a step at BUSY may do outside the codec's own registers and the response: move the stream, and for ENC.M change
the byte behind `CUR` (R36, R176). -/
structure BusyFrame (b : Block w) (op : CodecOp) (c : Block w) : Prop where
  host : c.host = b.host
  areas : c.areas = b.areas
  nextFree : c.nextFree = b.nextFree
  memorySize : c.memorySize = b.memorySize
  live : c.live = b.live
  port : c.port = b.port
  slots : ∀ q, c.readSlot q ≠ b.readSlot q →
    op = .encM ∧ ∃ region offset, b.resolve b.cur.toNat 1 .byte = .found region offset q

theorem BusyFrame.refl (b : Block w) (op : CodecOp) : BusyFrame b op b :=
  ⟨rfl, rfl, rfl, rfl, rfl, rfl, fun _ hq => absurd rfl hq⟩

/-- What comes after leaves storage, map and agents as they are. -/
theorem BusyFrame.trans_same {b c d : Block w} {op : CodecOp} (h : BusyFrame b op c) (hs : SameSurroundings c d)
    (hareas : d.areas = c.areas) (hnext : d.nextFree = c.nextFree) : BusyFrame b op d where
  host := hs.host.trans h.host
  areas := hareas.trans h.areas
  nextFree := hnext.trans h.nextFree
  memorySize := hs.memorySize.trans h.memorySize
  live := hs.live.trans h.live
  port := hs.port.trans h.port
  slots q hq := h.slots q (Block.readSlot_congr hs.pmem hs.hostMem q ▸ hq)

theorem Transferred.busyFrame {b c : Block w} {op : CodecOp} (h : Transferred b op c) (hp : b.pmem.wf)
    (hh : b.hostMem.wf) : BusyFrame b op c := by
  cases h with
  | @written region offset p hres x =>
    refine ⟨?_, ?_, ?_, ?_, ?_, ?_, fun q hq => ?_⟩
    · exact b.writeSlot_host p x
    · exact b.writeSlot_areas p x
    · exact b.writeSlot_nextFree p x
    · exact b.writeSlot_memorySize p x
    · exact b.writeSlot_live p x
    · exact b.writeSlot_port p x
    · have hread : (b.writeSlot p x).advance.readSlot q = if q = p then x else b.readSlot q :=
        (Block.readSlot_congr rfl rfl q).trans (Block.readSlot_writeSlot hp hh p q x)
      obtain rfl : q = p := by
        by_contra hne
        exact hq (hread.trans (if_neg hne))
      exact ⟨rfl, region, offset, hres⟩
  | read => exact (BusyFrame.refl b _).trans_same ⟨rfl, rfl, rfl, rfl, rfl, rfl, rfl, rfl, rfl⟩ rfl rfl
  | stream _ t =>
    exact ⟨rfl, rfl, rfl, rfl, rfl, rfl, fun q hq => absurd (Block.readSlot_congr rfl rfl q) hq⟩

/-- Every step at BUSY stays within the frame. -/
theorem StepEffect.busyFrame {b c : Block w} (h : StepEffect b c) {op : CodecOp} {stage : Stage w}
    (hbusy : b.phase = .busy op stage) (hp : b.pmem.wf) (hh : b.hostMem.wf) : BusyFrame b op c := by
  cases h with
  | waits => exact .refl b op
  | command hidle => cases hidle.symm.trans hbusy
  | acted hidle => cases hidle.symm.trans hbusy
  | contPut hphase _ _ h =>
    cases hphase.symm.trans hbusy
    exact (h.busyFrame hp hh).trans_same ⟨rfl, rfl, rfl, rfl, rfl, rfl, rfl, rfl, rfl⟩ rfl rfl
  | finalPut hphase _ _ h =>
    cases hphase.symm.trans hbusy
    exact (h.busyFrame hp hh).trans_same ⟨rfl, rfl, rfl, rfl, rfl, rfl, rfl, rfl, rfl⟩ rfl rfl
  | wireByte hphase _ h hi he =>
    cases hphase.symm.trans hbusy
    obtain ⟨halloc, halign⟩ := wire_ne_allocator hi
    exact (h.busyFrame hp hh).trans_same he.surroundings (he.areas_eq halloc) (he.nextFree_eq halloc halign)
  | transferFailed _ h =>
    obtain ⟨⟨t, rfl⟩, -⟩ := h
    exact ⟨rfl, rfl, rfl, rfl, rfl, rfl, fun q hq => absurd (Block.readSlot_congr rfl rfl q) hq⟩
  | responded _ st f =>
    exact (BusyFrame.refl b op).trans_same ⟨rfl, rfl, rfl, rfl, rfl, rfl, rfl, rfl, rfl⟩ rfl rfl

/-! ### Command words -/

/-- A reserved word stands for itself (R88). -/
theorem decodeCommand_eq_reserved {x c : Byte} (h : decodeCommand x = .reserved c) : c = x := by
  unfold decodeCommand at h
  split at h
  · cases h
    rfl
  · split at h <;> cases h
    rfl

/-- What a command word decodes to is well-formed. -/
theorem decodeCommand_wf (x : Byte) : (decodeCommand x).wf = true := by
  cases h : decodeCommand x with
  | reserved c =>
    obtain rfl := decodeCommand_eq_reserved h
    simp [Instr.wf, isReserved, h]
  | _ => rfl

end Frame

/-- Settles O39: the effects of executing an instruction, each with its frame. -/
theorem executingLeavesTheRestAlone : Obligations.ExecutingLeavesTheRestAlone := by
  intro w b i t h
  obtain ⟨c, rfl, he⟩ := exec_effect h
  have hs := he.surroundings
  obtain ⟨new, hnew, hlen⟩ := he.areas_append
  exact ⟨c, rfl, hs.memorySize, hs.maxAreas, hs.endian, hs.port, hs.live, hs.stream, hs.host,
    Block.readSlot_congr hs.pmem hs.hostMem, hs.pmem, hs.hostMem,
    fun hi => ⟨he.areas_eq hi, hs.byteAt (he.areas_eq hi)⟩, he.nextFree_eq, ⟨new, hnew, hlen⟩,
    fun _ _ => hs.byteAt_append hnew⟩

/-- Settles O45: the frame of a step at BUSY. -/
theorem onlyTheBlockActsAtBusy : Obligations.OnlyTheBlockActsAtBusy := by
  intro w b op stage hbusy hp hh t h
  obtain ⟨c, rfl, he⟩ := step_effect h
  have hf := he.busyFrame hbusy hp hh
  exact ⟨c, rfl, hf.host, hf.areas, hf.nextFree, hf.memorySize, hf.live, hf.port, hf.slots⟩

/-- Settles O47: under the region map the area's address resolves to the host's byte that was stored. -/
theorem areasAreTheHostsBuffer : Obligations.AreasAreTheHostsBuffer := by
  rintro w b i r j x rest ⟨hlive, hidle⟩ hmap hhost hr hj hq
  have hstep : step ⟨w, b⟩ = .next ⟨w, (b.withHost rest).hostWrites (r.data + j) x⟩ :=
    (step_of_action hidle hq nofun).trans (State.onBlock_of_next rfl)
  have hread : (b.hostMem.write (r.data + j) x).read (r.data + j) = x := by
    rw [Memory.read_write hhost, if_pos rfl]
  exact ⟨_, hstep, Block.byteAt_eq_some.2 ⟨hlive, _, _, _, hmap.resolve_area hr hj, hread⟩, rfl⟩

/-- Settles O18: a ready machine runs the encoders' own meaning. -/
theorem encodersAreTaken : Obligations.EncodersAreTaken := by
  intro w b hr
  have hcur : BitVec.ofNat (w.bits + 1) b.port.opa.toNat = b.startAddress := BitVec.ofNat_toNat _ _
  rw [hcur]
  exact ⟨onBlock_command_of_ready hr rfl, onBlock_command_of_ready hr rfl, onBlock_command_of_ready hr rfl,
    onBlock_command_of_ready hr rfl⟩

/-- Settles O19: a ready machine runs the decoders' own meaning. -/
theorem decodersAreTaken : Obligations.DecodersAreTaken := by
  intro w b hr
  have hcur : BitVec.ofNat (w.bits + 1) b.port.opa.toNat = b.startAddress := BitVec.ofNat_toNat _ _
  rw [hcur]
  exact ⟨onBlock_command_of_ready hr rfl, onBlock_command_of_ready hr rfl⟩

/-- Settles O20: every command word runs through the check of PHASE. -/
theorem noCommandIsTakenAtBusy : Obligations.NoCommandIsTakenAtBusy := by
  intro w b i hi hlive hphase
  obtain ⟨f, hf⟩ := exec_of_command_channel hi b
  exact hf.trans (State.onBlock_of_refused (Block.command_busy hlive hphase f))

/-- Settles O42: the command word decodes to a well-formed instruction, which the step executes. -/
theorem stepExecutesTheCommand : Obligations.StepExecutesTheCommand := by
  intro w b r rest i left hidle hq hdec
  cases hdec
  exact ⟨decodeCommand_wf r.cmd, step_of_command hidle hq⟩

/-- Settles O46: on a live machine the read is `Block.hostReads`. -/
theorem onlyValidFieldsCanBeRead : Obligations.OnlyValidFieldsCanBeRead := by
  rintro w b f rest ⟨hlive, hidle⟩ hq
  have hstep := step_of_action hidle hq nofun
  have hact : (b.withHost rest).act (.readResponse f) = (b.withHost rest).hostReads f := Block.whileLive_live hlive _
  refine ⟨fun hnone => hstep.trans (State.onBlock_of_fault (hact.trans ?_)),
    fun v hsome => hstep.trans (State.onBlock_of_next (hact.trans ?_))⟩
  · simp [Block.hostReads, hnone]
  · simp [Block.hostReads, hsome, Block.withHost]

end Sys2Proof.Machine

/-! PROOF. The cores as functions on byte strings: what EncodeCore puts, DecodeCore reads back (R98, R101, R104). -/

namespace Sys2Proof.Machine

open Sys2Proof

section Cores

variable {w : Width}

/-! ### The low bits of a word -/

/-- The word of the `n` low bits of `v`: what ACC holds after the chunks of an encoding of `v` up to OFF = `n` (R101). -/
def lowBits (v : Word w) (n : Nat) : Word w := (v.setWidth n).setWidth w.bits

theorem lowBits_zero (v : Word w) : lowBits v 0 = 0 := by
  apply BitVec.eq_of_getLsbD_eq
  simp [lowBits]

theorem lowBits_getLsbD (v : Word w) (n i : Nat) :
    (lowBits v n).getLsbD i = (decide (i < n) && v.getLsbD i) := by
  rw [lowBits, BitVec.getLsbD_setWidth, BitVec.getLsbD_setWidth]
  by_cases hi : i < w.bits
  · simp [hi]
  · simp [hi, BitVec.getLsbD_of_ge v i (by omega)]

/-- The next `n` bits of `v`, joined at OFF, extend the low bits; bits shifted in from the sign fall off at W. -/
theorem accumulate_lowBits (v : Word w) (off n : Nat) :
    accumulate (lowBits v off) off ((v.sshiftRight off).extractLsb' 0 n) = lowBits v (off + n) := by
  apply BitVec.eq_of_getLsbD_eq
  intro i hi
  simp only [accumulate, BitVec.getLsbD_or, lowBits_getLsbD, BitVec.getLsbD_shiftLeft, BitVec.getLsbD_setWidth,
    BitVec.getLsbD_extractLsb', Nat.zero_add, BitVec.getLsbD_sshiftRight]
  by_cases hlow : i < off
  · simp [hlow, show i < off + n by omega]
  · simp [hlow, hi, show off + (i - off) = i by omega, show i - off < w.bits by omega,
      show i - off < n ↔ i < off + n by omega, show ¬ w.bits ≤ i - off by omega]

/-- Every bit is a low bit. -/
theorem lowBits_of_ge (v : Word w) {n : Nat} (h : w.bits ≤ n) : lowBits v n = v := by
  apply BitVec.eq_of_getLsbD_eq
  intro i hi
  simp [lowBits_getLsbD, show i < n by omega]

/-- An ACTION within its unsigned width is its low bits. -/
theorem lowBits_of_lt (v : Word w) {n : Nat} (h : v.toNat < 2 ^ n) : lowBits v n = v := by
  apply BitVec.eq_of_toNat_eq
  rw [lowBits, BitVec.toNat_setWidth, BitVec.toNat_setWidth, Nat.mod_eq_of_lt h, Nat.mod_eq_of_lt v.isLt]

/-- A NUMBER within its signed width is its low bits, sign-extended (R75). -/
theorem signExtend_lowBits (v : Word w) {n : Nat} (hn : n + 1 ≤ w.bits) (hlow : -(2 ^ n : Int) ≤ v.toInt)
    (hhigh : v.toInt < 2 ^ n) : ((lowBits v (n + 1)).setWidth (n + 1)).signExtend w.bits = v := by
  have hcut : (lowBits v (n + 1)).setWidth (n + 1) = v.setWidth (n + 1) :=
    (BitVec.setWidth_setWidth_of_le _ hn).trans (BitVec.setWidth_eq _)
  apply BitVec.eq_of_toInt_eq
  calc (((lowBits v (n + 1)).setWidth (n + 1)).signExtend w.bits).toInt
      = (v.toNat : Int).bmod (2 ^ (n + 1)) := by rw [BitVec.toInt_signExtend_of_le hn, hcut, BitVec.toInt_setWidth]
    _ = v.toInt.bmod (2 ^ (n + 1)) := by
        rw [BitVec.toInt_eq_toNat_bmod, Int.bmod_bmod_of_dvd (Nat.pow_dvd_pow 2 hn)]
    _ = v.toInt := by
        apply Int.bmod_eq_of_le <;> push_cast <;> rw [pow_succ] <;> omega

/-- The final byte gives the word back once its significant width is covered. -/
theorem finalValue_lowBits {k : Kind} {v : Word w} {off : Nat} (h : significantWidth k v ≤ off + 6) :
    finalValue k off (lowBits v (off + 6)) = v := by
  unfold finalValue
  split
  · next hshort =>
    obtain ⟨rfl, hlt⟩ := hshort
    obtain ⟨hlow, hhigh⟩ := signedWidth_le_iff.1 h
    exact signExtend_lowBits v hlt.le hlow hhigh
  · next hlong =>
    cases k with
    | number => exact lowBits_of_ge v (by simpa using hlong)
    | action => exact lowBits_of_lt v (digits_le_iff.1 h)

/-! ### The round trip -/

/-- The decoder, `off` low bits of `v` in ACC, meets what the encoder puts for the rest of `v`: with `m` continuation bytes
still allowed, both end together. -/
theorem decodeLoop_encodeLoop (k : Kind) (v : Word w) (rest : List Byte) (m off cnt : Nat)
    (hfuel : significantWidth k v ≤ off + 7 * m + 6) (hlimit : off + 7 * m < w.bits) :
    decodeLoop (lowBits v off) off cnt (encodeLoop k m (v.sshiftRight off) (significantWidth k v - off) ++ rest) =
      .value k v (cnt + (encodeLoop k m (v.sshiftRight off) (significantWidth k v - off)).length) rest := by
  induction m generalizing off cnt with
  | zero =>
    rw [encodeLoop_last k 0 _ (by omega), List.singleton_append, decodeLoop_final, payloadOf, accumulate_lowBits,
      finalValue_lowBits (by omega)]
    rfl
  | succ m ih =>
    by_cases hmore : 6 < significantWidth k v - off
    · rw [encodeLoop_more k m _ hmore, List.cons_append, decodeLoop_cont _ _ _ _ (by omega), chunkOf,
        accumulate_lowBits, ← BitVec.sshiftRight_add, Nat.sub_sub, ih (off + 7) (cnt + 1) (by omega) (by omega),
        List.length_cons]
      congr 1
      omega
    · rw [encodeLoop_last k _ _ (by omega), List.singleton_append, decodeLoop_final, payloadOf, accumulate_lowBits,
        finalValue_lowBits (by omega)]
      rfl

/-- What EncodeCore puts, DecodeCore reads back, whatever bytes follow (R104). -/
theorem decodeCore_encodeCore (k : Kind) (v : Word w) (rest : List Byte) :
    decodeCore (encodeCore k v ++ rest) = .value k v (encodeCore k v).length rest := by
  obtain ⟨hlimit, hcover, -, -⟩ := width_maxCont_bounds w
  have hwidth := significantWidth_le k v
  have h := decodeLoop_encodeLoop k v rest w.maxCont 0 0 (by omega) (by omega)
  rwa [lowBits_zero, BitVec.sshiftRight_zero, Nat.sub_zero, Nat.zero_add] at h

/-- A decoder that reaches a value has counted the bytes it consumed. -/
theorem decodeLoop_value_count {acc : Word w} {off cnt : Nat} {xs left : List Byte} {k : Kind} {v : Word w} {n : Nat}
    (h : decodeLoop acc off cnt xs = .value k v n left) : n + left.length = cnt + xs.length := by
  induction xs generalizing acc off cnt with
  | nil => cases h
  | cons x xs ih =>
    obtain ⟨c, rfl⟩ | ⟨k', p, rfl⟩ := wireByte_cases x
    · by_cases hlimit : off < w.bits - 7
      · rw [decodeLoop_cont acc cnt c xs hlimit] at h
        have := ih h
        rw [List.length_cons]
        omega
      · rw [decodeLoop_tooWide acc cnt c xs (by omega)] at h
        cases h
    · rw [decodeLoop_final] at h
      cases h
      rw [List.length_cons]
      omega

end Cores

end Sys2Proof.Machine

/-! PROOF. Storage through the validator: one byte behind an address (R56, R57), and byte strings at rising addresses. -/

namespace Sys2Proof.Machine

open Sys2Proof

section Storage

variable {w : Width}

/-! ### Storage and the registers apart -/

/-- The block `b` with the storage of `c`. -/
def Block.withStorage (b c : Block w) : Block w := { b with pmem := c.pmem, hostMem := c.hostMem }

/-- A write of a slot changes storage alone (R57). -/
theorem Block.writeSlot_eq_withStorage (b : Block w) (p : Slot) (x : Byte) :
    b.writeSlot p x = b.withStorage (b.writeSlot p x) := by
  cases p <;> rfl

@[simp] theorem Block.withStorage_readSlot (b c : Block w) (p : Slot) : (b.withStorage c).readSlot p = c.readSlot p :=
  Block.readSlot_congr rfl rfl p

@[simp] theorem Block.withStorage_resolve (b c : Block w) (a l : Nat) (g : Granularity) :
    (b.withStorage c).resolve a l g = b.resolve a l g := rfl

theorem Block.resolve_congr {b c : Block w} (hsize : c.memorySize = b.memorySize) (hareas : c.areas = b.areas)
    (a l : Nat) (g : Granularity) : c.resolve a l g = b.resolve a l g := by
  simp only [Block.resolve, Block.locate_congr hsize hareas]

/-- What storing a byte depends on: the two storages and the region map. -/
structure SameStorage (b c : Block w) : Prop where
  memorySize : c.memorySize = b.memorySize
  areas : c.areas = b.areas
  pmem : c.pmem = b.pmem
  hostMem : c.hostMem = b.hostMem

theorem SameStorage.writeSlot {b c : Block w} (h : SameStorage b c) (p : Slot) (x : Byte) :
    SameStorage (b.writeSlot p x) (c.writeSlot p x) := by
  obtain ⟨hsize, hareas, hpmem, hhost⟩ := h
  cases p with
  | primary j => exact ⟨hsize, hareas, congrArg (·.write j x) hpmem, hhost⟩
  | host a => exact ⟨hsize, hareas, hpmem, congrArg (·.write a x) hhost⟩

/-! ### One byte -/

/-- The `W + 1` bits of `CUR` hold every backed address (R30), whatever the region map is. -/
theorem Block.cursor_toNat {b : Block w} {a region offset : Nat} {g : Granularity} {p : Slot}
    (h : b.resolve a 1 g = .found region offset p) : (BitVec.ofNat (w.bits + 1) a).toNat = a := by
  have hsize := b.memorySize.isLt
  obtain ⟨hloc, -⟩ := Block.resolve_eq_found.1 h
  rw [BitVec.toNat_ofNat]
  apply Nat.mod_eq_of_lt
  obtain ⟨hle, -⟩ | ⟨-, i, r, -, hholds, -⟩ := Block.locate_eq_some.1 hloc
  · omega
  · obtain ⟨-, hend⟩ := Area.holds_iff.1 hholds
    have := r.base.isLt
    have := r.size.isLt
    omega

/-- A resolved byte of the primary region is the byte of PMEM at the offset (R47). -/
theorem Block.resolve_found_primary {b : Block w} {a l offset : Nat} {g : Granularity} {p : Slot}
    (h : b.resolve a l g = .found 0 offset p) : p = .primary offset := by
  obtain ⟨hloc, -⟩ := Block.resolve_eq_found.1 h
  obtain ⟨-, -, rfl, rfl⟩ | ⟨-, i, r, -, -, -, hregion, -⟩ := Block.locate_eq_some.1 hloc
  · rfl
  · cases hregion

/-- A resolved byte of an area is the byte of its host buffer at the offset (R48, R37). -/
theorem Block.resolve_found_area {b : Block w} {a l i offset : Nat} {g : Granularity} {p : Slot} {r : Area w}
    (h : b.resolve a l g = .found (i + 1) offset p) (hr : b.areas[i]? = some r) : p = .host (r.data + offset) := by
  obtain ⟨hloc, -⟩ := Block.resolve_eq_found.1 h
  obtain ⟨-, hregion, -⟩ | ⟨-, j, q, hq, -, -, hregion, rfl, rfl⟩ := Block.locate_eq_some.1 hloc
  · cases hregion
  · cases hregion
    cases hq.symm.trans hr
    rfl

/-- The byte at a resolved address is that of its slot (R56). -/
theorem Block.byteAt_of_found {b : Block w} (hl : b.live = true) {a region offset : Nat} {p : Slot}
    (h : b.resolve a 1 .byte = .found region offset p) : b.byteAt a = some (b.readSlot p) :=
  Block.byteAt_eq_some.2 ⟨hl, region, offset, p, h, rfl⟩

/-! ### Byte strings -/

theorem Block.storeBytes_cons_eq_some {b c : Block w} {a : Nat} {x : Byte} {xs : List Byte} :
    b.storeBytes a (x :: xs) = some c ↔
      ∃ region offset p, b.resolve a 1 .byte = .found region offset p ∧
        (b.writeSlot p x).storeBytes (a + 1) xs = some c := by
  rw [Block.storeBytes]
  cases h : b.storeByte a x with
  | none =>
    refine ⟨nofun, ?_⟩
    rintro ⟨region, offset, p, hres, -⟩
    cases h.symm.trans (Block.storeByte_eq_some.2 ⟨region, offset, p, hres, rfl⟩)
  | some d =>
    obtain ⟨region, offset, p, hres, rfl⟩ := Block.storeByte_eq_some.1 h
    exact ⟨fun hd => ⟨region, offset, p, hres, hd⟩, by
      rintro ⟨region', offset', p', hres', hd⟩
      cases hres.symm.trans hres'
      exact hd⟩

/-- Storing bytes changes storage alone (R57). -/
theorem Block.storeBytes_eq_withStorage {b c : Block w} {a : Nat} {xs : List Byte} (h : b.storeBytes a xs = some c) :
    c = b.withStorage c := by
  induction xs generalizing a b with
  | nil =>
    cases h
    rfl
  | cons x xs ih =>
    obtain ⟨region, offset, p, -, h⟩ := Block.storeBytes_cons_eq_some.1 h
    have htail := ih h
    rw [b.writeSlot_eq_withStorage p x] at htail
    exact htail

/-- Bytes are stored the same way whatever the registers hold. -/
theorem SameStorage.storeBytes {b b' c : Block w} (hs : SameStorage b b') {a : Nat} {xs : List Byte}
    (h : b.storeBytes a xs = some c) : b'.storeBytes a xs = some (b'.withStorage c) := by
  induction xs generalizing a b b' with
  | nil =>
    cases h
    rw [Block.withStorage, ← hs.pmem, ← hs.hostMem]
    rfl
  | cons x xs ih =>
    obtain ⟨region, offset, p, hres, h⟩ := Block.storeBytes_cons_eq_some.1 h
    refine Block.storeBytes_cons_eq_some.2
      ⟨region, offset, p, (Block.resolve_congr hs.memorySize hs.areas a 1 .byte).trans hres, ?_⟩
    have htail := ih (hs.writeSlot p x) h
    rw [b'.writeSlot_eq_withStorage p x] at htail ⊢
    exact htail

theorem Block.mapped.head {b : Block w} {a n : Nat} (h : b.mapped a (n + 1)) :
    ∃ region offset p, b.resolve a 1 .byte = .found region offset p := h 0 n.succ_pos

theorem Block.mapped.tail {b : Block w} {a n : Nat} (h : b.mapped a (n + 1)) : b.mapped (a + 1) n := fun j hj => by
  rw [Nat.add_assoc, Nat.add_comm 1 j]
  exact h (j + 1) (Nat.succ_lt_succ hj)

theorem Block.unshared.tail {b : Block w} {a n : Nat} (h : b.unshared a (n + 1)) : b.unshared (a + 1) n := by
  intro i j ri oi si rj oj sj hi hj hne hsi hsj
  rw [Nat.add_assoc, Nat.add_comm 1] at hsi hsj
  exact h (i + 1) (j + 1) ri oi si rj oj sj (Nat.succ_lt_succ hi) (Nat.succ_lt_succ hj) (by omega) hsi hsj

theorem Block.holdsBytes.tail {b : Block w} {a : Nat} {x : Byte} {xs : List Byte} (h : b.holdsBytes a (x :: xs)) :
    b.holdsBytes (a + 1) xs := fun j hj => by
  rw [Nat.add_assoc, Nat.add_comm 1 j]
  exact h (j + 1) (Nat.succ_lt_succ hj)

/-- Bytes stand where they stood when neither storage nor the region map changed. -/
theorem SameSurroundings.holdsBytes {b c : Block w} (hs : SameSurroundings b c) (hareas : c.areas = b.areas) {a : Nat}
    {xs : List Byte} (h : b.holdsBytes a xs) : c.holdsBytes a xs :=
  fun j hj => (hs.byteAt hareas (a + j)).trans (h j hj)

/-- Bytes whose addresses are all in regions can be stored. -/
theorem Block.mapped.storeBytes {b : Block w} {a : Nat} {xs : List Byte} (h : b.mapped a xs.length) :
    ∃ c, b.storeBytes a xs = some c := by
  induction xs generalizing a b with
  | nil => exact ⟨b, rfl⟩
  | cons x xs ih =>
    obtain ⟨region, offset, p, hres⟩ := h.head
    have htail : (b.writeSlot p x).mapped (a + 1) xs.length := fun j hj => by
      rw [Block.writeSlot_resolve]
      exact h.tail j hj
    obtain ⟨c, hc⟩ := ih htail
    exact ⟨c, Block.storeBytes_cons_eq_some.2 ⟨region, offset, p, hres, hc⟩⟩

/-- A slot behind none of the addresses keeps its byte. -/
theorem Block.storeBytes_readSlot {b c : Block w} (hp : b.pmem.wf) (hh : b.hostMem.wf) {a : Nat} {xs : List Byte}
    (h : b.storeBytes a xs = some c) {q : Slot}
    (hq : ∀ j region offset, j < xs.length → b.resolve (a + j) 1 .byte ≠ .found region offset q) :
    c.readSlot q = b.readSlot q := by
  induction xs generalizing a b with
  | nil =>
    cases h
    rfl
  | cons x xs ih =>
    obtain ⟨region, offset, p, hres, h⟩ := Block.storeBytes_cons_eq_some.1 h
    obtain ⟨hp', hh'⟩ := Block.writeSlot_wf hp hh p x
    have hne : q ≠ p := by
      rintro rfl
      exact hq 0 region offset (Nat.succ_pos _) hres
    rw [ih hp' hh' h fun j region offset hj => ?_, Block.readSlot_writeSlot hp hh, if_neg hne]
    rw [Block.writeSlot_resolve, Nat.add_assoc, Nat.add_comm 1 j]
    exact hq (j + 1) region offset (Nat.succ_lt_succ hj)

/-- Bytes stored at addresses that share no byte of storage stand there afterwards (R179). -/
theorem Block.storeBytes_holdsBytes {b c : Block w} (hl : b.live = true) (hp : b.pmem.wf) (hh : b.hostMem.wf) {a : Nat}
    {xs : List Byte} (h : b.storeBytes a xs = some c) (hu : b.unshared a xs.length) : c.holdsBytes a xs := by
  induction xs generalizing a b with
  | nil => exact fun j hj => absurd hj (Nat.not_lt_zero j)
  | cons x xs ih =>
    have hc := Block.storeBytes_eq_withStorage h
    obtain ⟨region, offset, p, hres, h⟩ := Block.storeBytes_cons_eq_some.1 h
    obtain ⟨hp', hh'⟩ := Block.writeSlot_wf hp hh p x
    have hkept : c.readSlot p = x := by
      rw [Block.storeBytes_readSlot hp' hh' h fun j rj oj hj hsame => ?_, Block.readSlot_writeSlot hp hh, if_pos rfl]
      rw [Block.writeSlot_resolve, Nat.add_assoc, Nat.add_comm 1 j] at hsame
      exact hu 0 (j + 1) region offset p rj oj p (Nat.succ_pos _) (Nat.succ_lt_succ hj) (by omega) hres hsame rfl
    have htail : (b.writeSlot p x).unshared (a + 1) xs.length := by
      intro i j ri oi si rj oj sj hi hj hne hsi hsj
      rw [Block.writeSlot_resolve] at hsi hsj
      exact hu.tail i j ri oi si rj oj sj hi hj hne hsi hsj
    intro j hj
    cases j with
    | zero =>
      refine Block.byteAt_eq_some.2 ⟨?_, region, offset, p, ?_, hkept⟩
      · rw [hc]
        exact hl
      · rw [hc]
        exact hres
    | succ j =>
      have := ih (by rwa [Block.writeSlot_live]) hp' hh' h htail j (Nat.lt_of_succ_lt_succ hj)
      rwa [Nat.add_assoc, Nat.add_comm 1 j] at this

end Storage

/-- Settles O33: the slot of a resolved byte by its region, and a read of that slot after the write. -/
theorem readsAndWritesOfResolvedBytes : Obligations.ReadsAndWritesOfResolvedBytes := by
  intro w b a region offset p hl hp hh hres
  have hbyte := Block.byteAt_of_found hl hres
  refine ⟨?_, ?_, fun x => ⟨b.writeSlot p x, ?_, ?_, fun q hq => ?_, ?_⟩⟩
  · rintro rfl
    rw [hbyte, Block.resolve_found_primary hres]
    rfl
  · rintro i r rfl hr
    rw [hbyte, Block.resolve_found_area hres hr]
    rfl
  · exact Block.storeByte_eq_some.2 ⟨region, offset, p, hres, rfl⟩
  · rw [Block.byteAt_of_found (by rwa [Block.writeSlot_live]) ((Block.writeSlot_resolve b p x a 1 .byte).trans hres),
      Block.readSlot_writeSlot hp hh, if_pos rfl]
  · rw [Block.readSlot_writeSlot hp hh, if_neg hq]
  · exact b.writeSlot_eq_withStorage p x

end Sys2Proof.Machine

/-! PROOF. ENC.M and DEC.M byte by byte: one step of each, the whole run from the command to the response, and a DEC.M that
reads back what an ENC.M wrote (R108, R114, R179). -/

namespace Sys2Proof.Machine

open Sys2Proof

section MemoryCodec

variable {w : Width}

/-! ### One step at BUSY -/

theorem step_of_encoding {b : Block w} {op : CodecOp} (hp : b.phase = .busy op .transfer) (hop : op.decodes = false) :
    step ⟨w, b⟩ = .next ⟨w, b.encodeStep op⟩ := by
  simp [step, State.fetch, hp, Block.fetchTransfer, hop]

theorem step_of_decoding {b c : Block w} {op : CodecOp} {x : Byte} (hp : b.phase = .busy op .transfer)
    (hop : op.decodes = true) (hget : b.get op = .got x c) : step ⟨w, b⟩ = exec (decodeWire x) ⟨w, c⟩ := by
  simp [step, State.fetch, hp, Block.fetchTransfer, hop, hget]

theorem step_of_response {b : Block w} {op : CodecOp} {res : CodecResult w} (hp : b.phase = .busy op (.respond res)) :
    step ⟨w, b⟩ = .next ⟨w, b.respondCodec op res⟩ := by
  simp [step, State.fetch, hp]

/-- A run that reaches the response step, and that step. -/
theorem run_response {b : Block w} {s : State} {m : Nat} {op : CodecOp} {res : CodecResult w}
    (h : run m s = .next ⟨w, b⟩) (hp : b.phase = .busy op (.respond res)) :
    run (m + 1) s = .next ⟨w, b.respondCodec op res⟩ :=
  (run_add h 1).trans (run_succ_of_step (step_of_response hp) 0)

/-- While a decode waits, a wire byte's meaning runs on the block (R101). -/
theorem onBlock_decoding_busy {b : Block w} {op : CodecOp} (hp : b.phase = .busy op .transfer) (hop : op.decodes = true)
    (f : Block w → CodecOp → Block w) : State.onBlock ⟨w, b⟩ (fun b => b.decoding (f b)) = .next ⟨w, f b op⟩ :=
  State.onBlock_of_next (Block.decoding_busy hp hop (f b))

/-- A continuation byte in a running decode (R101, R102). -/
theorem exec_contByte {b : Block w} {op : CodecOp} (hp : b.phase = .busy op .transfer) (hop : op.decodes = true)
    (c : BitVec 7) : exec (decodeWire (contByte c)) ⟨w, b⟩ = .next ⟨w, b.takeChunk op c⟩ := by
  rw [decodeWire_contByte]
  exact onBlock_decoding_busy hp hop fun b op => b.takeChunk op c

/-- A final byte of either kind in a running decode (R101). -/
theorem exec_finalByte {b : Block w} {op : CodecOp} (hp : b.phase = .busy op .transfer) (hop : op.decodes = true)
    (k : Kind) (p : BitVec 6) : exec (decodeWire (finalByte k p)) ⟨w, b⟩ = .next ⟨w, b.takeFinal op k p⟩ := by
  cases k with
  | number =>
    rw [decodeWire_final_number]
    exact onBlock_decoding_busy hp hop fun b op => b.takeFinal op .number p
  | action =>
    rw [decodeWire_final_action]
    exact onBlock_decoding_busy hp hop fun b op => b.takeFinal op .action p

/-- `Put` to memory at a backed address (R108). -/
theorem Block.put_encM {b : Block w} {region offset : Nat} {p : Slot}
    (hres : b.resolve b.cur.toNat 1 .byte = .found region offset p) (x : Byte) :
    b.put .encM x = .done (b.withStorage (b.writeSlot p x)).advance := by
  rw [← b.writeSlot_eq_withStorage p x]
  show b.memPut x = _
  simp only [Block.memPut, hres]

/-- `Get` from memory at a backed address (R114). -/
theorem Block.get_decM {b : Block w} {region offset : Nat} {p : Slot}
    (hres : b.resolve b.cur.toNat 1 .byte = .found region offset p) : b.get .decM = .got (b.readSlot p) b.advance := by
  show b.memGet = _
  simp only [Block.memGet, hres]

/-- ENC.M stores a continuation byte while more than 6 bits remain (R98). -/
theorem step_encM_cont {b : Block w} (hp : b.phase = .busy .encM .transfer) {region offset : Nat} {p : Slot}
    (hres : b.resolve b.cur.toNat 1 .byte = .found region offset p) (hmore : 6 < b.bits) :
    step ⟨w, b⟩ =
      .next ⟨w, (b.withStorage (b.writeSlot p (contByte (chunkOf b.rem)))).advance.afterContPut⟩ := by
  rw [step_of_encoding hp rfl]
  simp only [Block.encodeStep, nextByte, if_pos hmore, Block.put_encM hres]

/-- ENC.M stores its final byte, and the response step is next (R98). -/
theorem step_encM_final {b : Block w} (hp : b.phase = .busy .encM .transfer) {region offset : Nat} {p : Slot}
    (hres : b.resolve b.cur.toNat 1 .byte = .found region offset p) (hlast : b.bits ≤ 6) :
    step ⟨w, b⟩ = .next ⟨w, (b.withStorage
      (b.writeSlot p (finalByte b.kind (payloadOf b.rem)))).advance.countByte.finish .encM .encoded⟩ := by
  rw [step_of_encoding hp rfl]
  simp only [Block.encodeStep, nextByte, if_neg (Nat.not_lt.2 hlast), Block.put_encM hres]

/-! ### The byte steps of ENC.M -/

/-- The cursor moves to the next address. -/
theorem cursor_succ {cur : Addr w} {a : Nat} (h : cur = BitVec.ofNat _ a) : cur + 1 = BitVec.ofNat _ (a + 1) := by
  rw [h, BitVec.ofNat_add]
  rfl

theorem Block.resolve_cursor {b : Block w} {a region offset : Nat} {p : Slot} (hcur : b.cur = BitVec.ofNat _ a)
    (hres : b.resolve a 1 .byte = .found region offset p) :
    b.resolve b.cur.toNat 1 .byte = .found region offset p := by
  rw [hcur, Block.cursor_toNat hres]
  exact hres

/-- The registers that move with a continuation byte take no part in storage. -/
theorem Block.afterContPut_sameStorage (b : Block w) : SameStorage b b.advance.afterContPut := ⟨rfl, rfl, rfl, rfl⟩

/-- From `b`, the byte steps of ENC.M put the bytes `xs` at `a` and upwards: they leave the storage of `c`, and the response
step is next (R98, R108). -/
def Block.EncodesInto (b c : Block w) (a : Nat) (xs : List Byte) : Prop :=
  ∃ rem bits, run xs.length ⟨w, b⟩ = .next ⟨w, { b.withStorage c with
    rem := rem, bits := bits, cnt := b.cnt + xs.length, cur := BitVec.ofNat _ (a + xs.length)
    phase := .busy .encM (.respond .encoded) }⟩

theorem Block.encodesInto_final {b c : Block w} {a : Nat} (hp : b.phase = .busy .encM .transfer)
    (hcur : b.cur = BitVec.ofNat _ a) (hlast : b.bits ≤ 6)
    (hs : b.storeBytes a [finalByte b.kind (payloadOf b.rem)] = some c) :
    b.EncodesInto c a [finalByte b.kind (payloadOf b.rem)] := by
  obtain ⟨region, offset, p, hres, hs⟩ := Block.storeBytes_cons_eq_some.1 hs
  cases hs
  refine ⟨b.rem, b.bits, (run_succ_of_step (step_encM_final hp (Block.resolve_cursor hcur hres) hlast) 0).trans ?_⟩
  rw [List.length_singleton, ← cursor_succ hcur]
  rfl

/-- A step that puts a continuation byte, then the rest. -/
theorem Block.EncodesInto.cons {b c d : Block w} {a : Nat} {x : Byte} {xs : List Byte}
    (hstep : step ⟨w, b⟩ = .next ⟨w, (b.withStorage d).advance.afterContPut⟩)
    (h : (b.withStorage d).advance.afterContPut.EncodesInto ((b.withStorage d).advance.afterContPut.withStorage c)
      (a + 1) xs) : b.EncodesInto c a (x :: xs) := by
  obtain ⟨rem, bits, hrun⟩ := h
  refine ⟨rem, bits, (run_succ_of_step hstep _).trans (hrun.trans ?_)⟩
  rw [List.length_cons, Nat.add_comm xs.length 1, ← Nat.add_assoc, ← Nat.add_assoc]
  rfl

/-- The byte steps of ENC.M put what EncodeCore's loop says, with at most `m` continuation bytes to come (R98, R108). -/
theorem Block.encodesInto_encodeLoop {b c : Block w} {m a : Nat} (hp : b.phase = .busy .encM .transfer)
    (hcur : b.cur = BitVec.ofNat _ a) (hbits : b.bits ≤ 7 * m + 6)
    (hs : b.storeBytes a (encodeLoop b.kind m b.rem b.bits) = some c) :
    b.EncodesInto c a (encodeLoop b.kind m b.rem b.bits) := by
  induction m generalizing b c a with
  | zero => exact Block.encodesInto_final hp hcur (by omega) hs
  | succ m ih =>
    by_cases hmore : 6 < b.bits
    · rw [encodeLoop_more _ _ _ hmore] at hs ⊢
      obtain ⟨region, offset, p, hres, hs⟩ := Block.storeBytes_cons_eq_some.1 hs
      have hstep := step_encM_cont hp (Block.resolve_cursor hcur hres) hmore
      rw [b.writeSlot_eq_withStorage p] at hs
      exact .cons hstep (ih hp (cursor_succ hcur) (Nat.sub_le_iff_le_add.2 hbits)
        ((Block.afterContPut_sameStorage _).storeBytes hs))
    · rw [encodeLoop_last _ _ _ (by omega)] at hs ⊢
      exact Block.encodesInto_final hp hcur (by omega) hs

/-! ### The byte steps of DEC.M -/

/-- The registers that move with a chunk take no part in storage. -/
theorem Block.chunk_surroundings (b : Block w) (c : BitVec 7) :
    SameSurroundings b (b.advance.countByte.joinChunk c) := by
  cases b
  exact ⟨rfl, rfl, rfl, rfl, rfl, rfl, rfl, rfl, rfl⟩

/-- The byte steps of DEC.M consume the bytes that stand at `CUR` and upwards, up to a final byte, as DecodeCore's loop says
(R101, R114). -/
theorem run_decM_bytes {b : Block w} {a : Nat} {xs : List Byte} {k : Kind} {v : Word w} {n : Nat}
    (hp : b.phase = .busy .decM .transfer) (hcur : b.cur = BitVec.ofNat _ a) (hbytes : b.holdsBytes a xs)
    (hdec : decodeLoop b.acc b.off b.cnt xs = .value k v n []) :
    ∃ acc off, run xs.length ⟨w, b⟩ = .next ⟨w, { b with
      acc := acc, off := off, cnt := n, kind := k, cur := BitVec.ofNat _ (a + xs.length)
      phase := .busy .decM (.respond (.decoded v)) }⟩ := by
  induction xs generalizing b a with
  | nil => cases hdec
  | cons x xs ih =>
    obtain ⟨-, region, offset, p, hres, hread⟩ := Block.byteAt_eq_some.1 (hbytes 0 (Nat.succ_pos _))
    have hstep := step_of_decoding hp rfl (Block.get_decM (Block.resolve_cursor hcur hres))
    rw [hread, List.getElem_cons_zero] at hstep
    obtain ⟨c, rfl⟩ | ⟨k', payload, rfl⟩ := wireByte_cases x
    · rw [exec_contByte (b := b.advance) hp rfl] at hstep
      obtain ⟨hlimit, -⟩ | ⟨hlimit, htake⟩ := b.advance.takeChunk_cases .decM c
      · rw [decodeLoop_tooWide (off := b.off) b.acc b.cnt c xs hlimit] at hdec
        cases hdec
      · rw [decodeLoop_cont (off := b.off) b.acc b.cnt c xs hlimit] at hdec
        rw [htake] at hstep
        have htail := (b.chunk_surroundings c).holdsBytes rfl hbytes.tail
        obtain ⟨acc, off, hrun⟩ := ih (by simpa using hp) (by simpa using cursor_succ hcur) htail (by simpa using hdec)
        refine ⟨acc, off, (run_succ_of_step hstep _).trans (hrun.trans ?_)⟩
        rw [List.length_cons, Nat.add_comm xs.length 1, ← Nat.add_assoc]
        cases b
        rfl
    · rw [exec_finalByte (b := b.advance) hp rfl] at hstep
      rw [decodeLoop_final] at hdec
      cases hdec
      refine ⟨accumulate b.acc b.off payload, b.off, (run_succ_of_step hstep 0).trans ?_⟩
      rw [List.length_singleton, ← cursor_succ hcur]
      cases b
      rfl

/-! ### From the command to the response -/

/-- The instruction of ENC.M for a kind (R85). -/
def encMInstr : Kind → Instr
  | .number => .encMNum
  | .action => .encMAct

theorem decodeCommand_encM (k : Kind) : decodeCommand (if k = .number then 0x02 else 0x12) = encMInstr k := by
  cases k <;> rfl

/-- The block after ENC.M is taken: EncodeCore's registers and the cursor are loaded (R31, R98, R108). -/
def Block.takeEncM (b : Block w) (k : Kind) : Block w := (b.loadCursor.loadEncoder k b.valueOperand).accept .encM

/-- The block after DEC.M is taken: DecodeCore's registers and the cursor are loaded (R31, R101, R114). -/
def Block.takeDecM (b : Block w) : Block w := b.loadCursor.clearDecoder.accept .decM

/-- Taking ENC.M leaves storage and the region map as they are. -/
theorem Block.takeEncM_sameStorage (b : Block w) (k : Kind) : SameStorage b (b.takeEncM k) := ⟨rfl, rfl, rfl, rfl⟩

theorem exec_encM {b : Block w} (hr : b.ready) (k : Kind) :
    exec (encMInstr k) ⟨w, b⟩ = .next ⟨w, b.takeEncM k⟩ := by
  cases k <;> exact onBlock_command_of_ready hr rfl

theorem exec_decM {b : Block w} (hr : b.ready) : exec .decM ⟨w, b⟩ = .next ⟨w, b.takeDecM⟩ :=
  onBlock_command_of_ready hr rfl

/-- A step that takes the host's ENC.M. -/
theorem step_takes_encM {b : Block w} (hr : b.ready) {q : Request w} {rest : List (HostAction w)} {k : Kind}
    (hq : b.host = .command q :: rest) (hcmd : q.cmd = if k = .number then 0x02 else 0x12) :
    step ⟨w, b⟩ = .next ⟨w, ((b.withHost rest).present q).takeEncM k⟩ := by
  rw [step_of_command hr.2 hq, hcmd, decodeCommand_encM]
  exact exec_encM (b := (b.withHost rest).present q) hr k

/-- A step that takes the host's DEC.M. -/
theorem step_takes_decM {b : Block w} (hr : b.ready) {r : Request w} {rest : List (HostAction w)}
    (hq : b.host = .command r :: rest) (hcmd : r.cmd = 0x04) :
    step ⟨w, b⟩ = .next ⟨w, ((b.withHost rest).present r).takeDecM⟩ := by
  rw [step_of_command hr.2 hq, hcmd]
  exact exec_decM (b := (b.withHost rest).present r) hr

theorem Block.startAddress_eq (b : Block w) : b.startAddress = BitVec.ofNat _ b.port.opa.toNat :=
  (BitVec.ofNat_toNat _ _).symm

/-- ENC.M with every byte's address in a region: the steps after the one that takes it store EncodeCore's bytes at OPA and
upwards, and answer OK (R108). -/
theorem run_encM {b c : Block w} {k : Kind} {n : Nat} (hn : n = (encodeCore k b.port.opb).length)
    (hs : b.storeBytes b.port.opa.toNat (encodeCore k b.port.opb) = some c) :
    ∃ rem bits, run (n + 1) ⟨w, b.takeEncM k⟩ = .next ⟨w, { b.withStorage c with
      kind := k, rem := rem, bits := bits, cnt := n, cur := BitVec.ofNat _ (b.port.opa.toNat + n), phase := .idle
      lastStatus := .ok
      rsp := {
        status := some .ok, count := some (BitVec.ofNat 4 n)
        cur := some (BitVec.ofNat _ (b.port.opa.toNat + n)) } }⟩ := by
  obtain ⟨-, hcover, -, -⟩ := width_maxCont_bounds w
  have hwidth : (b.takeEncM k).bits ≤ w.bits := significantWidth_le k b.port.opb
  have hinto : (b.takeEncM k).EncodesInto ((b.takeEncM k).withStorage c) b.port.opa.toNat (encodeCore k b.port.opb) :=
    Block.encodesInto_encodeLoop (m := w.maxCont) rfl b.startAddress_eq (by omega)
      ((b.takeEncM_sameStorage k).storeBytes hs)
  obtain ⟨rem, bits, hrun⟩ := hinto
  rw [← hn, show (b.takeEncM k).cnt + n = n from Nat.zero_add n] at hrun
  refine ⟨rem, bits, (run_response hrun rfl).trans ?_⟩
  cases b
  rfl

/-- DEC.M over bytes that hold a value: the steps after the one that takes it answer kind, value and count (R114). -/
theorem run_decM {b : Block w} {xs : List Byte} {k : Kind} {v : Word w} {n : Nat}
    (hbytes : b.holdsBytes b.port.opa.toNat xs) (hdec : decodeCore xs = .value k v n []) :
    ∃ acc off, run (n + 1) ⟨w, b.takeDecM⟩ = .next ⟨w, { b with
      acc := acc, off := off, cnt := n, kind := k, cur := BitVec.ofNat _ (b.port.opa.toNat + n), phase := .idle
      lastStatus := .ok
      rsp := {
        status := some .ok, kind := some k, value := some v, count := some (BitVec.ofNat 4 n)
        cur := some (BitVec.ofNat _ (b.port.opa.toNat + n)) } }⟩ := by
  obtain rfl : n = xs.length := by simpa using decodeLoop_value_count hdec
  obtain ⟨acc, off, hrun⟩ := run_decM_bytes (b := b.takeDecM) rfl b.startAddress_eq hbytes hdec
  refine ⟨acc, off, (run_response hrun rfl).trans ?_⟩
  cases b
  rfl

/-- The host's ENC.M from the step that takes it to its response: the machine is ready again, and EncodeCore's bytes stand
at OPA and upwards, where the addresses share no byte of storage (R108). -/
theorem run_queued_encM {b : Block w} (hr : b.ready) (hp : b.pmem.wf) (hh : b.hostMem.wf) {q : Request w}
    {rest : List (HostAction w)} {k : Kind} {n : Nat} (hq : b.host = .command q :: rest)
    (hcmd : q.cmd = if k = .number then 0x02 else 0x12) (hn : n = (encodeCore k q.opb).length)
    (hmap : b.mapped q.opa.toNat n) (hshare : b.unshared q.opa.toNat n) :
    ∃ d, run (n + 2) ⟨w, b⟩ = .next ⟨w, d⟩ ∧ d.ready ∧ d.host = rest ∧
      d.holdsBytes q.opa.toNat (encodeCore k q.opb) := by
  have hlive := hr.1
  rw [hn] at hmap hshare
  obtain ⟨c, hs⟩ := Block.mapped.storeBytes hmap
  have hbytes : (b.withStorage c).holdsBytes q.opa.toNat (encodeCore k q.opb) :=
    Block.storeBytes_eq_withStorage hs ▸ Block.storeBytes_holdsBytes hlive hp hh hs hshare
  have hsame : SameStorage b ((b.withHost rest).present q) := ⟨rfl, rfl, rfl, rfl⟩
  obtain ⟨rem, bits, hrun⟩ := run_encM hn (hsame.storeBytes hs)
  exact ⟨_, (run_succ_of_step (step_takes_encM hr hq hcmd) _).trans hrun, ⟨hlive, rfl⟩, rfl, hbytes⟩

/-- The host's DEC.M from the step that takes it to its response, over bytes that hold a value (R114). -/
theorem run_queued_decM {b : Block w} (hr : b.ready) {r : Request w} {rest : List (HostAction w)}
    {xs : List Byte} {k : Kind} {v : Word w} {n : Nat} (hq : b.host = .command r :: rest) (hcmd : r.cmd = 0x04)
    (hbytes : b.holdsBytes r.opa.toNat xs) (hdec : decodeCore xs = .value k v n []) :
    ∃ t, run (n + 2) ⟨w, b⟩ = .next ⟨w, t⟩ ∧ t.phase = .idle ∧ t.host = rest ∧
      t.rsp = {
        status := some .ok, kind := some k, value := some v, count := some (BitVec.ofNat 4 n)
        cur := some (BitVec.ofNat _ (r.opa.toNat + n)) } := by
  obtain ⟨acc, off, hrun⟩ := run_decM (b := (b.withHost rest).present r) hbytes hdec
  exact ⟨_, (run_succ_of_step (step_takes_decM hr hq hcmd) _).trans hrun, rfl, rfl, rfl⟩

end MemoryCodec

/-- Settles O26: the ENC.M stores EncodeCore's bytes, they stand in storage when it ends, and the DEC.M finds them there. -/
theorem encodedIntoMemoryDecodesBack : Obligations.EncodedIntoMemoryDecodesBack := by
  intro w b k q r rest n hr hp hh hq hqcmd hrcmd hopa hn hmap hshare
  obtain ⟨d, henc, hready, hhost, hbytes⟩ := run_queued_encM hr hp hh hq hqcmd hn hmap hshare
  have hdec : decodeCore (encodeCore k q.opb) = .value k q.opb n [] := by
    simpa [hn] using decodeCore_encodeCore k q.opb []
  rw [run_add henc, ← hopa]
  exact run_queued_decM hready hhost hrcmd (hopa ▸ hbytes) hdec

/-- Settles O27: the continuation byte and the final byte, each with its slot's byte and its registers. -/
theorem encMByteStepStoresOneByte : Obligations.EncMByteStepStoresOneByte := by
  intro w b region offset p hbusy hp hh hres
  have hread (x : Byte) (q : Slot) : (b.writeSlot p x).readSlot q = if q = p then x else b.readSlot q :=
    Block.readSlot_writeSlot hp hh p q x
  by_cases hmore : 6 < b.bits
  · refine ⟨_, step_encM_cont hbusy hres hmore, ?_, fun q hq => ?_, ?_⟩
    · rw [if_pos hmore]
      exact (hread _ p).trans (if_pos rfl)
    · exact (hread _ q).trans (if_neg hq)
    · simp only [if_pos hmore, ← hbusy]
      rfl
  · refine ⟨_, step_encM_final hbusy hres (Nat.not_lt.1 hmore), ?_, fun q hq => ?_, ?_⟩
    · rw [if_neg hmore]
      exact (hread _ p).trans (if_pos rfl)
    · exact (hread _ q).trans (if_neg hq)
    · simp only [if_neg hmore]
      rfl

end Sys2Proof.Machine

/-! PROOF. One byte on either channel: the numbers of the wire bytes (R71, R72, R84), and what decoding a command word
leaves to encode (R85, R86, R88). -/

namespace Sys2Proof.Machine

open Sys2Proof

/-! ### The numbers of the wire bytes -/

theorem contByte_toNat (c : BitVec 7) : (contByte c).toNat = 0x80 + c.toNat := by
  revert c
  decide

theorem finalByte_number_toNat (p : BitVec 6) : (finalByte .number p).toNat = p.toNat := by
  revert p
  decide

theorem finalByte_action_toNat (p : BitVec 6) : (finalByte .action p).toNat = 0x40 + p.toNat := by
  revert p
  decide

/-! ### Decoding and encoding one byte -/

/-- The instruction a byte stands for on a channel. -/
def decodeByte (ch : Channel) (x : Byte) : Instr :=
  match ch with
  | .wire => decodeWire x
  | .command => decodeCommand x

theorem decode_cons (ch : Channel) (x : Byte) (rest : List Byte) :
    decode ch (x :: rest) = .ok (decodeByte ch x, rest) := by
  cases ch <;> rfl

/-- Every command word is the byte of what it decodes to, and arrives on the command port. -/
theorem decodeCommand_encode (x : Byte) : encode (decodeCommand x) = [x] ∧ (decodeCommand x).channel = .command := by
  revert x
  decide

/-- Every wire byte is the byte of what it decodes to, and that is well-formed. -/
theorem decodeWire_encode (x : Byte) : encode (decodeWire x) = [x] ∧ (decodeWire x).wf = true := by
  obtain ⟨c, rfl⟩ | ⟨k, p, rfl⟩ := wireByte_cases x
  · rw [decodeWire_contByte]
    exact ⟨rfl, rfl⟩
  · cases k with
    | number =>
      rw [decodeWire_final_number]
      exact ⟨rfl, rfl⟩
    | action =>
      rw [decodeWire_final_action]
      exact ⟨rfl, rfl⟩

/-- What a byte decodes to is a well-formed instruction of its channel, and the byte is that instruction's. -/
theorem decodeByte_spec (ch : Channel) (x : Byte) :
    (decodeByte ch x).channel = ch ∧ (decodeByte ch x).wf = true ∧ encode (decodeByte ch x) = [x] := by
  cases ch with
  | wire =>
    obtain ⟨hbyte, hwf⟩ := decodeWire_encode x
    exact ⟨decodeWire_channel x, hwf, hbyte⟩
  | command =>
    obtain ⟨hbyte, hchannel⟩ := decodeCommand_encode x
    exact ⟨hchannel, decodeCommand_wf x, hbyte⟩

/-- A well-formed reserved term holds a reserved word (R88). -/
theorem decodeCommand_of_reserved_wf {cmd : Byte} (h : (Instr.reserved cmd).wf = true) :
    decodeCommand cmd = .reserved cmd := by
  simpa [Instr.wf, isReserved] using h

/-- Settles O1: one byte for each constructor; only a reserved word needs its well-formedness. -/
theorem decodeInvertsEncode : Obligations.DecodeInvertsEncode := by
  intro i rest hwf
  suffices h : ∃ x, encode i = [x] ∧ decodeByte i.channel x = i by
    obtain ⟨x, henc, hdec⟩ := h
    rw [henc, List.singleton_append, decode_cons, hdec]
  cases i with
  | cont c => exact ⟨_, rfl, decodeWire_contByte c⟩
  | finalNum p => exact ⟨_, rfl, decodeWire_final_number p⟩
  | finalAct p => exact ⟨_, rfl, decodeWire_final_action p⟩
  | reserved cmd => exact ⟨cmd, rfl, decodeCommand_of_reserved_wf hwf⟩
  | _ => exact ⟨_, rfl, rfl⟩

/-- Settles O2: the instruction is what the byte decodes to, and any other with that byte decodes back to itself. -/
theorem everyByteIsAnInstruction : Obligations.EveryByteIsAnInstruction := by
  intro ch x
  obtain ⟨hchannel, hwf, hbyte⟩ := decodeByte_spec ch x
  refine ⟨decodeByte ch x, decode_cons ch x [], hchannel, hwf, hbyte, ?_⟩
  rintro j rfl hj hjwf
  have hback : decode j.channel [x] = .ok (j, []) := by
    simpa [hj] using decodeInvertsEncode j [] hjwf
  rw [decode_cons] at hback
  injection hback with hpair
  exact (congrArg Prod.fst hpair).symm

/-- Settles O3: the class and the payload are read off the number of each kind of wire byte. -/
theorem wireByteClasses : Obligations.WireByteClasses := by
  intro x
  obtain ⟨c, rfl⟩ | ⟨k, p, rfl⟩ := wireByte_cases x
  · have hx := contByte_toNat c
    exact ⟨by omega, by omega, fun _ => ⟨c, decodeWire_contByte c, by omega⟩⟩
  · have hp := p.isLt
    cases k with
    | number =>
      have hx := finalByte_number_toNat p
      exact ⟨fun _ => ⟨p, decodeWire_final_number p, by omega⟩, by omega, by omega⟩
    | action =>
      have hx := finalByte_action_toNat p
      exact ⟨by omega, fun _ _ => ⟨p, decodeWire_final_action p, by omega⟩, by omega⟩

/-- Settles O4: each word's fields select its row of R86. -/
theorem commandMap : Obligations.CommandMap :=
  ⟨rfl, rfl, rfl, rfl, rfl, rfl, rfl, rfl, rfl, rfl⟩

/-- R88's list against the command map, over the 256 command words. -/
theorem decodeCommand_reserved_iff (cmd : Byte) : decodeCommand cmd = .reserved cmd ↔
    cmd.toNat % 16 = 0 ∨ 8 ≤ cmd.toNat % 16 ∨ cmd.getLsbD 7 = true ∨ cmd.getLsbD 6 = true ∨
      (cmd.getLsbD 4 = true ∧ cmd.toNat % 16 ≠ 1 ∧ cmd.toNat % 16 ≠ 2) ∨
      (cmd.getLsbD 5 = true ∧ cmd.toNat % 16 ≠ 5) := by
  revert cmd
  decide

/-- Settles O5: R88's list, and a ready machine that runs the reserved word's own meaning. -/
theorem reservedCommandWords : Obligations.ReservedCommandWords := by
  refine ⟨decodeCommand_reserved_iff, fun w b cmd hr => ?_⟩
  have hrun : exec (.reserved cmd) ⟨w, b⟩ = .next ⟨w, b.endCommand .badCommand {}⟩ := onBlock_command_of_ready hr rfl
  rw [hrun, Block.endCommand, ← hr.2]

/-- Settles O6: the bytes are read off the layouts of R71, R72 and R85. -/
theorem wordsWrittenOut : Obligations.WordsWrittenOut :=
  ⟨rfl, rfl, rfl, rfl, rfl, rfl⟩

end Sys2Proof.Machine

/-! PROOF. The cores on whole encodings (R70 to R83): the chunks DecodeCore joins, the value of the final byte, the shape
of what a decoder reads and an encoder puts, and the least length. -/

namespace Sys2Proof.Machine

open Sys2Proof

section Encodings

variable {w : Width}

/-! ### The final byte's value (R75, R76) -/

/-- A field of `n` bits put above `off` bits stays below `off + n` bits. -/
theorem add_field_lt {a off n : Nat} (h : a < 2 ^ off) (x : BitVec n) : a + x.toNat * 2 ^ off < 2 ^ (off + n) :=
  calc a + x.toNat * 2 ^ off
      < (x.toNat + 1) * 2 ^ off := by rw [Nat.succ_mul]; omega
    _ ≤ 2 ^ n * 2 ^ off := Nat.mul_le_mul_right _ x.isLt
    _ = 2 ^ (off + n) := by rw [pow_add, Nat.mul_comm]

/-- A payload joined at OFF keeps ACC below its end. -/
theorem accumulate_payload_lt {acc : Word w} {off : Nat} (h : acc.toNat < 2 ^ off) (p : BitVec 6) :
    (accumulate acc off p).toNat < 2 ^ (off + 6) := by
  obtain ⟨-, -, hseven, -⟩ := width_maxCont_bounds w
  calc (accumulate acc off p).toNat
      = (acc.toNat + p.toNat * 2 ^ off) % 2 ^ w.bits := accumulate_toNat acc off p (by omega) h
    _ ≤ acc.toNat + p.toNat * 2 ^ off := Nat.mod_le _ _
    _ < 2 ^ (off + 6) := add_field_lt h p

/-- Wrapping to W bits first does not change the reading in at most W bits. -/
theorem bmod_wrapped {x n : Nat} (hn : n ≤ w.bits) :
    Int.bmod ((x % 2 ^ w.bits : Nat) : Int) (2 ^ n) = Int.bmod x (2 ^ n) := by
  have hdvd : 2 ^ n ∣ 2 ^ w.bits := Nat.pow_dvd_pow 2 hn
  rw [← Int.emod_bmod, ← Int.natCast_emod, Nat.mod_mod_of_dvd x hdvd, Int.natCast_emod, Int.emod_bmod]

/-- A NUMBER of fewer than W bits is sign-extended (R75). -/
theorem finalValue_toInt_short {acc : Word w} {off x : Nat} (hacc : acc.toNat = x % 2 ^ w.bits)
    (hshort : off + 6 < w.bits) : (finalValue .number off acc).toInt = Int.bmod x (2 ^ (off + 6)) := by
  rw [finalValue, if_pos ⟨rfl, hshort⟩, BitVec.toInt_signExtend_of_le hshort.le, BitVec.toInt_setWidth, hacc,
    bmod_wrapped hshort.le]

/-- Where R75 does not sign-extend, the value is the word in the accumulator. -/
theorem finalValue_eq_acc {k : Kind} {off : Nat} (h : k = .number → w.bits ≤ off + 6) (acc : Word w) :
    finalValue k off acc = acc := by
  rw [finalValue, if_neg]
  rintro ⟨hk, hshort⟩
  exact absurd (h hk) (by omega)

/-- A NUMBER of W bits or more and every ACTION is wrapped to W bits (R75, R76). -/
theorem finalValue_toInt_wrapped {acc : Word w} {k : Kind} {off x : Nat} (hacc : acc.toNat = x % 2 ^ w.bits)
    (h : k = .number → w.bits ≤ off + 6) : (finalValue k off acc).toInt = Int.bmod x (2 ^ w.bits) := by
  rw [finalValue_eq_acc h, BitVec.toInt_eq_toNat_bmod, hacc, bmod_wrapped le_rfl]

/-- A value read from OFF + 6 bits is no wider than that (R78). -/
theorem significantWidth_finalValue_le {acc : Word w} {off : Nat} (hacc : acc.toNat < 2 ^ (off + 6)) (k : Kind) :
    significantWidth k (finalValue k off acc) ≤ off + 6 := by
  cases k with
  | action =>
    rw [finalValue_eq_acc (k := .action) nofun]
    exact digits_le_iff.2 hacc
  | number =>
    by_cases hlong : w.bits ≤ off + 6
    · exact (significantWidth_le .number _).trans hlong
    · have hvalue := finalValue_toInt_short (Nat.mod_eq_of_lt acc.isLt).symm (Nat.not_le.1 hlong)
      have hlow := Int.le_bmod (x := acc.toNat) (m := 2 ^ (off + 6)) (by positivity)
      have hhigh := Int.bmod_lt (x := acc.toNat) (m := 2 ^ (off + 6)) (by positivity)
      refine signedWidth_le_iff.2 ?_
      rw [hvalue]
      push_cast [pow_succ] at hlow hhigh ⊢
      omega

/-! ### Chunks joined one after another (R101) -/

/-- ACC after a list of chunks, the first of them joined at OFF. -/
def joinChunks (acc : Word w) (off : Nat) : List (BitVec 7) → Word w
  | [] => acc
  | c :: cs => joinChunks (accumulate acc off c) (off + 7) cs

/-- Chunks joined from OFF on keep ACC below the new OFF. -/
theorem joinChunks_lt {acc : Word w} {off : Nat} (cs : List (BitVec 7)) (h : acc.toNat < 2 ^ off) :
    (joinChunks acc off cs).toNat < 2 ^ (off + 7 * cs.length) := by
  induction cs generalizing acc off with
  | nil => exact h
  | cons c cs ih =>
    have := ih (accumulate_chunk_lt h c)
    rwa [show off + 7 + 7 * cs.length = off + 7 * (c :: cs).length by rw [List.length_cons]; omega] at this

/-- The chunks and the payload, joined from OFF on, are X of R75 shifted to OFF, wrapped to W bits. -/
theorem accumulate_joinChunks_toNat {acc : Word w} {off : Nat} (cs : List (BitVec 7)) (p : BitVec 6)
    (h : acc.toNat < 2 ^ off) :
    (accumulate (joinChunks acc off cs) (off + 7 * cs.length) p).toNat =
      (acc.toNat + concatenation p cs * 2 ^ off) % 2 ^ w.bits := by
  obtain ⟨-, -, hseven, -⟩ := width_maxCont_bounds w
  induction cs generalizing acc off with
  | nil => exact accumulate_toNat acc off p (by omega) h
  | cons c cs ih =>
    have htail := ih (accumulate_chunk_lt h c)
    rw [accumulate_toNat acc off c hseven h, Nat.mod_add_mod] at htail
    rw [List.length_cons, joinChunks, concatenation, Nat.mul_succ, Nat.add_comm (7 * cs.length), ← Nat.add_assoc, htail,
      pow_add]
    congr 1
    ring

/-- Below the chunk limit DecodeCore joins a run of continuation bytes and goes on. -/
theorem decodeLoop_conts (acc : Word w) (cnt : Nat) {off : Nat} (cs : List (BitVec 7)) (xs : List Byte)
    (h : off + 7 * cs.length < w.bits) :
    decodeLoop acc off cnt (cs.map contByte ++ xs) =
      decodeLoop (joinChunks acc off cs) (off + 7 * cs.length) (cnt + cs.length) xs := by
  induction cs generalizing acc off cnt with
  | nil => rfl
  | cons c cs ih =>
    rw [List.length_cons] at h ⊢
    rw [List.map_cons, List.cons_append, decodeLoop_cont acc cnt c _ (by omega), ih _ _ (by omega), joinChunks]
    congr 1 <;> omega

/-- Up to MAX_CONT continuation bytes stay below the chunk limit (R82). -/
theorem decodeCore_conts {cs : List (BitVec 7)} (h : cs.length ≤ w.maxCont) (xs : List Byte) :
    decodeCore (w := w) (cs.map contByte ++ xs) =
      decodeLoop (joinChunks 0 0 cs) (7 * cs.length) cs.length xs := by
  obtain ⟨hlimit, -, -, -⟩ := width_maxCont_bounds w
  simpa [decodeCore] using decodeLoop_conts (0 : Word w) 0 (off := 0) cs xs (by omega)

/-- Everything a decoder that reaches a value has read: some chunks, and a final byte of the kind it answers. -/
theorem decodeLoop_eq_value {acc : Word w} {off cnt : Nat} {xs left : List Byte} {k : Kind} {v : Word w} {n : Nat}
    (h : decodeLoop acc off cnt xs = .value k v n left) :
    ∃ cs p, xs = cs.map contByte ++ finalByte k p :: left ∧ n = cnt + cs.length + 1 ∧
      v = finalValue k (off + 7 * cs.length) (accumulate (joinChunks acc off cs) (off + 7 * cs.length) p) := by
  induction xs generalizing acc off cnt with
  | nil => cases h
  | cons x xs ih =>
    obtain ⟨c, rfl⟩ | ⟨k', p, rfl⟩ := wireByte_cases x
    · by_cases hlimit : off < w.bits - 7
      · rw [decodeLoop_cont acc cnt c xs hlimit] at h
        obtain ⟨cs, p, rfl, rfl, rfl⟩ := ih h
        refine ⟨c :: cs, p, rfl, by rw [List.length_cons]; omega, ?_⟩
        rw [List.length_cons, joinChunks, show off + 7 * (cs.length + 1) = off + 7 + 7 * cs.length by omega]
      · rw [decodeLoop_tooWide acc cnt c xs (by omega)] at h
        cases h
    · rw [decodeLoop_final] at h
      cases h
      exact ⟨[], p, rfl, rfl, rfl⟩

/-- A value takes as many bytes as cover its significant width (R78). -/
theorem significantWidth_le_of_decodeCore {xs left : List Byte} {k : Kind} {v : Word w} {n : Nat}
    (h : decodeCore xs = .value k v (n + 1) left) : significantWidth k v ≤ 7 * n + 6 := by
  obtain ⟨cs, p, -, hn, rfl⟩ := decodeLoop_eq_value h
  have hzero : (0 : Word w).toNat < 2 ^ 0 := by simp
  have hle := significantWidth_finalValue_le (accumulate_payload_lt (joinChunks_lt cs hzero) p) k
  omega

/-! ### What the encoder puts (R98) -/

/-- The encoder puts continuation bytes, at most as many as are allowed, and a final byte of its kind. -/
theorem encodeLoop_shape (k : Kind) (m : Nat) (r : Word w) (bits : Nat) :
    ∃ (cs : List (BitVec 7)) (p : BitVec 6), encodeLoop k m r bits = cs.map contByte ++ [finalByte k p] ∧
      cs.length ≤ m := by
  induction m generalizing r bits with
  | zero => exact ⟨[], _, rfl, le_rfl⟩
  | succ m ih =>
    by_cases hmore : 6 < bits
    · obtain ⟨cs, p, hcs, hlen⟩ := ih (r.sshiftRight 7) (bits - 7)
      refine ⟨chunkOf r :: cs, p, ?_, Nat.succ_le_succ hlen⟩
      rw [encodeLoop_more k m r hmore, hcs]
      rfl
    · rw [encodeLoop_last k _ r (by omega)]
      exact ⟨[], _, rfl, Nat.zero_le _⟩

theorem encodeCore_shape (k : Kind) (v : Word w) :
    ∃ (cs : List (BitVec 7)) (p : BitVec 6), encodeCore k v = cs.map contByte ++ [finalByte k p] ∧
      cs.length ≤ w.maxCont :=
  encodeLoop_shape k w.maxCont v (significantWidth k v)

/-- The encoder goes on exactly while more than 6 bits remain, and for as many bytes as are allowed. -/
theorem encodeLoop_length_least {k : Kind} {m n bits : Nat} {r : Word w}
    (h : (encodeLoop k m r bits).length = n + 1) : (n < m → bits ≤ 7 * n + 6) ∧ ∀ j < n, 7 * j + 6 < bits := by
  induction m generalizing r bits n with
  | zero =>
    obtain rfl : n = 0 := (Nat.succ.inj h).symm
    exact ⟨nofun, nofun⟩
  | succ m ih =>
    by_cases hmore : 6 < bits
    · rw [encodeLoop_more k m r hmore, List.length_cons] at h
      obtain ⟨cs, p, hcs, -⟩ := encodeLoop_shape k m (r.sshiftRight 7) (bits - 7)
      obtain ⟨n, rfl⟩ : ∃ j, n = j + 1 := ⟨cs.length, by simpa [hcs] using h.symm⟩
      obtain ⟨hcover, hleast⟩ := ih (Nat.succ.inj h)
      refine ⟨fun hn => ?_, fun j hj => ?_⟩
      · have := hcover (by omega)
        omega
      · cases j with
        | zero => exact hmore
        | succ j =>
          have := hleast j (by omega)
          omega
    · rw [encodeLoop_last k _ r (by omega)] at h
      obtain rfl : n = 0 := (Nat.succ.inj h).symm
      exact ⟨fun _ => by omega, nofun⟩

/-- A NUMBER fits n chunks and a payload exactly when it lies in R78's range. -/
theorem significantWidth_number_le_iff {v : Word w} {n : Nat} :
    significantWidth .number v ≤ 7 * n + 6 ↔ -(2 ^ (7 * n + 5) : Int) ≤ v.toInt ∧ v.toInt ≤ 2 ^ (7 * n + 5) - 1 := by
  rw [Int.le_sub_one_iff]
  exact signedWidth_le_iff

/-- An ACTION fits n chunks and a payload exactly when it lies in R78's range. -/
theorem significantWidth_action_le_iff {v : Word w} {n : Nat} :
    significantWidth .action v ≤ 7 * n + 6 ↔ v.toNat ≤ 2 ^ (7 * n + 6) - 1 := by
  rw [Nat.le_sub_one_iff_lt (by positivity)]
  exact digits_le_iff

/-! ### Bytes by bit 7 -/

/-- Bytes with bit 7 set are continuation bytes (R71). -/
theorem eq_map_contByte {conts : List Byte} (h : ∀ x ∈ conts, x.getLsbD 7 = true) :
    ∃ cs : List (BitVec 7), conts = cs.map contByte := by
  induction conts with
  | nil => exact ⟨[], rfl⟩
  | cons x xs ih =>
    obtain ⟨cs, rfl⟩ := ih fun y hy => h y (List.mem_cons_of_mem x hy)
    obtain ⟨c, rfl⟩ | ⟨k, p, rfl⟩ := wireByte_cases x
    · exact ⟨c :: cs, rfl⟩
    · simpa using h _ List.mem_cons_self

/-- A byte with bit 7 clear is a final byte (R72). -/
theorem eq_finalByte {x : Byte} (h : x.getLsbD 7 = false) : ∃ k p, x = finalByte k p := by
  obtain ⟨c, rfl⟩ | hfinal := wireByte_cases x
  · simp at h
  · exact hfinal

/-- The two bits of a final byte that R83 speaks of. -/
theorem finalByte_bits (k : Kind) (p : BitVec 6) :
    (finalByte k p).getLsbD 7 = false ∧ ((finalByte k p).getLsbD 6 = true ↔ k = .action) := by
  simp

end Encodings

/-- Settles O9: ACC at the final byte is X wrapped to W bits, and the two readings of it. -/
theorem valueOfAnEncoding : Obligations.ValueOfAnEncoding := by
  intro w cs p k rest hlen
  have hacc : (accumulate (joinChunks (0 : Word w) 0 cs) (7 * cs.length) p).toNat =
      concatenation p cs % 2 ^ w.bits := by
    simpa using accumulate_joinChunks_toNat (acc := (0 : Word w)) (off := 0) cs p (by simp)
  refine ⟨_, (decodeCore_conts hlen _).trans (decodeLoop_final _ _ _ k p rest), ?_, ?_, ?_⟩
  · rintro rfl hshort
    exact finalValue_toInt_short hacc hshort
  · rintro rfl hlong
    exact finalValue_toInt_wrapped hacc fun _ => hlong
  · rintro rfl
    exact finalValue_toInt_wrapped hacc nofun

/-- Settles O11: both cores are measured by the significant width, which the ranges of R78 describe. -/
theorem encodingIsShortest : Obligations.EncodingIsShortest := by
  intro w k v n hn
  obtain ⟨cs, p, hcs, hmax⟩ := encodeCore_shape k v
  obtain ⟨hcover, hleast⟩ := encodeLoop_length_least hn
  have hlen : cs.length = n := by simpa [hcs] using hn
  refine ⟨fun xs cnt hdec => ?_, hlen ▸ hmax, ?_, ?_⟩
  · obtain rfl : cnt = xs.length := by simpa using decodeLoop_value_count hdec
    obtain ⟨ds, q, rfl, -, -⟩ := decodeLoop_eq_value hdec
    rw [List.length_append, List.length_map, List.length_singleton] at hdec ⊢
    have hwide := significantWidth_le_of_decodeCore hdec
    by_contra hshort
    have := hleast ds.length (by omega)
    omega
  · rintro rfl
    exact ⟨fun h => significantWidth_number_le_iff.1 (hcover h),
      fun m hm h => absurd (significantWidth_number_le_iff.2 h) (Nat.not_le.2 (hleast m hm))⟩
  · rintro rfl
    exact ⟨fun h => significantWidth_action_le_iff.1 (hcover h),
      fun m hm h => absurd (significantWidth_action_le_iff.2 h) (Nat.not_le.2 (hleast m hm))⟩

/-- Settles O8: the encoder's loop, at most MAX_CONT turns and the final byte. -/
theorem shapeOfAnEncoding : Obligations.ShapeOfAnEncoding := by
  intro w k v
  obtain ⟨cs, p, hcs, hlen⟩ := encodeCore_shape k v
  have hcount : (encodeCore k v).length = cs.length + 1 := by simp [hcs]
  exact ⟨cs, p, hcs, hlen, by omega, hcount.trans_le (Nat.succ_le_succ hlen)⟩

/-- Settles O12: MAX_CONT continuation bytes stay below the chunk limit, one more is at it. -/
theorem onlyTooWideIsIllegal : Obligations.OnlyTooWideIsIllegal := by
  intro w conts rest hconts
  obtain ⟨cs, rfl⟩ := eq_map_contByte hconts
  rw [List.length_map]
  refine ⟨fun x hlen hx => ?_, fun hlen => ?_, fun hlen => ?_⟩
  · obtain ⟨k, p, rfl⟩ := eq_finalByte hx
    exact ⟨k, _, (decodeCore_conts hlen _).trans (decodeLoop_final _ _ _ k p rest)⟩
  · obtain ⟨-, hcover, -, hmax⟩ := width_maxCont_bounds w
    obtain ⟨ds, c, rfl⟩ : ∃ ds c, cs = ds ++ [c] :=
      ⟨_, _, (List.dropLast_append_getLast (List.ne_nil_of_length_pos (by omega))).symm⟩
    have hds : ds.length = w.maxCont := by
      rw [List.length_append, List.length_singleton] at hlen
      omega
    rw [List.map_append, List.append_assoc, decodeCore_conts hds.le, hmax, ← hds]
    exact decodeLoop_tooWide _ _ c rest (by omega)
  · have h := decodeCore_conts hlen []
    rwa [List.append_nil] at h

/-- Settles O13: both cores end in a final byte of their kind, and a round trip shows the kind. -/
theorem kindIsBitSixOfTheFinalByte : Obligations.KindIsBitSixOfTheFinalByte := by
  refine ⟨fun w k v => ?_, fun w xs rest k v n h => ?_, fun w u v h => ?_⟩
  · obtain ⟨cs, p, hcs, -⟩ := encodeCore_shape k v
    exact ⟨finalByte k p, by simp [hcs], finalByte_bits k p⟩
  · obtain ⟨cs, p, rfl, rfl, -⟩ := decodeLoop_eq_value h
    exact ⟨finalByte k p, by simp, finalByte_bits k p⟩
  · have hnumber := decodeCore_encodeCore .number u []
    rw [h, decodeCore_encodeCore .action v []] at hnumber
    cases hnumber

end Sys2Proof.Machine

/-! PROOF. The wire bytes in the machine (R101, R102): what each leaves in a running decode, and where none waits for
it. -/

namespace Sys2Proof.Machine

open Sys2Proof

section WireBytes

variable {w : Width}

/-- Every wire byte runs through the check that a decode waits for it. -/
theorem exec_of_wire_channel {i : Instr} (hi : i.channel = .wire) (b : Block w) :
    ∃ f : Block w → CodecOp → Block w, exec i ⟨w, b⟩ = State.onBlock ⟨w, b⟩ fun c => c.decoding (f c) := by
  cases i with
  | cont c => exact ⟨fun b op => b.takeChunk op c, rfl⟩
  | finalNum p => exact ⟨fun b op => b.takeFinal op .number p, rfl⟩
  | finalAct p => exact ⟨fun b op => b.takeFinal op .action p, rfl⟩
  | _ => cases hi

/-- Where no decode waits for a byte, the wire byte is refused. -/
theorem Block.decoding_refused {b : Block w} (h : ∀ op, b.phase = .busy op .transfer → op.decodes = false)
    (f : CodecOp → Block w) : b.decoding f = .refused .noDecodeRunning := by
  unfold Block.decoding
  split
  · next op hp => rw [h op hp, if_neg Bool.false_ne_true]
  · rfl

/-- Below the chunk limit a chunk joins ACC with no bit lost at W. -/
theorem accumulate_chunk_toNat {acc : Word w} {off : Nat} (h : acc.toNat < 2 ^ off) (hlimit : off < w.bits - 7)
    (c : BitVec 7) : (accumulate acc off c).toNat = acc.toNat + c.toNat * 2 ^ off := by
  have hfits : acc.toNat + c.toNat * 2 ^ off < 2 ^ w.bits :=
    (add_field_lt h c).trans_le (Nat.pow_le_pow_right two_pos (by omega))
  rw [accumulate_toNat acc off c (by omega) h, Nat.mod_eq_of_lt hfits]

end WireBytes

/-- Settles O15: the two things a continuation byte does to a running decode. -/
theorem continuationByte : Obligations.ContinuationByte := by
  intro w b op c hp hop hacc
  have hrun : exec (.cont c) ⟨w, b⟩ = .next ⟨w, b.takeChunk op c⟩ := decodeWire_contByte c ▸ exec_contByte hp hop c
  refine ⟨fun hlimit => ?_, fun hlimit => ⟨_, accumulate_chunk_toNat hacc hlimit c, ?_⟩⟩
  · rw [hrun, Block.takeChunk, if_pos hlimit]
    rfl
  · rw [hrun, Block.takeChunk, if_neg (Nat.not_le.2 hlimit)]
    rfl

/-- Settles O16: the payload joins ACC, and the value of R75 or R76 is the result to report. -/
theorem finalBytes : Obligations.FinalBytes := by
  intro w b op p hp hop hbelow
  obtain ⟨-, -, hseven, -⟩ := width_maxCont_bounds w
  have hacc := accumulate_toNat b.acc b.off p (by omega) hbelow
  have hnumber := exec_finalByte hp hop .number p
  have haction := exec_finalByte hp hop .action p
  rw [decodeWire_final_number] at hnumber
  rw [decodeWire_final_action] at haction
  exact ⟨accumulate b.acc b.off p, finalValue .number b.off (accumulate b.acc b.off p),
    finalValue .action b.off (accumulate b.acc b.off p), hacc,
    fun hshort => by exact_mod_cast finalValue_toInt_short hacc hshort,
    fun hlong => by exact_mod_cast finalValue_toInt_wrapped hacc fun _ => hlong,
    by exact_mod_cast finalValue_toInt_wrapped (k := .action) hacc nofun, hnumber, haction⟩

/-- Settles O17: every wire byte runs through the check that a decode waits for it. -/
theorem wireByteNeedsADecode : Obligations.WireByteNeedsADecode := by
  intro w b i hi hidle
  obtain ⟨f, hf⟩ := exec_of_wire_channel hi b
  exact hf.trans (State.onBlock_of_refused (Block.decoding_refused hidle (f b)))

end Sys2Proof.Machine

/-! PROOF. The decoder's values bit by bit and the encoder's widths number by number (R96, R103), and an overlong
encoding (R80, R104). -/

namespace Sys2Proof.Machine

open Sys2Proof

section Values

variable {w : Width}

/-! ### An overlong encoding -/

/-- Zero with a continuation byte it does not need (R80). -/
def overlongZero (k : Kind) : List Byte := [contByte 0, finalByte k 0]

theorem decodeCore_overlongZero (w : Width) (k : Kind) :
    decodeCore (overlongZero k) = .value k (0 : Word w) (overlongZero k).length [] := by
  cases w <;> cases k <;> rfl

/-- One byte decodes to zero already, so EncodeCore does not put two (R78). -/
theorem overlongZero_ne_encodeCore (w : Width) (k : Kind) : overlongZero k ≠ encodeCore k (0 : Word w) := by
  have hzero : encodeCore k (0 : Word w) = [finalByte k 0] := by cases w <;> cases k <;> rfl
  rw [hzero]
  exact fun h => nomatch congrArg List.length h

/-! ### The high bits of a value (R103) -/

/-- A short NUMBER repeats its top bit upwards. -/
theorem finalValue_number_getLsbD {off : Nat} (hshort : off + 6 < w.bits) (acc : Word w) {i : Nat} (hi : i < w.bits)
    (htop : off + 5 ≤ i) : (finalValue .number off acc).getLsbD i = acc.getLsbD (off + 5) := by
  rw [finalValue, if_pos ⟨rfl, hshort⟩, BitVec.getLsbD_signExtend, decide_eq_true hi, Bool.true_and]
  split
  · next hbelow =>
    obtain rfl : i = off + 5 := by omega
    simp
  · simp [BitVec.msb_setWidth]

/-- A short ACTION is 0 above its payload. -/
theorem finalValue_action_getLsbD {off : Nat} {acc : Word w} (hacc : acc.toNat < 2 ^ (off + 6)) {i : Nat}
    (hi : off + 6 ≤ i) : (finalValue .action off acc).getLsbD i = false := by
  rw [finalValue_eq_acc (k := .action) nofun]
  exact Nat.testBit_lt_two_pow (hacc.trans_le (Nat.pow_le_pow_right two_pos hi))

/-! ### The significant widths (R96) -/

/-- `sw(v)` is the least width of at least 1 whose range holds `v`. -/
theorem signedWidth_le_iff_range {v : Int} {k : Nat} (hk : 1 ≤ k) :
    signedWidth v ≤ k ↔ -(2 ^ (k - 1) : Int) ≤ v ∧ v ≤ 2 ^ (k - 1) - 1 := by
  rw [Int.le_sub_one_iff, ← signedWidth_le_iff, Nat.sub_add_cancel hk]

/-- `uw(u)` is the least width whose range holds `u`. -/
theorem unsignedWidth_le_iff {u k : Nat} : unsignedWidth u ≤ k ↔ u ≤ 2 ^ k - 1 := by
  rw [Nat.le_sub_one_iff_lt (by positivity)]
  exact digits_le_iff

/-- The unsigned reading of a negative word has its top bit set. -/
theorem unsignedWidth_of_toInt_neg {v : Word w} (h : v.toInt < 0) : unsignedWidth v.toNat = w.bits := by
  refine le_antisymm (significantWidth_le .action v) (Nat.le_of_not_lt fun hlt => ?_)
  have hhigh : 2 ^ w.bits ≤ 2 * v.toNat := BitVec.toInt_neg_iff.1 h
  have hlow : v.toNat < 2 ^ (w.bits - 1) := digits_le_iff.1 (Nat.le_sub_one_of_lt hlt)
  have hdouble : 2 ^ (w.bits - 1) * 2 = 2 ^ w.bits := pow_sub_one_mul (Nat.ne_zero_of_lt hlt) 2
  omega

end Values

/-- Settles O10: the round trip of the cores, and zero with a byte it does not need. -/
theorem encodeThenDecodeRoundTrip : Obligations.EncodeThenDecodeRoundTrip :=
  ⟨fun _ k v rest => decodeCore_encodeCore k v rest,
    fun w k => ⟨0, overlongZero k, overlongZero_ne_encodeCore w k, decodeCore_overlongZero w k⟩⟩

/-- Settles O7: each width is at most k exactly where the range of k bits holds the value. -/
theorem significantWidths : Obligations.SignificantWidths := by
  refine ⟨fun v => ?_, fun u => ⟨unsignedWidth_le_iff.1 le_rfl, fun k hk => unsignedWidth_le_iff.2 hk⟩,
    fun w v => ⟨rfl, significantWidth_le .number v, rfl, unsignedWidth_of_toInt_neg⟩,
    rfl, rfl, rfl, rfl, rfl, rfl, rfl, rfl, rfl⟩
  have hpos : 1 ≤ signedWidth v := Nat.le_add_left 1 _
  exact ⟨hpos, (signedWidth_le_iff_range hpos).1 le_rfl,
    fun k hk hlow hhigh => (signedWidth_le_iff_range hk).2 ⟨hlow, hhigh⟩⟩

/-- Settles O14: k bytes leave OFF = 7k - 7 at the final byte, whose payload ends below bit 7k - 1. -/
theorem signExtensionOfShortEncodings : Obligations.SignExtensionOfShortEncodings := by
  intro w xs rest kind v k hdec hk i hi
  obtain ⟨hlimit, -, -, hmax⟩ := width_maxCont_bounds w
  obtain ⟨cs, p, -, rfl, rfl⟩ := decodeLoop_eq_value hdec
  simp only [Nat.zero_add] at hk ⊢
  have hpayload : 7 * (cs.length + 1) - 2 = 7 * cs.length + 5 := by omega
  refine ⟨?_, ?_⟩
  · rintro rfl htop
    rw [hpayload] at htop ⊢
    have hshort : 7 * cs.length + 6 < w.bits := by omega
    rw [finalValue_number_getLsbD hshort _ hi htop, finalValue_number_getLsbD hshort _ (by omega) le_rfl]
  · rintro rfl htop
    have hacc := accumulate_payload_lt (joinChunks_lt (acc := (0 : Word w)) (off := 0) cs (by simp)) p
    rw [Nat.zero_add] at hacc
    exact finalValue_action_getLsbD hacc (by omega)

end Sys2Proof.Machine

/-! PROOF. The cores over any transport (R95, R97): the encoder against what its Puts answer, the decoder against the
bytes its Gets give, each up to the step that answers. -/

namespace Sys2Proof.Machine

open Sys2Proof

section Transport

variable {w : Width}

/-! ### The cores' registers and the transports apart -/

/-- The block `b` with other contents in the encoder's counting registers. -/
def Block.withEncoder (b : Block w) (rem : Word w) (bits cnt : Nat) : Block w :=
  { b with rem := rem, bits := bits, cnt := cnt }

/-- The block `b` with other contents in the decoder's counting registers. -/
def Block.withDecoder (b : Block w) (acc : Word w) (off cnt : Nat) : Block w :=
  { b with acc := acc, off := off, cnt := cnt }

/-- A `Put`'s answer with its block changed by `f`. -/
def PutResult.mapBlock (f : Block w → Block w) : PutResult w → PutResult w
  | .done c => .done (f c)
  | .failed st c => .failed st (f c)
  | .waiting => .waiting

/-- A `Get`'s answer with its block changed by `f`. -/
def GetResult.mapBlock (f : Block w → Block w) : GetResult w → GetResult w
  | .got x c => .got x (f c)
  | .failed st c => .failed st (f c)
  | .waiting => .waiting

/-! ### What each transport answers -/

theorem Block.put_encS_ok {b : Block w} {rest : List WriteAnswer} (ha : b.stream.attached = true)
    (hw : b.stream.writes = .ok :: rest) (x : Byte) : b.put .encS x =
      .done (b.withStream { b.stream with writes := rest, written := b.stream.written ++ [x] }) := by
  simp [Block.put, CodecOp.inMemory, Block.streamPut, ha, hw]

theorem Block.put_encS_err {b : Block w} {rest : List WriteAnswer} (ha : b.stream.attached = true)
    (hw : b.stream.writes = .err :: rest) (x : Byte) :
    b.put .encS x = .failed .ioError (b.withStream { b.stream with writes := rest }) := by
  simp [Block.put, CodecOp.inMemory, Block.streamPut, ha, hw]

theorem Block.put_encS_detached {b : Block w} (ha : b.stream.attached = false) (x : Byte) :
    b.put .encS x = .failed .ioError b := by
  simp [Block.put, CodecOp.inMemory, Block.streamPut, ha]

theorem Block.put_encS_unanswered {b : Block w} (ha : b.stream.attached = true) (hw : b.stream.writes = []) (x : Byte) :
    b.put .encS x = .waiting := by
  simp [Block.put, CodecOp.inMemory, Block.streamPut, ha, hw]

theorem Block.get_decS_byte {b : Block w} {x : Byte} {rest : List ReadAnswer} (ha : b.stream.attached = true)
    (hr : b.stream.reads = .byte x :: rest) : b.get .decS = .got x (b.withStream { b.stream with reads := rest }) := by
  simp [Block.get, CodecOp.inMemory, Block.streamGet, ha, hr]

theorem Block.get_decS_end {b : Block w} {y : ReadAnswer} {rest : List ReadAnswer} (ha : b.stream.attached = true)
    (hy : y = .eof ∨ y = .err) (hr : b.stream.reads = y :: rest) :
    b.get .decS = .failed .ioError (b.withStream { b.stream with reads := rest }) := by
  obtain rfl | rfl := hy
  · simp [Block.get, CodecOp.inMemory, Block.streamGet, ha, hr]
  · simp [Block.get, CodecOp.inMemory, Block.streamGet, ha, hr]

theorem Block.get_decS_detached {b : Block w} (ha : b.stream.attached = false) :
    b.get .decS = .failed .ioError b := by
  simp [Block.get, CodecOp.inMemory, Block.streamGet, ha]

theorem Block.get_decS_unanswered {b : Block w} (ha : b.stream.attached = true) (hr : b.stream.reads = []) :
    b.get .decS = .waiting := by
  simp [Block.get, CodecOp.inMemory, Block.streamGet, ha, hr]

theorem Block.put_encM_unmapped {b : Block w} (hres : b.resolve b.cur.toNat 1 .byte = .invalid) (x : Byte) :
    b.put .encM x = .failed .invalidAddress b := by
  simp [Block.put, CodecOp.inMemory, Block.memPut, hres]

theorem Block.get_decM_unmapped {b : Block w} (hres : b.resolve b.cur.toNat 1 .byte = .invalid) :
    b.get .decM = .failed .invalidAddress b := by
  simp [Block.get, CodecOp.inMemory, Block.memGet, hres]

/-- A `Put` neither reads nor writes the encoder's counting registers (R97). -/
theorem Block.put_withEncoder (b : Block w) (op : CodecOp) (x : Byte) (rem : Word w) (bits cnt : Nat) :
    (b.withEncoder rem bits cnt).put op x = (b.put op x).mapBlock (·.withEncoder rem bits cnt) := by
  cases op with
  | encM | decM =>
    show Block.memPut _ x = (b.memPut x).mapBlock _
    obtain ⟨region, offset, p, hres, h⟩ | ⟨hres, h⟩ := b.memPut_cases x <;> rw [h]
    · refine (Block.put_encM (b := b.withEncoder rem bits cnt) hres x).trans ?_
      cases p <;> rfl
    · exact Block.put_encM_unmapped (b := b.withEncoder rem bits cnt) hres x
  | encS | decS =>
    show Block.streamPut _ x = (b.streamPut x).mapBlock _
    obtain ⟨rest, ha, hw, h⟩ | ⟨rest, ha, hw, h⟩ | ⟨ha, h⟩ | ⟨ha, hw, h⟩ := b.streamPut_cases x <;> rw [h]
    · exact Block.put_encS_ok (b := b.withEncoder rem bits cnt) ha hw x
    · exact Block.put_encS_err (b := b.withEncoder rem bits cnt) ha hw x
    · exact Block.put_encS_detached (b := b.withEncoder rem bits cnt) ha x
    · exact Block.put_encS_unanswered (b := b.withEncoder rem bits cnt) ha hw x

/-- A `Get` neither reads nor writes the decoder's counting registers (R97). -/
theorem Block.get_withDecoder (b : Block w) (op : CodecOp) (acc : Word w) (off cnt : Nat) :
    (b.withDecoder acc off cnt).get op = (b.get op).mapBlock (·.withDecoder acc off cnt) := by
  cases op with
  | encM | decM =>
    show Block.memGet _ = b.memGet.mapBlock _
    obtain ⟨region, offset, p, hres, h⟩ | ⟨hres, h⟩ := b.memGet_cases <;> rw [h]
    · refine (Block.get_decM (b := b.withDecoder acc off cnt) hres).trans ?_
      cases p <;> rfl
    · exact Block.get_decM_unmapped (b := b.withDecoder acc off cnt) hres
  | encS | decS =>
    show Block.streamGet _ = b.streamGet.mapBlock _
    obtain ⟨x, rest, ha, hr, h⟩ | ⟨y, rest, hy, ha, hr, h⟩ | ⟨ha, h⟩ | ⟨ha, hr, h⟩ := b.streamGet_cases <;> rw [h]
    · exact Block.get_decS_byte (b := b.withDecoder acc off cnt) ha hr
    · exact Block.get_decS_end (b := b.withDecoder acc off cnt) ha hy hr
    · exact Block.get_decS_detached (b := b.withDecoder acc off cnt) ha
    · exact Block.get_decS_unanswered (b := b.withDecoder acc off cnt) ha hr

/-- A transfer moves no register of a core. -/
theorem Transferred.registers {b c : Block w} {op : CodecOp} (h : Transferred b op c) :
    c.kind = b.kind ∧ c.rem = b.rem ∧ c.acc = b.acc ∧ c.off = b.off := by
  cases h with
  | @written _ _ p => cases p <;> exact ⟨rfl, rfl, rfl, rfl⟩
  | _ => exact ⟨rfl, rfl, rfl, rfl⟩

/-! ### The encoder over a transport -/

/-- From `b`, the Puts of `op` for the bytes `xs` go on to the first that fails: `j` bytes are taken, the transport
leaves the block `c`, and the byte steps have the result `res` (R97, R98). -/
inductive Puts (op : CodecOp) : Block w → List Byte → Nat → CodecResult w → Block w → Prop where
  /-- No byte is left to put. -/
  | all (b : Block w) : Puts op b [] 0 .encoded b
  /-- The transport takes the byte. -/
  | done {b c d : Block w} {x : Byte} {xs : List Byte} {j : Nat} {res : CodecResult w} (hput : b.put op x = .done c)
      (h : Puts op c xs j res d) : Puts op b (x :: xs) (j + 1) res d
  /-- The transport fails at the byte. -/
  | failed {b c : Block w} {x : Byte} {st : Status} (hput : b.put op x = .failed st c) (xs : List Byte) :
      Puts op b (x :: xs) 0 (.failed st) c

theorem Puts.withEncoder {op : CodecOp} {b c : Block w} {xs : List Byte} {j : Nat} {res : CodecResult w}
    (h : Puts op b xs j res c) (rem : Word w) (bits cnt : Nat) :
    Puts op (b.withEncoder rem bits cnt) xs j res (c.withEncoder rem bits cnt) := by
  induction h with
  | all b => exact .all _
  | done hput _ ih => exact .done (by rw [Block.put_withEncoder, hput, PutResult.mapBlock]) ih
  | failed hput xs => exact .failed (by rw [Block.put_withEncoder, hput, PutResult.mapBlock]) xs

/-- A byte the transport takes: the registers of the encoder are as they were. -/
theorem Block.put_registers {b c : Block w} {op : CodecOp} (hop : op.decodes = false) {x : Byte}
    (hput : b.put op x = .done c) :
    c.phase = b.phase ∧ c.kind = b.kind ∧ c.rem = b.rem ∧ c.bits = b.bits ∧ c.cnt = b.cnt := by
  have heff := b.put_effect hop x
  rw [hput] at heff
  obtain ⟨hphase, hbits, hcnt⟩ := Transferred.cores heff
  obtain ⟨hkind, hrem, -, -⟩ := Transferred.registers heff
  exact ⟨hphase, hkind, hrem, hbits, hcnt⟩

/-- A continuation byte the transport takes (R98). -/
theorem step_put_cont {b c : Block w} {op : CodecOp} (hp : b.phase = .busy op .transfer) (hop : op.decodes = false)
    (hmore : 6 < b.bits) (hput : b.put op (contByte (chunkOf b.rem)) = .done c) :
    step ⟨w, b⟩ = .next ⟨w, c.afterContPut⟩ := by
  rw [step_of_encoding hp hop]
  simp only [Block.encodeStep, nextByte, if_pos hmore, hput]

/-- A final byte the transport takes: the response step is next (R98). -/
theorem step_put_final {b c : Block w} {op : CodecOp} (hp : b.phase = .busy op .transfer) (hop : op.decodes = false)
    (hlast : b.bits ≤ 6) (hput : b.put op (finalByte b.kind (payloadOf b.rem)) = .done c) :
    step ⟨w, b⟩ = .next ⟨w, c.countByte.finish op .encoded⟩ := by
  rw [step_of_encoding hp hop]
  simp only [Block.encodeStep, nextByte, if_neg (Nat.not_lt.2 hlast), hput]

/-- A `Put` that fails ends the byte steps (R97). -/
theorem step_put_failed {b c : Block w} {op : CodecOp} (hp : b.phase = .busy op .transfer) (hop : op.decodes = false)
    {st : Status} (hput : b.put op (nextByte b.kind b.rem b.bits) = .failed st c) :
    step ⟨w, b⟩ = .next ⟨w, c.finish op (.failed st)⟩ := by
  rw [step_of_encoding hp hop]
  simp only [Block.encodeStep, hput]

/-- From `b`, `n` byte steps of an encoder lead to the response step: the transport has left the block `c`, CNT has
grown by `j`, and the result is `res` (R98, R176). -/
def Block.Encodes (b : Block w) (op : CodecOp) (n j : Nat) (res : CodecResult w) (c : Block w) : Prop :=
  ∃ rem bits, run n ⟨w, b⟩ = .next ⟨w, (c.withEncoder rem bits (b.cnt + j)).finish op res⟩

/-- A `Put` that fails is the last byte step. -/
theorem Block.encodes_of_failed {b c : Block w} {op : CodecOp} (hp : b.phase = .busy op .transfer)
    (hop : op.decodes = false) {st : Status} (hput : b.put op (nextByte b.kind b.rem b.bits) = .failed st c) :
    b.Encodes op 1 0 (.failed st) c := by
  have heff := b.put_effect hop (nextByte b.kind b.rem b.bits)
  rw [hput] at heff
  obtain ⟨⟨t, rfl⟩, -⟩ := heff
  exact ⟨b.rem, b.bits, run_succ_of_step (step_put_failed hp hop hput) 0⟩

/-- The last byte: the transport takes it or fails. -/
theorem Puts.encodes_final {op : CodecOp} (hop : op.decodes = false) {j : Nat} {b c : Block w} {res : CodecResult w}
    (hp : b.phase = .busy op .transfer) (hlast : b.bits ≤ 6)
    (h : Puts op b [finalByte b.kind (payloadOf b.rem)] j res c) : b.Encodes op 1 j res c := by
  have hnext : nextByte b.kind b.rem b.bits = finalByte b.kind (payloadOf b.rem) := if_neg (Nat.not_lt.2 hlast)
  cases h with
  | done hput h =>
    cases h
    obtain ⟨-, -, -, -, hcnt⟩ := Block.put_registers hop hput
    refine ⟨c.rem, c.bits, (run_succ_of_step (step_put_final hp hop hlast hput) 0).trans ?_⟩
    rw [← hcnt]
    rfl
  | failed hput => exact Block.encodes_of_failed hp hop (hnext ▸ hput)

/-- A continuation byte the transport takes, then the rest. -/
theorem Block.Encodes.cons {op : CodecOp} {n j : Nat} {b c d : Block w} {res : CodecResult w}
    (hstep : step ⟨w, b⟩ = .next ⟨w, d.afterContPut⟩) (hcnt : d.cnt = b.cnt) {rem : Word w} {bits cnt : Nat}
    (h : d.afterContPut.Encodes op n j res (c.withEncoder rem bits cnt)) : b.Encodes op (n + 1) (j + 1) res c := by
  obtain ⟨rem', bits', hrun⟩ := h
  refine ⟨rem', bits', (run_succ_of_step hstep n).trans (hrun.trans ?_)⟩
  rw [Block.afterContPut_cnt, hcnt, Nat.add_assoc, Nat.add_comm 1 j]
  rfl

/-- The byte steps of the encoder put what EncodeCore's loop says, with at most `m` continuation bytes to come, as far
as the transport takes it (R98). -/
theorem Puts.encodes {op : CodecOp} (hop : op.decodes = false) {m j : Nat} {b c : Block w} {res : CodecResult w}
    (hp : b.phase = .busy op .transfer) (hbits : b.bits ≤ 7 * m + 6)
    (h : Puts op b (encodeLoop b.kind m b.rem b.bits) j res c) : ∃ n ≤ m + 1, b.Encodes op n j res c := by
  induction m generalizing b c j with
  | zero => exact ⟨1, le_rfl, h.encodes_final hop hp (by omega)⟩
  | succ m ih =>
    by_cases hmore : 6 < b.bits
    · rw [encodeLoop_more _ _ _ hmore] at h
      have hnext : nextByte b.kind b.rem b.bits = contByte (chunkOf b.rem) := if_pos hmore
      cases h with
      | @done _ d _ _ _ _ _ hput h =>
        obtain ⟨hphase, hkind, hrem, hbits', hcnt⟩ := Block.put_registers hop hput
        have htail := h.withEncoder (d.rem.sshiftRight 7) (d.bits - 7) (d.cnt + 1)
        rw [← hkind, ← hrem, ← hbits'] at htail
        have hfewer : d.afterContPut.bits ≤ 7 * m + 6 := by
          rw [Block.afterContPut_bits]
          omega
        obtain ⟨n, hn, henc⟩ := ih (b := d.afterContPut) (hphase.trans hp) hfewer htail
        exact ⟨n + 1, Nat.succ_le_succ hn, henc.cons (step_put_cont hp hop hmore hput) hcnt⟩
      | failed hput =>
        exact ⟨1, Nat.succ_le_succ (Nat.zero_le _), Block.encodes_of_failed hp hop (hnext ▸ hput)⟩
    · rw [encodeLoop_last _ _ _ (by omega)] at h
      exact ⟨1, by omega, h.encodes_final hop hp (by omega)⟩

/-- The response step writes PHASE, whatever stage it answers. -/
theorem Block.finish_respondCodec (b : Block w) (op op' : CodecOp) (res res' : CodecResult w) :
    (b.finish op' res').respondCodec op res = b.respondCodec op res := by
  cases res <;> rfl

/-- EncodeCore over a transport, from the loaded registers to the response (R98, R176). -/
theorem Puts.run_encodeCore {op : CodecOp} (hop : op.decodes = false) {k : Kind} {v : Word w} {j : Nat} {b c : Block w}
    {res : CodecResult w} (hp : b.phase = .busy op .transfer) (hkind : b.kind = k) (hrem : b.rem = v)
    (hbits : b.bits = significantWidth k v) (hcnt : b.cnt = 0) (h : Puts op b (encodeCore k v) j res c) :
    ∃ m rem bits, m ≤ w.maxLen + 1 ∧
      run m ⟨w, b⟩ = .next ⟨w, (c.withEncoder rem bits j).respondCodec op res⟩ := by
  obtain ⟨-, hcover, -, hmax⟩ := width_maxCont_bounds w
  have hwidth := significantWidth_le k v
  rw [encodeCore, ← hbits, ← hkind, ← hrem] at h
  obtain ⟨n, hn, rem, bits, hrun⟩ := h.encodes hop hp (by omega)
  refine ⟨n + 1, rem, bits, by omega, (run_response hrun rfl).trans ?_⟩
  rw [Block.finish_respondCodec, hcnt, Nat.zero_add]

/-! ### The decoder over a transport -/

/-- From `b`, the Gets of `op` give the bytes `xs` and leave the block `c` (R97). -/
inductive Gets (op : CodecOp) : Block w → List Byte → Block w → Prop where
  /-- No byte more is asked for. -/
  | nil (b : Block w) : Gets op b [] b
  /-- The transport gives the byte. -/
  | cons {b c d : Block w} {x : Byte} {xs : List Byte} (hget : b.get op = .got x c) (h : Gets op c xs d) :
      Gets op b (x :: xs) d

theorem Gets.withDecoder {op : CodecOp} {b c : Block w} {xs : List Byte} (h : Gets op b xs c) (acc : Word w)
    (off cnt : Nat) : Gets op (b.withDecoder acc off cnt) xs (c.withDecoder acc off cnt) := by
  induction h with
  | nil b => exact .nil _
  | cons hget _ ih => exact .cons (by rw [Block.get_withDecoder, hget, GetResult.mapBlock]) ih

/-- A byte the transport gives: the registers of the decoder are as they were. -/
theorem Block.get_registers {b c : Block w} {op : CodecOp} (hop : op.decodes = true) {x : Byte}
    (hget : b.get op = .got x c) : c.phase = b.phase ∧ c.acc = b.acc ∧ c.off = b.off ∧ c.cnt = b.cnt := by
  have heff := b.get_effect hop
  rw [hget] at heff
  obtain ⟨hphase, -, hcnt⟩ := Transferred.cores heff
  obtain ⟨-, -, hacc, hoff⟩ := Transferred.registers heff
  exact ⟨hphase, hacc, hoff, hcnt⟩

/-- The bytes DecodeCore did not read. -/
def Decoded.left : Decoded w → List Byte
  | .value _ _ _ left => left
  | .tooWide _ left => left
  | .unterminated _ => []

/-- The bytes DecodeCore read. -/
def Decoded.count : Decoded w → Nat
  | .value _ _ cnt _ => cnt
  | .tooWide cnt _ => cnt
  | .unterminated cnt => cnt

/-- The block `c` with the registers DecodeCore leaves: the response step is next, or, where the bytes ended before a
final byte, the next byte (R101, R102). -/
def Decoded.leaves (op : CodecOp) (c : Block w) (acc : Word w) (off : Nat) : Decoded w → Block w
  | .value k v cnt _ => { c.withDecoder acc off cnt with kind := k }.finish op (.decoded v)
  | .tooWide cnt _ => (c.withDecoder acc off cnt).finish op (.failed .tooWide)
  | .unterminated cnt => c.withDecoder acc off cnt

theorem Decoded.leaves_withDecoder (op : CodecOp) (c : Block w) (acc acc' : Word w) (off off' cnt : Nat)
    (r : Decoded w) : r.leaves op (c.withDecoder acc' off' cnt) acc off = r.leaves op c acc off := by
  cases r <;> rfl

/-- Every byte is read or left (R101). -/
theorem decodeLoop_count (acc : Word w) (off cnt : Nat) (xs : List Byte) :
    (decodeLoop acc off cnt xs).count + (decodeLoop acc off cnt xs).left.length = cnt + xs.length := by
  induction xs generalizing acc off cnt with
  | nil => rfl
  | cons x xs ih =>
    rw [List.length_cons, Nat.add_comm xs.length, ← Nat.add_assoc]
    obtain ⟨c, rfl⟩ | ⟨k, p, rfl⟩ := wireByte_cases x
    · obtain hlimit | hlimit := Nat.lt_or_ge off (w.bits - 7)
      · rw [decodeLoop_cont acc cnt c xs hlimit, ih]
      · rw [decodeLoop_tooWide acc cnt c xs hlimit]
        rfl
    · rw [decodeLoop_final]
      rfl

/-- How many bytes DecodeCore reads for each thing it can do (R82, R102). -/
def Decoded.WithinLimit : Decoded w → Prop
  | .value _ _ cnt _ => cnt ≤ w.maxLen
  | .tooWide cnt _ => cnt = w.maxLen
  | .unterminated cnt => cnt ≤ w.maxCont

theorem decodeLoop_withinLimit (acc : Word w) {off cnt : Nat} (xs : List Byte) (hoff : off = 7 * cnt)
    (hcnt : cnt ≤ w.maxCont) : (decodeLoop acc off cnt xs).WithinLimit := by
  obtain ⟨hlimit, hcover, -, hmax⟩ := width_maxCont_bounds w
  induction xs generalizing acc off cnt with
  | nil => exact hcnt
  | cons x xs ih =>
    obtain ⟨c, rfl⟩ | ⟨k, p, rfl⟩ := wireByte_cases x
    · obtain hbelow | hat := Nat.lt_or_ge off (w.bits - 7)
      · rw [decodeLoop_cont acc cnt c xs hbelow]
        exact ih _ (by omega) (by omega)
      · rw [decodeLoop_tooWide acc cnt c xs hat]
        show cnt + 1 = w.maxLen
        omega
    · rw [decodeLoop_final]
      exact Nat.succ_le_succ hcnt

/-- What DecodeCore does with a byte string keeps the limits of R12 and R102. -/
theorem decodeCore_withinLimit {xs : List Byte} {r : Decoded w} (hdec : decodeCore xs = r) : r.WithinLimit :=
  hdec ▸ decodeLoop_withinLimit 0 xs rfl (Nat.zero_le _)

/-- Where DecodeCore leaves no byte, it has read them all (R101). -/
theorem decodeCore_count {xs : List Byte} {r : Decoded w} (hdec : decodeCore xs = r) (hleft : r.left = []) :
    r.count = xs.length := by
  have h := decodeLoop_count (0 : Word w) 0 0 xs
  rwa [← decodeCore, hdec, hleft, List.length_nil, Nat.add_zero, Nat.zero_add] at h

/-- The byte steps of the decoder do what DecodeCore's loop does with the bytes the transport gives, where it reads them
all (R101). -/
theorem Gets.run_decodeLoop {op : CodecOp} (hop : op.decodes = true) {b c : Block w} {xs : List Byte}
    (hp : b.phase = .busy op .transfer) (h : Gets op b xs c) (hleft : (decodeLoop b.acc b.off b.cnt xs).left = []) :
    ∃ acc off, run xs.length ⟨w, b⟩ = .next ⟨w, (decodeLoop b.acc b.off b.cnt xs).leaves op c acc off⟩ := by
  induction xs generalizing b c with
  | nil =>
    cases h
    exact ⟨b.acc, b.off, rfl⟩
  | cons x xs ih =>
    cases h with
    | @cons _ d _ _ _ hget h =>
      have hstep := step_of_decoding hp hop hget
      obtain ⟨hphase, hacc, hoff, hcnt⟩ := Block.get_registers hop hget
      rw [← hphase] at hp
      rw [← hacc, ← hoff, ← hcnt] at hleft ⊢
      obtain ⟨ch, rfl⟩ | ⟨k, p, rfl⟩ := wireByte_cases x
      · rw [exec_contByte hp hop] at hstep
        obtain ⟨hlimit, htake⟩ | ⟨hlimit, htake⟩ := d.takeChunk_cases op ch <;> rw [htake] at hstep
        · rw [decodeLoop_tooWide _ _ _ _ hlimit] at hleft ⊢
          obtain rfl : xs = [] := hleft
          cases h
          exact ⟨c.acc, c.off, run_succ_of_step hstep 0⟩
        · rw [decodeLoop_cont _ _ _ _ hlimit] at hleft ⊢
          have htail := h.withDecoder (accumulate d.acc d.off ch) (d.off + 7) (d.cnt + 1)
          obtain ⟨acc, off, hrun⟩ := ih (b := d.countByte.joinChunk ch) hp htail hleft
          refine ⟨acc, off, (run_succ_of_step hstep _).trans (hrun.trans ?_)⟩
          rw [Decoded.leaves_withDecoder]
          rfl
      · rw [exec_finalByte hp hop] at hstep
        rw [decodeLoop_final] at hleft ⊢
        obtain rfl : xs = [] := hleft
        cases h
        exact ⟨accumulate c.acc c.off p, c.off, run_succ_of_step hstep 0⟩

/-- A `Get` that fails ends the byte steps, and the response step follows (R97). -/
theorem run_get_failed {b c : Block w} {op : CodecOp} (hp : b.phase = .busy op .transfer) (hop : op.decodes = true)
    {st : Status} (hget : b.get op = .failed st c) : run 2 ⟨w, b⟩ = .next ⟨w, c.respondCodec op (.failed st)⟩ := by
  have hstep : step ⟨w, b⟩ = .next ⟨w, c.finish op (.failed st)⟩ := by
    simp [step, State.fetch, hp, Block.fetchTransfer, hop, hget]
  refine (run_response (run_succ_of_step hstep 0) rfl).trans ?_
  rw [Block.finish_respondCodec]

/-- The decoder's registers are clear and it waits for its first byte (R101). -/
structure Block.StartsDecoding (b : Block w) (op : CodecOp) : Prop where
  decodes : op.decodes = true
  phase : b.phase = .busy op .transfer
  acc : b.acc = 0
  off : b.off = 0
  cnt : b.cnt = 0

/-- The byte steps of a decoder that starts do what DecodeCore does, where it reads every byte (R101). -/
theorem Gets.run_decodeCore {op : CodecOp} {b c : Block w} {xs : List Byte} (hb : b.StartsDecoding op)
    (h : Gets op b xs c) {r : Decoded w} (hdec : decodeCore xs = r) (hleft : r.left = []) :
    ∃ acc off, run r.count ⟨w, b⟩ = .next ⟨w, r.leaves op c acc off⟩ := by
  obtain ⟨hop, hp, hacc, hoff, hcnt⟩ := hb
  have hloop : decodeLoop b.acc b.off b.cnt xs = r := by rw [hacc, hoff, hcnt, ← hdec, decodeCore]
  rw [decodeCore_count hdec hleft, ← hloop]
  exact h.run_decodeLoop hop hp (hloop ▸ hleft)

/-- A decode that reaches a value, to the response (R101). -/
theorem Gets.run_value {op : CodecOp} {b c : Block w} {xs : List Byte} (hb : b.StartsDecoding op) (h : Gets op b xs c)
    {k : Kind} {v : Word w} {n : Nat} (hdec : decodeCore xs = .value k v n []) :
    ∃ acc off, run (n + 1) ⟨w, b⟩ =
      .next ⟨w, { c.withDecoder acc off n with kind := k }.respondCodec op (.decoded v)⟩ := by
  obtain ⟨acc, off, hrun⟩ := h.run_decodeCore hb hdec rfl
  exact ⟨acc, off, (run_response hrun rfl).trans rfl⟩

/-- A decode that fails with TOO_WIDE, to the response (R102). -/
theorem Gets.run_tooWide {op : CodecOp} {b c : Block w} {xs : List Byte} (hb : b.StartsDecoding op) (h : Gets op b xs c)
    {n : Nat} (hdec : decodeCore (w := w) xs = .tooWide n []) :
    ∃ acc off, run (w.maxLen + 1) ⟨w, b⟩ =
      .next ⟨w, (c.withDecoder acc off w.maxLen).respondCodec op (.failed .tooWide)⟩ := by
  obtain rfl : n = w.maxLen := decodeCore_withinLimit hdec
  obtain ⟨acc, off, hrun⟩ := h.run_decodeCore hb hdec rfl
  exact ⟨acc, off, (run_response hrun rfl).trans rfl⟩

/-- A decode whose bytes end before a final byte, because the next `Get` fails, to the response (R97). -/
theorem Gets.run_unterminated {op : CodecOp} {b c d : Block w} {xs : List Byte} (hb : b.StartsDecoding op)
    (h : Gets op b xs c) (hphase : c.phase = b.phase) {st : Status} (hget : c.get op = .failed st d) {n : Nat}
    (hdec : decodeCore (w := w) xs = .unterminated n) :
    ∃ acc off, run (n + 2) ⟨w, b⟩ = .next ⟨w, (d.withDecoder acc off n).respondCodec op (.failed st)⟩ := by
  obtain ⟨acc, off, hrun⟩ := h.run_decodeCore hb hdec rfl
  have hfail : (c.withDecoder acc off n).get op = .failed st (d.withDecoder acc off n) := by
    rw [Block.get_withDecoder, hget, GetResult.mapBlock]
  have hend := run_get_failed (b := c.withDecoder acc off n) (hphase.trans hb.phase) hb.decodes hfail
  exact ⟨acc, off, (run_add hrun 2).trans hend⟩

end Transport

/-- Settles O43: a `Get` at a backed address, and one the stream answers with a byte. -/
theorem stepExecutesTheWireByte : Obligations.StepExecutesTheWireByte := by
  intro w b x i left hdec
  cases hdec
  refine ⟨fun hp _ hbyte => ?_, fun rest hp hattached hreads => ?_⟩
  · obtain ⟨-, region, offset, p, hres, rfl⟩ := Block.byteAt_eq_some.1 hbyte
    exact step_of_decoding hp rfl (Block.get_decM hres)
  · exact step_of_decoding hp rfl (Block.get_decS_byte hattached hreads)

end Sys2Proof.Machine

/-! PROOF. The codec commands from the command to the response (R105, R108, R111, R114): what the stream and memory
answer to the cores, and the whole runs. -/

namespace Sys2Proof.Machine

open Sys2Proof

section Commands

variable {w : Width}

/-! ### The end of a command -/

/-- A command that began at IDLE ends with the response, and with PHASE as it was (R31, R151). -/
theorem Block.endCommand_eq {b : Block w} {p : Phase w} (hidle : p = .idle) (st : Status) (f : Response w) :
    b.endCommand st f = { b with rsp := { f with status := some st }, lastStatus := st, phase := p } := by
  rw [hidle]
  rfl

/-! ### The stream takes bytes -/

/-- Where the stream answers OK to as many bytes as there are, it takes them all (R105). -/
theorem Puts.stream_all {b : Block w} {xs : List Byte} {rest : List WriteAnswer} (ha : b.stream.attached = true)
    (hw : b.stream.writes = List.replicate xs.length .ok ++ rest) :
    Puts .encS b xs xs.length .encoded
      (b.withStream { b.stream with writes := rest, written := b.stream.written ++ xs }) := by
  induction xs generalizing b with
  | nil =>
    rw [List.append_nil, ← show b.stream.writes = rest from hw]
    exact .all b
  | cons x xs ih =>
    have htail := ih (b := b.withStream
      { b.stream with writes := List.replicate xs.length .ok ++ rest, written := b.stream.written ++ [x] }) ha rfl
    rw [Block.withStream_stream, List.append_assoc] at htail
    exact .done (Block.put_encS_ok ha hw x) htail

/-- Where the stream answers ERR to byte `j`, it has taken the `j` bytes before (R105). -/
theorem Puts.stream_err {b : Block w} {xs : List Byte} {j : Nat} {rest : List WriteAnswer} (hj : j < xs.length)
    (ha : b.stream.attached = true) (hw : b.stream.writes = List.replicate j .ok ++ .err :: rest) :
    Puts .encS b xs j (.failed .ioError)
      (b.withStream { b.stream with writes := rest, written := b.stream.written ++ xs.take j }) := by
  induction j generalizing b xs with
  | zero =>
    obtain ⟨x, xs, rfl⟩ := List.exists_cons_of_length_pos hj
    rw [List.take_zero, List.append_nil]
    exact .failed (Block.put_encS_err ha hw x) xs
  | succ j ih =>
    obtain ⟨x, xs, rfl⟩ := List.exists_cons_of_length_pos (Nat.zero_lt_of_lt hj)
    have htail := ih (b := b.withStream
      { b.stream with writes := List.replicate j .ok ++ .err :: rest, written := b.stream.written ++ [x] })
      (Nat.lt_of_succ_lt_succ hj) ha rfl
    rw [Block.withStream_stream, List.append_assoc] at htail
    exact .done (Block.put_encS_ok ha hw x) htail

/-- With no stream attached the first byte fails (R173). -/
theorem Puts.stream_detached {b : Block w} {xs : List Byte} (hxs : 0 < xs.length) (ha : b.stream.attached = false) :
    Puts .encS b xs 0 (.failed .ioError) b := by
  obtain ⟨x, xs, rfl⟩ := List.exists_cons_of_length_pos hxs
  exact .failed (Block.put_encS_detached ha x) xs

/-! ### Memory takes bytes up to an address in no region -/

/-- ENC.M stores the `j` bytes before the first address that is in no region, and fails there (R108). -/
theorem Puts.memory_unmapped {b c : Block w} {a : Nat} {xs : List Byte} {j : Nat} (hj : j < xs.length)
    (hcur : b.cur = BitVec.ofNat _ a) (hfits : a + j < 2 ^ (w.bits + 1)) (hs : b.storeBytes a (xs.take j) = some c)
    (hun : b.unmappedAt (a + j)) :
    Puts .encM b xs j (.failed .invalidAddress) { b.withStorage c with cur := BitVec.ofNat _ (a + j) } := by
  induction j generalizing b c a xs with
  | zero =>
    obtain ⟨x, xs, rfl⟩ := List.exists_cons_of_length_pos hj
    cases hs
    have hres : b.resolve b.cur.toNat 1 .byte = .invalid := by
      rw [hcur, BitVec.toNat_ofNat, Nat.mod_eq_of_lt (by omega)]
      exact hun
    rw [← show b.cur = BitVec.ofNat (w.bits + 1) (a + 0) from hcur]
    exact .failed (Block.put_encM_unmapped hres x) xs
  | succ j ih =>
    obtain ⟨x, xs, rfl⟩ := List.exists_cons_of_length_pos (Nat.zero_lt_of_lt hj)
    obtain ⟨region, offset, p, hres, hs⟩ := Block.storeBytes_cons_eq_some.1 hs
    rw [b.writeSlot_eq_withStorage p] at hs
    have hsame : SameStorage (b.withStorage (b.writeSlot p x)) (b.withStorage (b.writeSlot p x)).advance :=
      ⟨rfl, rfl, rfl, rfl⟩
    rw [show a + (j + 1) = a + 1 + j by omega] at hfits hun ⊢
    have htail := ih (Nat.lt_of_succ_lt_succ hj) (cursor_succ hcur) hfits (hsame.storeBytes hs) hun
    exact .done (Block.put_encM (Block.resolve_cursor hcur hres) x) htail

/-! ### ENC.S and ENC.M as commands -/

/-- The instruction of ENC.S for a kind (R85). -/
def encSInstr : Kind → Instr
  | .number => .encSNum
  | .action => .encSAct

/-- The block after ENC.S is taken: EncodeCore's registers are loaded (R31, R98, R105). -/
def Block.takeEncS (b : Block w) (k : Kind) : Block w := (b.loadEncoder k b.valueOperand).accept .encS

theorem exec_encS {b : Block w} (hr : b.ready) (k : Kind) :
    exec (encSInstr k) ⟨w, b⟩ = .next ⟨w, b.takeEncS k⟩ := by
  cases k <;> exact onBlock_command_of_ready hr rfl

theorem encodeCore_length_bounds (k : Kind) (v : Word w) :
    0 < (encodeCore k v).length ∧ (encodeCore k v).length ≤ w.maxLen := by
  obtain ⟨-, -, -, -, hpos, hle⟩ := shapeOfAnEncoding w k v
  exact ⟨hpos, hle⟩

/-- The addresses a codec command can reach stay within the `W + 1` bits of CUR (R30). -/
theorem operand_add_lt {a : Word w} {j : Nat} (hj : j ≤ w.maxLen) : a.toNat + j < 2 ^ (w.bits + 1) := by
  have ha := a.isLt
  have hmax : w.maxLen ≤ 2 ^ w.bits := by cases w <;> decide
  omega

/-- The steps after the one that takes ENC.S answer the status of its last `Put`, with the bytes taken (R105). -/
theorem run_encS {b : Block w} (hr : b.ready) {k : Kind} {j : Nat} {t : ByteStream} {res : CodecResult w} {st : Status}
    (hst : ∀ c : Block w, c.respondCodec .encS res = c.endCommand st (c.transferFields .encS))
    (h : Puts .encS (b.takeEncS k) (encodeCore k b.port.opb) j res ((b.takeEncS k).withStream t)) :
    ∃ m rem bits, m ≤ w.maxLen + 1 ∧ run m ⟨w, b.takeEncS k⟩ = .next ⟨w, { b with
      kind := k, rem := rem, bits := bits, cnt := j, lastStatus := st, stream := t
      rsp := { status := some st, count := some (BitVec.ofNat 4 j) } }⟩ := by
  obtain ⟨m, rem, bits, hm, hrun⟩ := h.run_encodeCore rfl rfl rfl rfl rfl rfl
  refine ⟨m, rem, bits, hm, hrun.trans ?_⟩
  rw [hst, Block.endCommand_eq hr.2]
  cases b
  rfl

/-- ENC.M up to an address in no region: the steps after the one that takes it store the bytes before it, and answer
INVALID_ADDRESS there (R108). -/
theorem run_encM_unmapped {b c : Block w} (hr : b.ready) {k : Kind} {j : Nat}
    (hj : j < (encodeCore k b.port.opb).length)
    (hs : b.storeBytes b.port.opa.toNat ((encodeCore k b.port.opb).take j) = some c)
    (hun : b.unmappedAt (b.port.opa.toNat + j)) :
    ∃ m rem bits, m ≤ w.maxLen + 1 ∧ run m ⟨w, b.takeEncM k⟩ = .next ⟨w, { b.withStorage c with
      kind := k, rem := rem, bits := bits, cnt := j, cur := BitVec.ofNat _ (b.port.opa.toNat + j)
      lastStatus := .invalidAddress
      rsp := {
        status := some .invalidAddress, count := some (BitVec.ofNat 4 j)
        cur := some (BitVec.ofNat _ (b.port.opa.toNat + j))
        faultAddr := some (BitVec.ofNat _ (b.port.opa.toNat + j)) } }⟩ := by
  have hmax := (encodeCore_length_bounds k b.port.opb).2
  have hputs := Puts.memory_unmapped (b := b.takeEncM k) hj b.startAddress_eq (operand_add_lt (by omega))
    ((b.takeEncM_sameStorage k).storeBytes hs) hun
  obtain ⟨m, rem, bits, hm, hrun⟩ := hputs.run_encodeCore rfl rfl rfl rfl rfl rfl
  refine ⟨m, rem, bits, hm, hrun.trans ?_⟩
  rw [Block.respondCodec, Block.endCommand_eq hr.2]
  cases b
  rfl

/-! ### Bytes from the stream and from memory -/

/-- The stream gives the bytes it answers with (R111). -/
theorem Gets.stream {b : Block w} {xs : List Byte} {rest : List ReadAnswer} (ha : b.stream.attached = true)
    (hr : b.stream.reads = xs.map .byte ++ rest) :
    Gets .decS b xs (b.withStream { b.stream with reads := rest }) := by
  induction xs generalizing b with
  | nil =>
    rw [← show b.stream.reads = rest from hr]
    exact .nil b
  | cons x xs ih =>
    exact .cons (Block.get_decS_byte ha hr)
      (ih (b := b.withStream { b.stream with reads := xs.map .byte ++ rest }) ha rfl)

/-- Memory gives the bytes that stand at CUR and upwards (R114). -/
theorem Gets.memory {b : Block w} {a : Nat} {xs : List Byte} (hcur : b.cur = BitVec.ofNat _ a)
    (hbytes : b.holdsBytes a xs) : Gets .decM b xs { b with cur := BitVec.ofNat _ (a + xs.length) } := by
  induction xs generalizing b a with
  | nil =>
    rw [List.length_nil, ← show b.cur = BitVec.ofNat (w.bits + 1) (a + 0) from hcur]
    exact .nil b
  | cons x xs ih =>
    obtain ⟨-, region, offset, p, hres, rfl⟩ := Block.byteAt_eq_some.1 (hbytes 0 (Nat.succ_pos _))
    have hsame : SameSurroundings b b.advance := ⟨rfl, rfl, rfl, rfl, rfl, rfl, rfl, rfl, rfl⟩
    have htail := ih (b := b.advance) (cursor_succ hcur) (hsame.holdsBytes rfl hbytes.tail)
    rw [Nat.add_assoc, Nat.add_comm 1 xs.length] at htail
    exact .cons (Block.get_decM (Block.resolve_cursor hcur hres)) htail

/-! ### DEC.S and DEC.M as commands -/

/-- The block after DEC.S is taken: DecodeCore's registers are cleared (R31, R101, R111). -/
def Block.takeDecS (b : Block w) : Block w := b.clearDecoder.accept .decS

theorem exec_decS {b : Block w} (hr : b.ready) : exec .decS ⟨w, b⟩ = .next ⟨w, b.takeDecS⟩ :=
  onBlock_command_of_ready hr rfl

theorem Block.takeDecS_starts (b : Block w) : b.takeDecS.StartsDecoding .decS := ⟨rfl, rfl, rfl, rfl, rfl⟩

theorem Block.takeDecM_starts (b : Block w) : b.takeDecM.StartsDecoding .decM := ⟨rfl, rfl, rfl, rfl, rfl⟩

/-- The response of a DEC.S that reached a value (R111). -/
theorem Block.respond_decS_value {b : Block w} (hr : b.ready) (k : Kind) (v acc : Word w) (off cnt : Nat)
    (t : ByteStream) :
    { (b.takeDecS.withStream t).withDecoder acc off cnt with kind := k }.respondCodec .decS (.decoded v) = { b with
      acc := acc, off := off, cnt := cnt, kind := k, lastStatus := .ok, stream := t
      rsp := { status := some .ok, kind := some k, value := some v, count := some (BitVec.ofNat 4 cnt) } } := by
  rw [Block.respondCodec, Block.endCommand_eq hr.2]
  cases b
  rfl

/-- The response of a DEC.S that failed (R111). -/
theorem Block.respond_decS_failed {b : Block w} (hr : b.ready) (st : Status) (acc : Word w) (off cnt : Nat)
    (t : ByteStream) :
    ((b.takeDecS.withStream t).withDecoder acc off cnt).respondCodec .decS (.failed st) = { b with
      acc := acc, off := off, cnt := cnt, lastStatus := st, stream := t
      rsp := { status := some st, count := some (BitVec.ofNat 4 cnt) } } := by
  rw [Block.respondCodec, Block.endCommand_eq hr.2]
  cases b
  rfl

/-- DEC.M over bytes that are too wide: the steps after the one that takes it answer TOO_WIDE, with the address of the
byte that was too wide (R102, R114). -/
theorem run_decM_tooWide {b : Block w} {xs : List Byte} {n : Nat} (hbytes : b.holdsBytes b.port.opa.toNat xs)
    (hdec : decodeCore (w := w) xs = .tooWide n []) :
    ∃ acc off, run (w.maxLen + 1) ⟨w, b.takeDecM⟩ = .next ⟨w, { b with
      acc := acc, off := off, cnt := w.maxLen, cur := BitVec.ofNat _ (b.port.opa.toNat + w.maxLen), phase := .idle
      lastStatus := .tooWide
      rsp := {
        status := some .tooWide, count := some (BitVec.ofNat 4 w.maxLen)
        cur := some (BitVec.ofNat _ (b.port.opa.toNat + w.maxLen))
        faultAddr := some (BitVec.ofNat _ (b.port.opa.toNat + w.maxCont)) } }⟩ := by
  have hgets := Gets.memory (b := b.takeDecM) b.startAddress_eq hbytes
  obtain ⟨acc, off, hrun⟩ := hgets.run_tooWide b.takeDecM_starts hdec
  have hlen : w.maxLen = xs.length := (decodeCore_withinLimit hdec).symm.trans (decodeCore_count hdec rfl)
  have hpast : BitVec.ofNat (w.bits + 1) (b.port.opa.toNat + w.maxLen) - 1 =
      BitVec.ofNat (w.bits + 1) (b.port.opa.toNat + w.maxCont) := by
    rw [BitVec.sub_eq_iff_eq_add]
    exact (cursor_succ rfl).symm
  refine ⟨acc, off, hrun.trans ?_⟩
  rw [← hlen, ← hpast]
  cases b
  rfl

/-- DEC.M up to an address in no region: the steps after the one that takes it answer INVALID_ADDRESS there (R114). -/
theorem run_decM_unmapped {b : Block w} {xs : List Byte} {n : Nat} (hbytes : b.holdsBytes b.port.opa.toNat xs)
    (hun : b.unmappedAt (b.port.opa.toNat + n)) (hdec : decodeCore (w := w) xs = .unterminated n) :
    ∃ acc off, run (n + 2) ⟨w, b.takeDecM⟩ = .next ⟨w, { b with
      acc := acc, off := off, cnt := n, cur := BitVec.ofNat _ (b.port.opa.toNat + n), phase := .idle
      lastStatus := .invalidAddress
      rsp := {
        status := some .invalidAddress, count := some (BitVec.ofNat 4 n)
        cur := some (BitVec.ofNat _ (b.port.opa.toNat + n))
        faultAddr := some (BitVec.ofNat _ (b.port.opa.toNat + n)) } }⟩ := by
  have hle : n ≤ w.maxCont := decodeCore_withinLimit hdec
  obtain rfl : n = xs.length := decodeCore_count hdec rfl
  have hgets := Gets.memory (b := b.takeDecM) b.startAddress_eq hbytes
  have hfits := operand_add_lt (a := b.port.opa) (Nat.le_succ_of_le hle)
  have hres : b.resolve (BitVec.ofNat (w.bits + 1) (b.port.opa.toNat + xs.length)).toNat 1 .byte = .invalid := by
    rw [BitVec.toNat_ofNat, Nat.mod_eq_of_lt hfits]
    exact hun
  obtain ⟨acc, off, hrun⟩ := hgets.run_unterminated b.takeDecM_starts rfl (Block.get_decM_unmapped hres) hdec
  refine ⟨acc, off, hrun.trans ?_⟩
  cases b
  rfl

end Commands

/-- Settles O22: the stream's answers, byte by byte, and the encoder over them. -/
theorem encSFromCommandToResponse : Obligations.EncSFromCommandToResponse := by
  refine ⟨rfl, rfl, fun w b i k bytes n hi hr hbytes hn => ?_⟩
  obtain rfl : i = encSInstr k := by obtain ⟨rfl, rfl⟩ | ⟨rfl, rfl⟩ := hi <;> rfl
  have hpos := (encodeCore_length_bounds k b.port.opb).1
  subst hbytes hn
  refine ⟨_, exec_encS hr k, fun rest ha hw => ?_, fun j rest hj ha hw => ?_, fun ha => ?_⟩
  · obtain ⟨m, rem, bits, hm, hrun⟩ := run_encS hr (fun _ => rfl) (Puts.stream_all (b := b.takeEncS k) ha hw)
    exact ⟨m, _, hm, hrun, rfl⟩
  · obtain ⟨m, rem, bits, hm, hrun⟩ := run_encS hr (fun _ => rfl) (Puts.stream_err (b := b.takeEncS k) hj ha hw)
    exact ⟨m, _, hm, hrun, rfl⟩
  · obtain ⟨m, rem, bits, hm, hrun⟩ :=
      run_encS (t := b.stream) hr (fun _ => rfl) (Puts.stream_detached (b := b.takeEncS k) hpos ha)
    exact ⟨m, _, hm, hrun, rfl⟩

/-- Settles O21: with every address in a region the run of ENC.M, else the encoder up to the first that is in none. -/
theorem encMFromCommandToResponse : Obligations.EncMFromCommandToResponse := by
  refine ⟨rfl, rfl, fun w b i k bytes a n hi hr hbytes ha hn => ?_⟩
  obtain rfl : i = encMInstr k := by obtain ⟨rfl, rfl⟩ | ⟨rfl, rfl⟩ := hi <;> rfl
  have hmax := (encodeCore_length_bounds k b.port.opb).2
  subst hbytes ha hn
  refine ⟨_, exec_encM hr k, fun c hs => ?_, fun j c hj hs hun => ?_⟩ <;> rw [Block.storeBytes_eq_withStorage hs]
  · obtain ⟨rem, bits, hrun⟩ := run_encM rfl hs
    rw [← hr.2] at hrun
    exact ⟨_, _, Nat.succ_le_succ hmax, hrun, rfl⟩
  · obtain ⟨m, rem, bits, hm, hrun⟩ := run_encM_unmapped hr hj hs hun
    exact ⟨m, _, hm, hrun, rfl⟩

/-- Settles O23: the bytes the stream gives, and the decoder over them. -/
theorem decSFromCommandToResponse : Obligations.DecSFromCommandToResponse := by
  refine ⟨rfl, fun w b hr => ⟨_, exec_decS hr, fun xs rest k v n ha hreads hdec => ?_,
    fun xs rest n ha hreads hdec => ?_, fun xs y rest n ha hy hreads hdec => ?_, fun ha => ?_⟩⟩
  · have hle : n ≤ w.maxLen := decodeCore_withinLimit hdec
    obtain ⟨acc, off, hrun⟩ := (Gets.stream (b := b.takeDecS) ha hreads).run_value b.takeDecS_starts hdec
    rw [Block.respond_decS_value hr] at hrun
    exact ⟨n + 1, _, Nat.succ_le_succ hle, hrun, rfl⟩
  · obtain ⟨acc, off, hrun⟩ := (Gets.stream (b := b.takeDecS) ha hreads).run_tooWide b.takeDecS_starts hdec
    rw [Block.respond_decS_failed hr] at hrun
    exact ⟨w.maxLen + 1, _, le_rfl, hrun, rfl⟩
  · have hle : n ≤ w.maxCont := decodeCore_withinLimit hdec
    have hend : (b.takeDecS.withStream { b.stream with reads := y :: rest }).get .decS =
        .failed .ioError (b.takeDecS.withStream { b.stream with reads := rest }) := Block.get_decS_end ha hy rfl
    obtain ⟨acc, off, hrun⟩ :=
      (Gets.stream (b := b.takeDecS) ha hreads).run_unterminated b.takeDecS_starts rfl hend hdec
    rw [Block.respond_decS_failed hr] at hrun
    exact ⟨n + 2, _, Nat.add_le_add_right hle 2, hrun, rfl⟩
  · have hend : b.takeDecS.get .decS = .failed .ioError ((b.takeDecS.withStream b.stream).withDecoder 0 0 0) :=
      Block.get_decS_detached ha
    have hrun := run_get_failed rfl rfl hend
    rw [Block.respond_decS_failed hr] at hrun
    exact ⟨2, _, Nat.le_add_left 2 w.maxCont, hrun, rfl⟩

/-- Settles O24: the bytes that stand in memory, and the decoder over them. -/
theorem decMFromCommandToResponse : Obligations.DecMFromCommandToResponse := by
  refine ⟨rfl, fun w b a hr ha => ?_⟩
  subst ha
  refine ⟨_, exec_decM hr, fun xs k v n hbytes hdec => ?_, fun xs n hbytes hdec => ?_,
    fun xs n hbytes hdec hun => ?_⟩
  · have hle : n ≤ w.maxLen := decodeCore_withinLimit hdec
    obtain ⟨acc, off, hrun⟩ := run_decM hbytes hdec
    rw [← hr.2] at hrun
    exact ⟨n + 1, _, Nat.succ_le_succ hle, hrun, rfl⟩
  · obtain ⟨acc, off, hrun⟩ := run_decM_tooWide hbytes hdec
    rw [← hr.2] at hrun
    exact ⟨w.maxLen + 1, _, le_rfl, hrun, rfl⟩
  · have hle : n ≤ w.maxCont := decodeCore_withinLimit hdec
    obtain ⟨acc, off, hrun⟩ := run_decM_unmapped hbytes hun hdec
    rw [← hr.2] at hrun
    exact ⟨n + 2, _, Nat.add_le_add_right hle 2, hrun, rfl⟩

/-- Settles O25: both machines end the decode as the byte string says. -/
theorem decodingDoesNotDependOnTheAddress : Obligations.DecodingDoesNotDependOnTheAddress := by
  intro w b c xs hb hc hdec hbytes hbytes'
  obtain ⟨k, v, n, hdec⟩ | ⟨n, hdec⟩ := hdec
  · obtain ⟨acc, off, hrun⟩ := run_decM hbytes hdec
    obtain ⟨acc', off', hrun'⟩ := run_decM hbytes' hdec
    exact ⟨_, _, n + 1, _, _, exec_decM hb, exec_decM hc, hrun, hrun', rfl, rfl, rfl, rfl, rfl, rfl, rfl⟩
  · obtain ⟨acc, off, hrun⟩ := run_decM_tooWide hbytes hdec
    obtain ⟨acc', off', hrun'⟩ := run_decM_tooWide hbytes' hdec
    exact ⟨_, _, w.maxLen + 1, _, _, exec_decM hb, exec_decM hc, hrun, hrun', rfl, rfl, rfl, rfl, rfl, rfl, rfl⟩

end Sys2Proof.Machine

/-! PROOF. The addressing commands: RESOLVE by where its range lies, ALLOC by its two tests, ALIGN by rounding up. -/

namespace Sys2Proof.Machine

open Sys2Proof

section Addressing

variable {w : Width}

/-! ### RESOLVE -/

/-- RESOLVE at a granularity (R86, R127). -/
def resolveInstr : Granularity → Instr
  | .byte => .resolveB
  | .word => .resolveW

theorem exec_resolve {b : Block w} (hr : b.ready) (g : Granularity) :
    exec (resolveInstr g) ⟨w, b⟩ = .next ⟨w, b.runResolve g⟩ := by
  cases g <;> exact onBlock_command_of_ready hr rfl

/-- A range that lies in a region, aligned where the access is a WORD, answers its region and offset. -/
theorem exec_resolve_of_located {b : Block w} (hr : b.ready) {g : Granularity} {region offset : Nat} {p : Slot}
    (hloc : b.locate b.port.opa.toNat b.port.opb.toNat = some (region, offset, p))
    (ha : g = .word → b.port.opa.toNat % w.bytes = 0) :
    exec (resolveInstr g) ⟨w, b⟩ = .next ⟨w, { b with
      lastStatus := .ok
      rsp := { status := some .ok, region := some region, offset := some (BitVec.ofNat w.bits offset) } }⟩ := by
  have hres : b.resolve b.addressOperand b.lengthOperand g = .found region offset p :=
    Block.resolve_eq_found.2 ⟨hloc, ha⟩
  rw [exec_resolve hr, Block.runResolve, hres]
  simp only [Block.endCommand_eq hr.2]

/-- A range in no region answers INVALID_ADDRESS, aligned or not: bounds are tested first. -/
theorem exec_resolve_of_nowhere {b : Block w} (hr : b.ready) (g : Granularity)
    (hloc : b.locate b.port.opa.toNat b.port.opb.toNat = none) :
    exec (resolveInstr g) ⟨w, b⟩ = .next ⟨w, { b with
      lastStatus := .invalidAddress
      rsp := { status := some .invalidAddress
               faultAddr := some (BitVec.ofNat (w.bits + 1) b.port.opa.toNat) } }⟩ := by
  have hres : b.resolve b.addressOperand b.lengthOperand g = .invalid := Block.resolve_eq_invalid.2 hloc
  rw [exec_resolve hr, Block.runResolve, hres]
  simp only [Block.endCommand_eq hr.2, Block.startAddress_eq]

/-- A misaligned WORD range that lies in a region answers UNALIGNED_ADDRESS. -/
theorem exec_resolveW_of_misaligned {b : Block w} (hr : b.ready) {q : Nat × Nat × Slot}
    (hloc : b.locate b.port.opa.toNat b.port.opb.toNat = some q) (ha : b.port.opa.toNat % w.bytes ≠ 0) :
    exec .resolveW ⟨w, b⟩ = .next ⟨w, { b with
      lastStatus := .unalignedAddress
      rsp := { status := some .unalignedAddress
               faultAddr := some (BitVec.ofNat (w.bits + 1) b.port.opa.toNat) } }⟩ := by
  have hres : b.resolve b.addressOperand b.lengthOperand .word = .unaligned :=
    Block.resolve_eq_unaligned.2 ⟨⟨q, hloc⟩, rfl, ha⟩
  rw [show exec .resolveW ⟨w, b⟩ = _ from exec_resolve hr .word, Block.runResolve, hres]
  simp only [Block.endCommand_eq hr.2, Block.startAddress_eq]

theorem Area.holds_eq_false {r : Area w} {a l : Nat} :
    r.holds a l = false ↔ ¬ (r.base.toNat ≤ a ∧ a + l ≤ r.base.toNat + r.size.toNat) := by
  rw [← Area.holds_iff, Bool.not_eq_true]

/-- A range lies somewhere exactly when the primary region or an area holds it. -/
theorem Block.locate_isSome {b : Block w} {a l : Nat} :
    (∃ q, b.locate a l = some q) ↔
      a + l ≤ b.memorySize.toNat ∨
        ∃ r ∈ b.areas, r.base.toNat ≤ a ∧ a + l ≤ r.base.toNat + r.size.toNat := by
  rw [← Option.ne_none_iff_exists', ne_eq, Block.locate_eq_none, not_and_or, Nat.not_lt]
  simp only [Area.holds_eq_false, not_forall, not_not, exists_prop]

/-- A range of at least one byte lies somewhere exactly when one region has all its addresses (R123). -/
theorem Block.locate_isSome_iff_inRegion {b : Block w} {a l : Nat} (hl : 1 ≤ l) :
    (∃ q, b.locate a l = some q) ↔ ∃ k, ∀ x, a ≤ x → x < a + l → b.inRegion k x := by
  rw [Block.locate_isSome]
  constructor
  · rintro (hle | ⟨r, hr, hbase, hend⟩)
    · exact ⟨0, fun x _ hx => Nat.lt_of_lt_of_le hx hle⟩
    · obtain ⟨i, hi⟩ := List.getElem?_of_mem hr
      exact ⟨i + 1, fun x hax hx => ⟨r, hi, by omega, by omega⟩⟩
  · rintro ⟨k, hk⟩
    have hfirst := hk a le_rfl (by omega)
    have hlast := hk (a + l - 1) (by omega) (by omega)
    cases k with
    | zero =>
      have : a + l - 1 < b.memorySize.toNat := hlast
      exact .inl (by omega)
    | succ i =>
      obtain ⟨r, hr, hbase, -⟩ := hfirst
      obtain ⟨q, hq, -, hend⟩ := hlast
      cases hr.symm.trans hq
      exact .inr ⟨r, List.mem_of_getElem? hr, hbase, by omega⟩

/-! ### ALLOC -/

/-- A full area table comes before the address space test (R131, R134). -/
theorem Block.runAlloc_of_full {b : Block w} (hdata : b.lengthOperand ≤ b.bufferOperand.length)
    (hfull : b.areas.length = b.maxAreas) : b.runAlloc = .next (b.endCommand .areaTableFull {}) := by
  rw [Block.runAlloc, if_neg (Nat.not_lt.2 hdata), if_pos hfull]

/-- No room in the address space (R132, R134). -/
theorem Block.runAlloc_of_exhausted {b : Block w} (hdata : b.lengthOperand ≤ b.bufferOperand.length)
    (hroom : b.areas.length ≠ b.maxAreas) (hex : b.exhausted b.lengthOperand = true) :
    b.runAlloc = .next (b.endCommand .addressSpaceExhausted {}) := by
  rw [Block.runAlloc, if_neg (Nat.not_lt.2 hdata), if_neg hroom, if_pos hex]

/-- The new area (R134). -/
theorem Block.runAlloc_of_fits {b : Block w} (hdata : b.lengthOperand ≤ b.bufferOperand.length)
    (hroom : b.areas.length ≠ b.maxAreas) (hfits : b.exhausted b.lengthOperand = false) :
    b.runAlloc = .next ((b.appendArea b.lengthOperand b.bufferOperand).endCommand .ok
      { base := some (b.nextFree.setWidth w.bits), region := some (b.areas.length + 1) }) := by
  rw [Block.runAlloc, if_neg (Nat.not_lt.2 hdata), if_neg hroom, if_neg (Bool.eq_false_iff.1 hfits)]

theorem Block.exhausted_eq_true {b : Block w} {l : Nat} :
    b.exhausted l = true ↔ b.nextFree.toNat = 2 ^ w.bits ∨ 2 ^ w.bits < b.nextFree.toNat + l := by
  simp [Block.exhausted]

/-- The base of a new area is NEXT_FREE, which has W bits below 2^W (R134). -/
theorem Block.nextFree_setWidth_toNat {b : Block w} (h : b.nextFree.toNat < 2 ^ w.bits) :
    (b.nextFree.setWidth w.bits).toNat = b.nextFree.toNat := by
  rw [BitVec.toNat_setWidth, Nat.mod_eq_of_lt h]

/-- The size of a new area is OPB, which a word holds (R134). -/
theorem Block.lengthOperand_size (b : Block w) : (BitVec.ofNat w.bits b.lengthOperand).toNat = b.lengthOperand := by
  rw [Block.lengthOperand, BitVec.ofNat_toNat, BitVec.setWidth_eq]

/-- NEXT_FREE after ALLOC, as a number: its W + 1 bits hold 2^W (R27, R134). -/
theorem Block.appendArea_nextFree_toNat {b : Block w} {l : Nat} (h : b.nextFree.toNat + l ≤ 2 ^ w.bits) (d : Buffer) :
    (b.appendArea l d).nextFree.toNat = b.nextFree.toNat + l := by
  rw [Block.appendArea_nextFree, BitVec.toNat_add, BitVec.toNat_ofNat, Nat.add_mod_mod, Nat.mod_eq_of_lt (by omega)]

/-! ### ALIGN -/

theorem exec_align {b : Block w} (hr : b.ready) : exec .align ⟨w, b⟩ = .next ⟨w, b.runAlign.endCommand .ok {}⟩ :=
  onBlock_command_of_ready hr rfl

/-- Rounding up leaves a multiple where it is (R14). -/
theorem roundup_of_multiple {x m : Nat} (hm : 0 < m) (h : x % m = 0) : roundup x m = x := by
  obtain ⟨-, hge, hleast⟩ := roundup_spec (x := x) hm
  exact Nat.le_antisymm (hleast x h le_rfl) hge

/-- ALIGN on an aligned NEXT_FREE changes nothing (R138). -/
theorem Block.runAlign_of_aligned {b : Block w} (h : b.nextFree.toNat % w.bytes = 0) : b.runAlign = b := by
  rw [Block.runAlign, roundup_of_multiple (width_bytes_pos w) h, BitVec.ofNat_toNat, BitVec.setWidth_eq]

/-- ALIGN leaves NEXT_FREE aligned (R137). -/
theorem Block.runAlign_nextFree_aligned {b : Block w} (h : b.nextFree.toNat ≤ 2 ^ w.bits) :
    b.runAlign.nextFree.toNat % w.bytes = 0 := by
  rw [Block.runAlign_nextFree_toNat h]
  obtain ⟨hmul, -, -⟩ := roundup_spec (x := b.nextFree.toNat) (width_bytes_pos w)
  exact hmul

/-- No address from NEXT_FREE on belongs to a region (R28, R49). -/
theorem Block.regionsWf.unmappedAt_of_nextFree_le {b : Block w} (h : b.regionsWf) {a : Nat}
    (ha : b.nextFree.toNat ≤ a) : b.unmappedAt a := by
  obtain ⟨-, hord, -, -⟩ := id h
  have hsize := areasInOrder_le hord
  refine Block.resolve_eq_invalid.2 (Block.locate_eq_none.2 ⟨by omega, fun r hr => ?_⟩)
  obtain ⟨i, hi⟩ := List.getElem?_of_mem hr
  have hend := (h.area_bounds hi).2
  exact Area.holds_eq_false.2 fun hholds => by omega

end Addressing

/-- Settles O30: the two commands are RESOLVE at a granularity, and each clause is one way a range can lie. -/
theorem resolveAnswersWhereTheRangeLies : Obligations.ResolveAnswersWhereTheRangeLies := by
  refine ⟨rfl, rfl, fun w b i aligned a l hr hi ha hl => ?_⟩
  subst ha hl
  obtain ⟨g, rfl, haligned⟩ :
      ∃ g, i = resolveInstr g ∧ (aligned ↔ (g = .word → b.port.opa.toNat % w.bytes = 0)) := by
    obtain ⟨rfl, rfl⟩ | ⟨rfl, rfl⟩ := hi
    · exact ⟨.byte, rfl, by simp⟩
    · exact ⟨.word, rfl, by simp⟩
  refine ⟨fun hle hal => ?_, fun j r hgt hr' hbase hend hmin hal => ?_, fun hgt hnone => ?_, fun hsome hmis => ?_⟩
  · exact exec_resolve_of_located hr (Block.locate_eq_some.2 (.inl ⟨hle, rfl, rfl, rfl⟩)) (haligned.1 hal)
  · have hfirst : ∀ m < j, ∀ q, b.areas[m]? = some q → q.holds b.port.opa.toNat b.port.opb.toNat = false :=
      fun m hm q hq => Area.holds_eq_false.2 (hmin m q hm hq)
    have hloc := Block.locate_eq_some.2
      (.inr ⟨hgt, j, r, hr', Area.holds_iff.2 ⟨hbase, hend⟩, hfirst, rfl, rfl, rfl⟩)
    exact exec_resolve_of_located hr hloc (haligned.1 hal)
  · have hloc := Block.locate_eq_none.2 ⟨hgt, fun r hr' => Area.holds_eq_false.2 (hnone r hr')⟩
    exact exec_resolve_of_nowhere hr g hloc
  · obtain ⟨q, hloc⟩ := Block.locate_isSome.2 hsome
    obtain ⟨rfl, hodd⟩ := Classical.not_imp.1 (haligned.not.1 hmis)
    exact exec_resolveW_of_misaligned hr hloc hodd

/-- Settles O31: a located range has its addresses in one region, and no address is in two. -/
theorem straddlingRangesFail : Obligations.StraddlingRangesFail := by
  intro w b a l hr hwf ha hl hpos
  subst ha hl
  have hregion := Block.locate_isSome_iff_inRegion (b := b) (a := b.port.opa.toNat) hpos
  cases hloc : b.locate b.port.opa.toNat b.port.opb.toNat with
  | none =>
    refine ⟨_, exec_resolve_of_nowhere hr .byte hloc, ?_, by intros; rfl⟩
    rw [← hregion, hloc]
    simp
  | some q =>
    obtain ⟨region, offset, p⟩ := q
    obtain ⟨k, hk⟩ := hregion.1 ⟨_, hloc⟩
    refine ⟨_, exec_resolve_of_located hr (g := .byte) hloc nofun, iff_of_true rfl ⟨k, hk⟩, ?_⟩
    intro m m' x y hne hax hx hay hy hm hm'
    have hmk : m = k := hwf.region_unique hm (hk x hax hx)
    have hmk' : m' = k := hwf.region_unique hm' (hk y hay hy)
    exact absurd (hmk.trans hmk'.symm) hne

/-- Settles O34: ALLOC's tests in their order, and the numbers of the new area. -/
theorem allocAppendsAnArea : Obligations.AllocAppendsAnArea := by
  refine ⟨rfl, fun w b l hr hle hl hdata => ?_⟩
  subst hl
  refine ⟨fun hfull => ?_, fun hroom hex => ?_, fun hroom hne hsum => ?_⟩
  · rw [← Block.endCommand_eq hr.2 .areaTableFull {}]
    exact onBlock_command_of_ready hr (Block.runAlloc_of_full hdata hfull)
  · rw [← Block.endCommand_eq hr.2 .addressSpaceExhausted {}]
    exact onBlock_command_of_ready hr (Block.runAlloc_of_exhausted hdata hroom (Block.exhausted_eq_true.2 hex))
  · have hfits : b.exhausted b.lengthOperand = false := Block.exhausted_eq_false.2 ⟨hne, hsum⟩
    have hexec : exec .alloc ⟨w, b⟩ = _ := onBlock_command_of_ready hr (Block.runAlloc_of_fits hdata hroom hfits)
    rw [Block.endCommand_eq (b := b.appendArea b.lengthOperand b.bufferOperand) hr.2] at hexec
    refine ⟨_, _, ?_, ?_, ?_, ?_, hexec⟩
    · exact Block.nextFree_setWidth_toNat (Nat.lt_of_le_of_ne hle hne)
    · exact b.lengthOperand_size
    · rfl
    · exact Block.appendArea_nextFree_toNat hsum b.port.data

/-- Settles O36: ALIGN's rounding is the least multiple, and 2^W is one. -/
theorem alignRoundsUpToAWord : Obligations.AlignRoundsUpToAWord := by
  refine ⟨rfl, fun w b hr hle => ⟨b.runAlign.nextFree, ?_⟩⟩
  rw [exec_align hr, Block.endCommand_eq (b := b.runAlign) hr.2, Block.runAlign_nextFree_toNat hle]
  obtain ⟨hmul, hge, hleast⟩ := roundup_spec (x := b.nextFree.toNat) (width_bytes_pos w)
  exact ⟨hmul, hge, hleast, roundup_bytes_le hle, rfl⟩

/-- Settles O37: after ALIGN the rounding has nothing left to do, and NEXT_FREE bounds every region. -/
theorem secondAlignChangesNothing : Obligations.SecondAlignChangesNothing := by
  intro w b hr hwf
  have haligned : (b.runAlign.endCommand .ok {}).nextFree.toNat % w.bytes = 0 :=
    Block.runAlign_nextFree_aligned hwf.nextFree_le
  refine ⟨b.runAlign.endCommand .ok {}, exec_align hr, rfl, ?_, fun h => ?_, fun a ha _ => ?_⟩
  · have hready : (b.runAlign.endCommand .ok {}).ready := ⟨hr.1, rfl⟩
    rw [exec_align hready, Block.runAlign_of_aligned haligned]
    rfl
  · rw [Block.runAlign_of_aligned h, Block.endCommand_nextFree]
  · exact (Block.resolve_congr rfl rfl a 1 .byte).trans (hwf.unmappedAt_of_nextFree_le ha)

/-- Settles O32: a misaligned WORD range fails wherever it lies, and the answer tells only its address. -/
theorem wordAccessNeedsAnAlignedAddress : Obligations.WordAccessNeedsAnAlignedAddress := by
  intro w b hr hodd
  cases hloc : b.locate b.port.opa.toNat b.port.opb.toNat with
  | none => exact ⟨_, exec_resolve_of_nowhere hr .word hloc, rfl, .inl rfl, rfl, rfl, rfl⟩
  | some q => exact ⟨_, exec_resolveW_of_misaligned hr hloc hodd, rfl, .inr rfl, rfl, rfl, rfl⟩

end Sys2Proof.Machine

/-! PROOF. The end of a command (R146, R151): the status codes, the commands that end in their one step, and the response
step of a codec command, field by field. -/

namespace Sys2Proof.Machine

open Sys2Proof

/-! ### Status codes -/

/-- The statuses in the order of the table of R146. -/
def Status.inCodeOrder : List Status :=
  [.ok, .ioError, .tooWide, .invalidAddress, .unalignedAddress, .areaTableFull, .addressSpaceExhausted, .badCommand]

/-- A code is the place of its status in R146's table, so it tells its status. -/
theorem Status.inCodeOrder_code (s : Status) : Status.inCodeOrder[s.code.toNat]? = some s := by
  cases s <;> rfl

theorem Status.code_injective : Function.Injective Status.code := fun s t h => by
  have hplace := s.inCodeOrder_code
  rw [h, t.inCodeOrder_code] at hplace
  exact (Option.some.inj hplace).symm

/-- No code is above 7, because R146's table has eight rows. -/
theorem Status.code_le (s : Status) : s.code.toNat ≤ 7 := by
  obtain ⟨hlt, -⟩ := List.getElem?_eq_some_iff.1 s.inCodeOrder_code
  exact Nat.le_of_lt_succ hlt

/-- Settles O49: the eight codes are the places in R146's table. -/
theorem statusCodes : Obligations.StatusCodes :=
  ⟨rfl, rfl, rfl, rfl, rfl, rfl, rfl, rfl, fun _ _ h => Status.code_injective h, Status.code_le⟩

section EndOfCommand

variable {w : Width}

/-! ### Commands of one step -/

/-- The block with another area table and another NEXT_FREE (R26, R27). -/
def Block.withRegions (b : Block w) (areas : List (Area w)) (nextFree : Addr w) : Block w :=
  { b with areas := areas, nextFree := nextFree }

/-- An instruction that leaves PHASE at IDLE began there and ended by the response; the region map is all it changed
besides, and only with the status OK (R151). A codec command moves to BUSY, and a wire byte runs only at BUSY. -/
theorem ExecEffect.ends_of_idle {b c : Block w} {i : Instr} (h : ExecEffect b i c) (hidle : c.phase = .idle) :
    b.phase = .idle ∧ ∃ areas nextFree st f, c = (b.withRegions areas nextFree).endCommand st f ∧
      (st ≠ .ok → b.withRegions areas nextFree = b) := by
  cases h with
  | encS | encM | decS | decM | tooWide | final => cases hidle
  | chunk hp => cases hp.symm.trans hidle
  | ended hr st f => exact ⟨hr.2, _, _, st, f, rfl, fun _ => rfl⟩
  | allocated hr _ _ _ f => exact ⟨hr.2, _, _, .ok, f, rfl, fun hst => absurd rfl hst⟩
  | aligned hr => exact ⟨hr.2, _, _, .ok, {}, rfl, fun hst => absurd rfl hst⟩

/-! ### The response step -/

/-- The response step writes PHASE, LAST_STATUS and the response registers, and the status twice (R151). -/
theorem step_ends_by_response {b : Block w} {op : CodecOp} {res : CodecResult w}
    (hp : b.phase = .busy op (.respond res)) :
    step ⟨w, b⟩ = .next ⟨w, { b with
      phase := .idle
      lastStatus := (b.respondCodec op res).lastStatus
      rsp := { (b.respondCodec op res).rsp with status := some (b.respondCodec op res).lastStatus } }⟩ := by
  obtain ⟨st, f, he⟩ := b.respondCodec_endCommand op res
  rw [step_of_response hp, he]
  rfl

/-- What the response tells of the transfer does not depend on the result, and no field of the addressing commands is
valid (R105, R108, R111, R114). -/
theorem Block.respondCodec_transfer (b : Block w) (op : CodecOp) (res : CodecResult w) :
    (b.respondCodec op res).rsp.count = some (BitVec.ofNat 4 b.cnt) ∧
      (b.respondCodec op res).rsp.cur = (if op.inMemory then some b.cur else none) ∧
      (b.respondCodec op res).rsp.region = none ∧ (b.respondCodec op res).rsp.offset = none ∧
      (b.respondCodec op res).rsp.base = none := by
  cases res <;> exact ⟨rfl, rfl, rfl, rfl, rfl⟩

/-- The status is OK where the cores returned; a failure reports its own status (R97, R102). -/
theorem Block.respondCodec_lastStatus_eq_ok_iff (b : Block w) (op : CodecOp) (res : CodecResult w) :
    (b.respondCodec op res).lastStatus = .ok ↔ res = .encoded ∨ (∃ v, res = .decoded v) ∨ res = .failed .ok := by
  cases res <;> simp [Block.respondCodec]

/-- RSP_VALUE is valid exactly after a decode that succeeded (R111, R114). -/
theorem Block.respondCodec_value_eq_some_iff (b : Block w) (op : CodecOp) (res : CodecResult w) (v : Word w) :
    (b.respondCodec op res).rsp.value = some v ↔ res = .decoded v := by
  cases res <;> simp [Block.respondCodec, Block.transferFields]

end EndOfCommand

/-- Settles O40: a block at IDLE after an instruction is the end of a command that touched no codec register. -/
theorem oneStepCommandsEndByTheResponse : Obligations.OneStepCommandsEndByTheResponse := by
  intro w b c i _ hexec hidle
  obtain ⟨_, hc, heff⟩ := exec_effect hexec
  cases hc
  obtain ⟨hphase, areas, nextFree, st, f, rfl, hundone⟩ := heff.ends_of_idle hidle
  refine ⟨rfl, rfl, rfl, rfl, rfl, rfl, rfl, rfl, fun hst => ?_⟩
  rw [hundone hst, Block.endCommand_eq hphase]

/-- Settles O41: the response step's fields, first those every result has, then each result's own. -/
theorem responseStepEndsTheCommand : Obligations.ResponseStepEndsTheCommand := by
  intro w b op res hp
  obtain ⟨hcount, hcur, hregion, hoffset, hbase⟩ := b.respondCodec_transfer op res
  refine ⟨(b.respondCodec op res).lastStatus, (b.respondCodec op res).rsp, step_ends_by_response hp,
    hcount, hcur, hregion, hoffset, hbase, b.respondCodec_lastStatus_eq_ok_iff op res,
    b.respondCodec_value_eq_some_iff op res, ?_, ?_, ?_⟩
  · rintro ⟨v, rfl⟩
    exact ⟨rfl, rfl⟩
  · rintro rfl
    exact ⟨rfl, rfl⟩
  · rintro e rfl
    exact ⟨rfl, rfl, rfl⟩

end Sys2Proof.Machine

/-! PROOF. Bounded work and waiting (R180, R181): how many byte steps a codec command has left, what each of them uses
of the stream's answers, and the end of every command. -/

namespace Sys2Proof.Machine

open Sys2Proof

section BoundedWork

variable {w : Width}

/-! ### The stream's answers -/

/-- How many answers the stream has ready in the direction the command uses (R35); a command in memory uses none. -/
def Block.answers (b : Block w) : CodecOp → Nat
  | .encS => b.stream.writes.length
  | .decS => b.stream.reads.length
  | .encM | .decM => 0

/-- The next `m` bytes of the command wait for no answer: it is in memory, no stream is attached (R173), or `m` answers
are ready. -/
def Block.AnswersReady (b : Block w) (op : CodecOp) (m : Nat) : Prop :=
  op.inMemory = true ∨ b.stream.attached = false ∨ m ≤ b.answers op

/-- A command that waits has no answer ready for its next byte. -/
theorem Block.awaits.not_answersReady {b : Block w} {op : CodecOp} (h : b.awaits op) (m : Nat) :
    ¬ b.AnswersReady op (m + 1) := by
  obtain ⟨-, ha, ⟨rfl, hw⟩ | ⟨rfl, hr⟩⟩ := h
  · simp [Block.AnswersReady, CodecOp.inMemory, Block.answers, ha, hw]
  · simp [Block.AnswersReady, CodecOp.inMemory, Block.answers, ha, hr]

/-- A byte that is put uses up one answer at most. -/
theorem Block.AnswersReady.of_put {b c : Block w} {op : CodecOp} {m : Nat} (h : b.AnswersReady op (m + 1))
    (hop : op.decodes = false) {x : Byte} (hput : b.put op x = .done c) : c.AnswersReady op m := by
  cases op with
  | decS | decM => cases hop
  | encM => exact .inl rfl
  | encS =>
    obtain ⟨rest, ha, hw, hs⟩ | ⟨rest, -, -, hs⟩ | ⟨-, hs⟩ | ⟨-, -, hs⟩ := b.streamPut_cases x
    · cases hs.symm.trans hput
      simpa [Block.AnswersReady, CodecOp.inMemory, Block.answers, ha, hw] using h
    all_goals cases hs.symm.trans hput

/-- A byte that is got uses up one answer at most. -/
theorem Block.AnswersReady.of_get {b c : Block w} {op : CodecOp} {m : Nat} (h : b.AnswersReady op (m + 1))
    (hop : op.decodes = true) {x : Byte} (hget : b.get op = .got x c) : c.AnswersReady op m := by
  cases op with
  | encS | encM => cases hop
  | decM => exact .inl rfl
  | decS =>
    obtain ⟨y, rest, ha, hr, hs⟩ | ⟨y, rest, -, -, -, hs⟩ | ⟨-, hs⟩ | ⟨-, -, hs⟩ := b.streamGet_cases
    · cases hs.symm.trans hget
      simpa [Block.AnswersReady, CodecOp.inMemory, Block.answers, ha, hr] using h
    all_goals cases hs.symm.trans hget

/-- Only an encoder on a stream that has not answered waits to put. -/
theorem Block.awaits_of_put {b : Block w} {op : CodecOp} (hp : b.phase = .busy op .transfer) (hop : op.decodes = false)
    {x : Byte} (hput : b.put op x = .waiting) : b.awaits op := by
  cases op with
  | decS | decM => cases hop
  | encM => obtain ⟨_, _, _, -, hs⟩ | ⟨-, hs⟩ := b.memPut_cases x <;> cases hs.symm.trans hput
  | encS =>
    obtain ⟨_, -, -, hs⟩ | ⟨_, -, -, hs⟩ | ⟨-, hs⟩ | ⟨ha, hw, -⟩ := b.streamPut_cases x
    case inr.inr.inr => exact ⟨hp, ha, .inl ⟨rfl, hw⟩⟩
    all_goals cases hs.symm.trans hput

/-- Only a decoder on a stream that has not answered waits to get. -/
theorem Block.awaits_of_get {b : Block w} {op : CodecOp} (hp : b.phase = .busy op .transfer) (hop : op.decodes = true)
    (hget : b.get op = .waiting) : b.awaits op := by
  cases op with
  | encS | encM => cases hop
  | decM => obtain ⟨_, _, _, -, hs⟩ | ⟨-, hs⟩ := b.memGet_cases <;> cases hs.symm.trans hget
  | decS =>
    obtain ⟨_, _, -, -, hs⟩ | ⟨_, _, -, -, -, hs⟩ | ⟨-, hs⟩ | ⟨ha, hr, -⟩ := b.streamGet_cases
    case inr.inr.inr => exact ⟨hp, ha, .inr ⟨rfl, hr⟩⟩
    all_goals cases hs.symm.trans hget

/-! ### A step that waits -/

theorem step_of_get_failed {b c : Block w} {op : CodecOp} (hp : b.phase = .busy op .transfer) (hop : op.decodes = true)
    {st : Status} (hget : b.get op = .failed st c) : step ⟨w, b⟩ = .next ⟨w, c.finish op (.failed st)⟩ := by
  simp [step, State.fetch, hp, Block.fetchTransfer, hop, hget]

theorem step_of_get_waiting {b : Block w} {op : CodecOp} (hp : b.phase = .busy op .transfer) (hop : op.decodes = true)
    (hget : b.get op = .waiting) : step ⟨w, b⟩ = .next ⟨w, b⟩ := by
  simp [step, State.fetch, hp, Block.fetchTransfer, hop, hget]

/-- A request the stream has not answered holds the block as it is (R176, R180). -/
theorem step_of_awaits {b : Block w} {op : CodecOp} (h : b.awaits op) : step ⟨w, b⟩ = .next ⟨w, b⟩ := by
  obtain ⟨hp, ha, ⟨rfl, hw⟩ | ⟨rfl, hr⟩⟩ := h
  · rw [step_of_encoding hp rfl]
    simp only [Block.encodeStep, Block.put_encS_unanswered ha hw]
  · exact step_of_get_waiting hp rfl (Block.get_decS_unanswered ha hr)

/-! ### The byte steps that are left -/

/-- The command is at its byte steps, and at most `m` of them are left: `m` bytes hold the encoder's remaining width
(R98), or the decoder's offset is `m` chunks below that of MAX_LEN bytes (R101, R102). -/
structure Block.StepsLeft (b : Block w) (op : CodecOp) (m : Nat) : Prop where
  phase : b.phase = .busy op .transfer
  encoder : op.decodes = false → b.bits < 7 * m
  decoder : op.decodes = true → 0 < m ∧ b.off + 7 * m = 7 * w.maxLen

/-- What the codec's ranges say of a command at its byte steps: those of MAX_LEN that are not counted are left. -/
theorem Block.codecWf.stepsLeft {b : Block w} (h : b.codecWf) {op : CodecOp} (hp : b.phase = .busy op .transfer) :
    b.StepsLeft op (w.maxLen - b.cnt) := by
  obtain ⟨-, hcover, -, hlen⟩ := width_maxCont_bounds w
  refine ⟨hp, fun hop => ?_, fun hop => ?_⟩
  · obtain ⟨-, -, -, -, hphase⟩ := h
    have hsum := (Block.phaseWf_encoding hp hop).1 hphase
    omega
  · obtain ⟨hoff, -, hcnt⟩ := h.decoding hp hop
    omega

/-- A command at its byte steps has a byte to come. -/
theorem Block.StepsLeft.pos {b : Block w} {op : CodecOp} {m : Nat} (h : b.StepsLeft op m) : 0 < m := by
  cases hop : op.decodes with
  | false =>
    have hbits := h.encoder hop
    omega
  | true => exact (h.decoder hop).1

/-- What one byte step leaves where `m` are left after it. -/
inductive ByteStep (b : Block w) (op : CodecOp) (m : Nat) : Block w → Prop where
  /-- A byte is transferred and more are to come. -/
  | more {c : Block w} (hleft : c.StepsLeft op m) (hans : b.AnswersReady op (m + 1) → c.AnswersReady op m) :
      ByteStep b op m c
  /-- The byte steps are over: the response step is next. -/
  | ended {c : Block w} {res : CodecResult w} (hp : c.phase = .busy op (.respond res)) : ByteStep b op m c
  /-- The stream has not answered. -/
  | waits (h : b.awaits op) : ByteStep b op m b

/-- A byte step of an encoder. -/
theorem Block.StepsLeft.step_encoder {b : Block w} {op : CodecOp} {m : Nat} (h : b.StepsLeft op (m + 1))
    (hop : op.decodes = false) : ByteStep b op m (b.encodeStep op) := by
  have hwidth := h.encoder hop
  obtain ⟨c, hput, hmore, he⟩ | ⟨c, -, -, he⟩ | ⟨st, c, -, he⟩ | ⟨hput, he⟩ := b.encodeStep_cases op <;> rw [he]
  · obtain ⟨hphase, -, -, hbits, -⟩ := Block.put_registers hop hput
    have hfewer : c.afterContPut.bits < 7 * m := by
      rw [Block.afterContPut_bits]
      omega
    have hans (hr : b.AnswersReady op (m + 1)) : c.AnswersReady op m := hr.of_put hop hput
    exact .more ⟨hphase.trans h.phase, fun _ => hfewer, (nomatch hop.symm.trans ·)⟩ hans
  · exact .ended rfl
  · exact .ended rfl
  · exact .waits (Block.awaits_of_put h.phase hop hput)

/-- A wire byte that a decoder got. -/
theorem Block.StepsLeft.exec_wireByte {b c : Block w} {op : CodecOp} {m : Nat} (h : b.StepsLeft op (m + 1))
    (hop : op.decodes = true) {x : Byte} (hget : b.get op = .got x c) :
    ∃ d, exec (decodeWire x) ⟨w, c⟩ = .next ⟨w, d⟩ ∧ ByteStep b op m d := by
  obtain ⟨-, hcover, -, hlen⟩ := width_maxCont_bounds w
  obtain ⟨-, hoffset⟩ := h.decoder hop
  obtain ⟨hphase, -, hoff, -⟩ := Block.get_registers hop hget
  have hp := hphase.trans h.phase
  obtain ⟨ch, rfl⟩ | ⟨k, p, rfl⟩ := wireByte_cases x
  · refine ⟨_, exec_contByte hp hop ch, ?_⟩
    obtain ⟨-, he⟩ | ⟨hlimit, he⟩ := c.takeChunk_cases op ch <;> rw [he]
    · exact .ended rfl
    · have hnext : 0 < m ∧ (c.countByte.joinChunk ch).off + 7 * m = 7 * w.maxLen := by
        show 0 < m ∧ c.off + 7 + 7 * m = 7 * w.maxLen
        omega
      have hans (hr : b.AnswersReady op (m + 1)) : c.AnswersReady op m := hr.of_get hop hget
      exact .more ⟨hp, (nomatch hop.symm.trans ·), fun _ => hnext⟩ hans
  · exact ⟨_, exec_finalByte hp hop k p, .ended rfl⟩

/-- A byte step. -/
theorem Block.StepsLeft.step_byteStep {b : Block w} {op : CodecOp} {m : Nat} (h : b.StepsLeft op (m + 1)) :
    ∃ c, step ⟨w, b⟩ = .next ⟨w, c⟩ ∧ ByteStep b op m c := by
  cases hop : op.decodes with
  | false => exact ⟨_, step_of_encoding h.phase hop, h.step_encoder hop⟩
  | true =>
    cases hget : b.get op with
    | got x c =>
      rw [step_of_decoding h.phase hop hget]
      exact h.exec_wireByte hop hget
    | failed st c => exact ⟨_, step_of_get_failed h.phase hop hget, .ended rfl⟩
    | waiting => exact ⟨b, step_of_get_waiting h.phase hop hget, .waits (Block.awaits_of_get h.phase hop hget)⟩

/-! ### The end of a command -/

theorem Block.respondCodec_phase (b : Block w) (op : CodecOp) (res : CodecResult w) :
    (b.respondCodec op res).phase = .idle := by
  obtain ⟨st, f, he⟩ := b.respondCodec_endCommand op res
  rw [he, Block.endCommand_phase]

/-- Within `n` steps the command ends, or it comes to wait for the stream, which only happens where an answer was
missing for one of the `m` bytes to come. -/
def Block.EndsOrAwaits (b : Block w) (op : CodecOp) (m n : Nat) : Prop :=
  ∃ k t, k ≤ n ∧ run k ⟨w, b⟩ = .next ⟨w, t⟩ ∧ (t.phase = .idle ∨ t.awaits op ∧ ¬ b.AnswersReady op m)

/-- A command with at most `m` byte steps left, to its response. -/
theorem Block.StepsLeft.endsOrAwaits {b : Block w} {op : CodecOp} {m : Nat} (h : b.StepsLeft op m) :
    b.EndsOrAwaits op m (m + 1) := by
  induction m generalizing b with
  | zero => exact absurd h.pos (Nat.lt_irrefl 0)
  | succ m ih =>
    obtain ⟨c, hstep, hbyte⟩ := h.step_byteStep
    cases hbyte with
    | more hleft hans =>
      obtain ⟨k, t, hk, hrun, hend⟩ := ih hleft
      exact ⟨k + 1, t, Nat.succ_le_succ hk, (run_succ_of_step hstep k).trans hrun,
        hend.imp_right (And.imp_right (mt hans))⟩
    | @ended _ res hp =>
      exact ⟨2, _, Nat.le_add_left 2 m, run_response (run_succ_of_step hstep 0) hp, .inl (c.respondCodec_phase op res)⟩
    | waits haw => exact ⟨0, b, Nat.zero_le _, rfl, .inr ⟨haw, haw.not_answersReady m⟩⟩

/-- A codec command at any point of it, to its response (R181). -/
theorem Block.codecWf.endsOrAwaits {b : Block w} (h : b.codecWf) {op : CodecOp} {stage : Stage w}
    (hp : b.phase = .busy op stage) : b.EndsOrAwaits op (w.maxLen - b.cnt) (w.maxLen + 1) := by
  cases stage with
  | transfer =>
    obtain ⟨k, t, hk, hend⟩ := (h.stepsLeft hp).endsOrAwaits
    exact ⟨k, t, by omega, hend⟩
  | respond res =>
    exact ⟨1, _, Nat.le_add_left 1 _, run_succ_of_step (step_of_response hp) 0, .inl (b.respondCodec_phase op res)⟩

/-- With the host's duty kept, ALLOC ends whatever it answers (R134, R178). -/
theorem Block.runAlloc_ends {b : Block w} (hdata : b.lengthOperand ≤ b.bufferOperand.length) :
    ∃ c : Block w, b.runAlloc = .next c ∧ c.phase = .idle := by
  by_cases hfull : b.areas.length = b.maxAreas
  · exact ⟨_, Block.runAlloc_of_full hdata hfull, rfl⟩
  · cases hex : b.exhausted b.lengthOperand with
    | true => exact ⟨_, Block.runAlloc_of_exhausted hdata hfull hex, rfl⟩
    | false => exact ⟨_, Block.runAlloc_of_fits hdata hfull hex, rfl⟩

/-- RESOLVE ends in its one step (R127, R176). -/
theorem exec_resolve_ends {b : Block w} (hr : b.ready) (g : Granularity) :
    ∃ t, exec (resolveInstr g) ⟨w, b⟩ = .next ⟨w, t⟩ ∧ t.phase = .idle := by
  obtain ⟨st, f, he⟩ := b.runResolve_endCommand g
  exact ⟨_, exec_resolve hr g, by rw [he, Block.endCommand_phase]⟩

end BoundedWork

/-- Settles O28: the byte steps left bound a codec command, and with an answer ready for each it does not wait; every
other command ends in its one step. -/
theorem commandsEndInBoundedWork : Obligations.CommandsEndInBoundedWork := by
  refine ⟨fun w b op stage hp hwf => ?_, fun w b i hr hduty hi => ?_⟩
  · obtain ⟨n, t, hn, hrun, hend⟩ := hwf.endsOrAwaits hp
    refine ⟨⟨n, t, hn, hrun, hend.imp_right And.left⟩, fun hanswers => ⟨n, t, hn, hrun, ?_⟩⟩
    have hready : b.AnswersReady op (w.maxLen - b.cnt) := by
      obtain hmem | hdetached | ⟨rfl, hwrites⟩ | ⟨rfl, hreads⟩ := hanswers
      · exact .inl hmem
      · exact .inr (.inl hdetached)
      · exact .inr (.inr (Nat.sub_le_iff_le_add'.2 hwrites))
      · exact .inr (.inr (Nat.sub_le_iff_le_add'.2 hreads))
    exact hend.resolve_right fun hwaits => hwaits.2 hready
  · obtain rfl | rfl | rfl | rfl | ⟨cmd, rfl⟩ := hi
    · exact exec_resolve_ends hr .byte
    · exact exec_resolve_ends hr .word
    · obtain ⟨c, hc, hidle⟩ := Block.runAlloc_ends (hduty rfl)
      exact ⟨c, onBlock_command_of_ready hr hc, hidle⟩
    · exact ⟨_, exec_align hr, rfl⟩
    · exact ⟨_, onBlock_command_of_ready hr rfl, rfl⟩

/-- Settles O29: the step of a command that waits changes nothing. -/
theorem theBlockWaitsForTheStream : Obligations.TheBlockWaitsForTheStream :=
  fun _ _ _ n h => run_of_fixed (step_of_awaits h) n

end Sys2Proof.Machine

/-! PROOF. The life of a machine (R165 to R170, R178): launch and its values, what a ready machine does without the
host, a broken duty, release and the machine after it. -/

namespace Sys2Proof.Machine

open Sys2Proof

section Lifetime

variable {w : Width}

/-! ### Launch -/

theorem launch_of_wf {l : Launch w} (h : l.wf = true) : State.launch w l = .next ⟨w, Block.construct l⟩ := if_pos h

/-- A legal MEMORY_SIZE is a multiple of WORD_BYTES and leaves a word below 2^W (R9). -/
theorem legalMemorySize_iff {n : Word w} :
    legalMemorySize n = true ↔ n.toNat % w.bytes = 0 ∧ n.toNat + w.bytes ≤ 2 ^ w.bits := by
  simp [legalMemorySize]

/-- NEXT_FREE starts at MEMORY_SIZE, which its W + 1 bits hold (R27, R40). -/
theorem Block.construct_nextFree_toNat (l : Launch w) : (Block.construct l).nextFree.toNat = l.memorySize.toNat :=
  BitVec.toNat_setWidth_of_le (Nat.le_succ _)

/-- Before the first command no response field holds a value (R33, R40). -/
theorem Response.read_empty (f : ResponseField) : ({} : Response w).read f = none := by
  cases f <;> rfl

/-! ### Without the host, and after release -/

/-- At IDLE the block does nothing of its own (R167). -/
theorem step_of_no_action {b : Block w} (hp : b.phase = .idle) (hh : b.host = []) : step ⟨w, b⟩ = .next ⟨w, b⟩ := by
  simp [step, State.fetch, hp, Block.fetchIdle, hh]

/-- A released machine backs no address (R168). -/
theorem Block.byteAt_of_released {b : Block w} (hl : b.live = false) (a : Nat) : b.byteAt a = none := by
  simp [Block.byteAt, hl]

/-- A released machine takes no command (R168). -/
theorem Block.command_released {b : Block w} (hl : b.live = false)
    (f : Block w → Host.Outcome (Block w) Fault Refusal) : b.command f = .refused .released := if_pos hl

/-- A command whose meaning is refused, on a ready machine. -/
theorem onBlock_command_refused {b : Block w} {f : Block w → Host.Outcome (Block w) Fault Refusal} {r : Refusal}
    (hr : b.ready) (h : f b = .refused r) : State.onBlock ⟨w, b⟩ (fun b => b.command f) = .refused r :=
  State.onBlock_of_refused ((Block.command_ready hr f).trans h)

/-- Construction without a release is refused (R166). -/
theorem Block.constructAgain_of_live {b : Block w} (hl : b.live = true) (size : Word w) (contents : Memory) :
    b.constructAgain size contents = .refused .resetWithoutRelease := if_pos hl

/-- Construction after a release, from a legal launch (R169). -/
theorem Block.constructAgain_of_released {b : Block w} (hl : b.live = false) {size : Word w} {contents : Memory}
    (hw : (b.relaunch size contents).wf = true) :
    b.constructAgain size contents = .next ((Block.construct (b.relaunch size contents)).withAgents b) := by
  simp [Block.constructAgain, hl, hw]

end Lifetime

/-- Settles O35: ALLOC looks at the buffer before anything else. -/
theorem allocWithAShortBufferIsRefused : Obligations.AllocWithAShortBufferIsRefused := by
  intro w b hr hshort
  have halloc : b.runAlloc = .refused .shortBuffer := if_pos hshort
  exact onBlock_command_refused hr halloc

/-- Settles O44: the step without an action changes nothing. -/
theorem nothingHappensWithoutTheHost : Obligations.NothingHappensWithoutTheHost :=
  fun _ _ n hp hh => run_of_fixed (step_of_no_action hp hh) n

/-- Settles O48: release, commands after it, and construction on either side of it. -/
theorem releaseEndsTheMachine : Obligations.ReleaseEndsTheMachine := by
  refine ⟨?_, fun w b i hl hi => ?_, fun w b size contents rest hp hh => ?_⟩
  · rintro w b rest ⟨hlive, hidle⟩ hh
    have hact : (b.withHost rest).act .release = .next (b.withHost rest).releaseAll := Block.whileLive_live hlive _
    exact ⟨_, (step_of_action hidle hh nofun).trans (State.onBlock_of_next hact), rfl, Block.byteAt_of_released rfl⟩
  · obtain ⟨f, hf⟩ := exec_of_command_channel hi b
    exact hf.trans (State.onBlock_of_refused (Block.command_released hl f))
  · have hstep := step_of_action hp hh nofun
    refine ⟨fun hl => hstep.trans ?_, fun hl hsize hcontents hareas => hstep.trans ?_⟩
    · exact State.onBlock_of_refused (Block.constructAgain_of_live (b := b.withHost rest) hl size contents)
    · have hw : (b.relaunch size contents).wf = true := by
        simp [Launch.wf, Block.relaunch, hsize, hcontents, hareas]
      exact State.onBlock_of_next (Block.constructAgain_of_released (b := b.withHost rest) hl hw)

/-- Settles O50: the values construction gives, field by field. -/
theorem resetValues : Obligations.ResetValues := fun _ l hw =>
  ⟨Block.construct l, launch_of_wf hw, rfl, rfl, Block.construct_nextFree_toNat l, rfl, rfl, rfl, rfl, rfl, rfl, rfl,
    rfl, rfl, Response.read_empty, rfl, rfl, rfl⟩

/-- Settles O51: a legal launch has a legal MEMORY_SIZE. -/
theorem illegalLaunchIsRefused : Obligations.IllegalLaunchIsRefused := by
  intro w l hbad
  refine if_neg fun hw => ?_
  obtain ⟨hlegal, -, -, -⟩ := launch_wf_iff.1 hw
  obtain ⟨hmul, hle⟩ := legalMemorySize_iff.1 hlegal
  omega

end Sys2Proof.Machine
